-- ==== Sys2Proof/Word.lean ====
section
/-! DEFINITION. The words of the block: bytes, the operation word and register offsets (00_scope.md R14, R15). -/

namespace Sys2Proof

/-- Everything in the block is 8 bits wide or narrower (00_scope.md R14); arithmetic wraps modulo 256 (R15). -/
abbrev Byte := BitVec 8

/-- The operation word {OPC, A, B, C} (30_encoding.md R85). -/
abbrev OpWord := BitVec 32

/-- A byte offset into the host's register space of 64 locations (20_memory.md R60, 00_scope.md R14). -/
abbrev Offset := BitVec 6

end Sys2Proof
end

