-- ==== Sys2Proof/Config.lean ====
section
/-! DEFINITION. What is fixed for a run: the constants of 00_scope.md R8, the parameters of R9 to R13, and the free values (`any8`, R17). -/

namespace Sys2Proof

/-- The five protocol byte codes (00_scope.md R10). -/
structure Codes where
  /-- `CODE_OK` -/
  ok : Byte
  /-- `CODE_ABORT` -/
  abort : Byte
  /-- `CODE_CKSUM_OK`, the source's BUFFER_AND_CHECKSUM_OK -/
  cksumOk : Byte
  /-- `CODE_BOOT_OK` -/
  bootOk : Byte
  /-- `CODE_BOOT_REQ`, the request-countdown command -/
  bootReq : Byte
  deriving DecidableEq, Repr, Inhabited

/-- The parameters of a run (10_state.md R47: configuration, arguments of the model). -/
structure Config where
  /-- `SUB_PER_UNIT` (R9): polls in one timeout unit, at least 1 -/
  subPerUnit : Nat
  codes : Codes
  /-- `TX_CAP` (R11): capacity of the Transmit Buffer -/
  txCap : Nat
  /-- `IEM_W` (R12): the width of `IEM` and `SAVED`, at most 8 (R14, log 22) -/
  iemWidth : Nat
  /-- `LINK_BIT` (R12): the bit of `IEM` that enables the link's interrupt -/
  linkBit : Fin 8
  /-- `TX_SETS_PENDING` (R13) -/
  txSetsPending : Bool
  /-- `HS_STOP_ON_MISMATCH` (R13) -/
  hsStopOnMismatch : Bool
  deriving DecidableEq, Repr

namespace Config

/-- `RX_CAP` (R8): capacity of the Receive Buffer. -/
def rxCap : Nat := 14

/-- `MAX_RX_LEN` (R8): the largest length byte a receive accepts. -/
def maxRxLen : Byte := 14

/-- `T_SEND` (R8): units of every wait of the send-buffer operation. -/
def tSend : Byte := 200

/-- `T_RECV` (R8): units of every wait of the receive-buffer operation. -/
def tRecv : Byte := 100

/-- `SENTINEL` (R8): forced into the accumulator on a timeout inside a frame. -/
def sentinel : Byte := 0xFF

/-- `HS_COUNT` (R8): bytes in each handshake sequence; the 8-bit counters of BOOT realise it by wrapping (30_encoding.md R107). -/
def hsCount : Nat := 256

/-- The longest payload a send-buffer operation accepts, `TX_CAP - 2` (42_packet_protocol.md R157). -/
def txMaxPayload (c : Config) : Nat := c.txCap - 2

/-- The draw `any8` (00_scope.md R17): the value of the n-th draw, which nothing constrains.
DESIGN CHOICE (log 7), safe. -/
opaque freeByte : Nat → Byte

/-- The codes of the block at hand, OPEN (R10): nothing is known of them.
DESIGN CHOICE (log 5), safe. -/
opaque chosenCodes : Codes

/-- `SUB_PER_UNIT - 1` of the block at hand, OPEN (R9): nothing is known of it.
DESIGN CHOICE (log 5), safe. -/
opaque chosenSubPerUnit : Nat

end Config

/-- The constraints of R10: `CODE_CKSUM_OK ≠ CODE_OK`, `CODE_OK ≠ CODE_ABORT`. -/
def Codes.wf (c : Codes) : Bool := c.cksumOk != c.ok && c.ok != c.abort

/-- The values R10 gives "only for the concrete instances in 95_test_vectors.md". PRESUMED by the spec itself (G1). -/
def Codes.example : Codes := { ok := 0x01, abort := 0x04, cksumOk := 0x03, bootOk := 0x01, bootReq := 0x00 }

/-- The parameters of the concrete instances of 95_test_vectors.md; for tests and witnesses only. -/
def Config.example : Config :=
  { subPerUnit := 1, codes := Codes.example, txCap := 14, iemWidth := 8, linkBit := 3, txSetsPending := true
    hsStopOnMismatch := false }

/-- The parameters of the block at hand, at reset: the OPEN ones any that meet the constraints of R9 and R10 (log 5);
`TX_CAP`, `IEM_W`, `LINK_BIT`, `TX_SETS_PENDING` and `HS_STOP_ON_MISMATCH` at the defaults R11 to R13 give (log 6). -/
def Config.installed : Config :=
  { subPerUnit := Config.chosenSubPerUnit + 1
    codes := if Config.chosenCodes.wf then Config.chosenCodes else Codes.example
    txCap := 14
    iemWidth := 8
    linkBit := 3
    txSetsPending := true
    hsStopOnMismatch := false }

end Sys2Proof
end

