-- ==== Sys2Proof/Syntax.lean ====
section
/-! DEFINITION. The eight operations (30_encoding.md R86), one constructor per row of spec/opcode_table.json. -/

namespace Sys2Proof

/-- An operation with the operands it uses (R86). An operand field an operation does not use is ignored (R87) and is no
part of the instruction. -/
inductive Instr where
  /-- `SENDB` 0x01, A = b: transmit one byte (40_byte_transport.md R117) -/
  | sendb (b : Byte)
  /-- `ENRX` 0x02: arm the receive interrupt (R119) -/
  | enrx
  /-- `RDBLK` 0x03: wait without bound for a byte (41_timeout_receive.md R136) -/
  | rdblk
  /-- `RDTO` 0x04, A = units: wait for a byte within a budget (R138) -/
  | rdto (units : Byte)
  /-- `SNDACK` 0x05, A = byte, B = units, C = expected (R141) -/
  | sndack (byte : Byte) (units : Byte) (expected : Byte)
  /-- `PSEND` 0x06, A = command: send the Transmit Buffer (42_packet_protocol.md R156) -/
  | psend (command : Byte)
  /-- `PRECV` 0x07, A = command: receive into the Receive Buffer (R159) -/
  | precv (command : Byte)
  /-- `BOOT` 0x08: the boot handshake (43_boot_handshake.md R185) -/
  | boot
  deriving DecidableEq, Repr

/-- Why a word is no instruction; raised by the decoder, and answered by the machine with a refused issue (R88, R90). -/
inductive DecodeError where
  /-- operation codes 0x00 and 0x09 to 0xFF (R90) -/
  | reservedCode (opc : Byte)
  /-- fewer than the four bytes OPC, A, B, C (R85: there is one length) -/
  | truncated
  deriving DecidableEq, Repr

end Sys2Proof
end

