-- ==== Sys2Proof/WellFormed.lean ====
section
/-! DEFINITION. What is checked of terms before a machine runs them: a raw operation word, an instruction, the parameters.
Every value of every operand is accepted (30_encoding.md R87), so the instruction check refuses nothing; the word check
refuses the reserved codes (R90), and the parameter check the values 00_scope.md R9 to R12 exclude. -/

namespace Sys2Proof

/-- The operation codes of R86. -/
def validOpcode (opc : Byte) : Bool := decide (0x01 ≤ opc.toNat) && decide (opc.toNat ≤ 0x08)

/-- A number is the operation word of some operation: 32 bits (R85) with a code that is not reserved (R90). -/
def wfWord (w : Nat) : Bool := decide (w < 2 ^ 32) && validOpcode (BitVec.ofNat 8 (w / 2 ^ 24))

/-- Every operand is a whole byte and every value of it is accepted (R87). -/
def Instr.wf : Instr → Bool
  | .sendb _ => true
  | .enrx => true
  | .rdblk => true
  | .rdto _ => true
  | .sndack _ _ _ => true
  | .psend _ => true
  | .precv _ => true
  | .boot => true

/-- `TX_CAP` leaves room for a length and a checksum byte (00_scope.md R11) and for the buffer's window in the 64 locations of the
register space (20_memory.md R60, R66). DEDUCED (log 22). -/
def Config.txCapOk (c : Config) : Bool := decide (2 ≤ c.txCap) && decide (c.txCap ≤ 32)

/-- `0 ≤ LINK_BIT < IEM_W` (00_scope.md R12), and a mask of at most 8 bits (R14). -/
def Config.maskOk (c : Config) : Bool := decide (c.linkBit.val < c.iemWidth) && decide (c.iemWidth ≤ 8)

/-- `SUB_PER_UNIT ≥ 1` (00_scope.md R9), the constraints on the codes (R10), on `TX_CAP` and on the mask. -/
def Config.wf (c : Config) : Bool := decide (1 ≤ c.subPerUnit) && c.codes.wf && c.txCapOk && c.maskOk

end Sys2Proof
end

