-- ==== Sys2Proof/Decode.lean ====
section
/-! DEFINITION. The decoder, total on any bytes and rejecting by name, and the encoder (30_encoding.md R85 to R87, R90). -/

namespace Sys2Proof

/-- The concatenation {OPC, A, B, C} (30_encoding.md R85): OPC in bits 31:24, A in 23:16, B in 15:8, C in 7:0. -/
def opWord (opc a b c : Byte) : OpWord := opc ++ a ++ b ++ c

/-- `OPC`, bits 31:24 of the operation word (R85). -/
def opcField (w : OpWord) : Byte := w.extractLsb' 24 8

/-- Operand `A`, bits 23:16 (R85). -/
def aField (w : OpWord) : Byte := w.extractLsb' 16 8

/-- Operand `B`, bits 15:8 (R85). -/
def bField (w : OpWord) : Byte := w.extractLsb' 8 8

/-- Operand `C`, bits 7:0 (R85). -/
def cField (w : OpWord) : Byte := w.extractLsb' 0 8

/-- The decoder on the four fields: it matches the operation code "and nothing else" (R86), takes each used operand whole
(R87) and rejects the reserved codes by name (R90). -/
def decodeFields (opc a b c : Byte) : Except DecodeError Instr :=
  match opc.toNat with
  | 0x01 => .ok (.sendb a)
  | 0x02 => .ok .enrx
  | 0x03 => .ok .rdblk
  | 0x04 => .ok (.rdto a)
  | 0x05 => .ok (.sndack a b c)
  | 0x06 => .ok (.psend a)
  | 0x07 => .ok (.precv a)
  | 0x08 => .ok .boot
  | _ => .error (.reservedCode opc)

/-- The decoder on an operation word. -/
def decodeWord (w : OpWord) : Except DecodeError Instr :=
  decodeFields (opcField w) (aField w) (bField w) (cField w)

/-- The decoder on bytes, in the order of the registers `OPC`, `ARG_A`, `ARG_B`, `ARG_C` at offsets 0x00 to 0x03
(20_memory.md R66; log 15): one word is four bytes, the rest is handed back. -/
def decodeBytes : List Byte → Except DecodeError (Instr × List Byte)
  | opc :: a :: b :: c :: rest =>
    match decodeFields opc a b c with
    | .ok i => .ok (i, rest)
    | .error e => .error e
  | _ => .error .truncated

/-- The instruction read from a word numbered as spec/opcode_table.json numbers it: 32 bits, laid out as the four register
bytes. A number that is no 32-bit word is refused. -/
def decodeTableWord (nbits w : Nat) : Option Instr :=
  if nbits ≤ 32 ∧ w < 2 ^ 32 then
    match decodeBytes [BitVec.ofNat 8 (w / 2 ^ 24), BitVec.ofNat 8 (w / 2 ^ 16), BitVec.ofNat 8 (w / 2 ^ 8), BitVec.ofNat 8 w] with
    | .ok (i, _) => some i
    | .error _ => none
  else none

/-- The operation code of an operation (R86). -/
def Instr.opcode : Instr → Byte
  | .sendb _ => 0x01
  | .enrx => 0x02
  | .rdblk => 0x03
  | .rdto _ => 0x04
  | .sndack _ _ _ => 0x05
  | .psend _ => 0x06
  | .precv _ => 0x07
  | .boot => 0x08

/-- The encoder: unused operand fields are written 0x00 (30_encoding.md R105; any value would do, R87). -/
def encode : Instr → OpWord
  | .sendb b => opWord 0x01 b 0x00 0x00
  | .enrx => opWord 0x02 0x00 0x00 0x00
  | .rdblk => opWord 0x03 0x00 0x00 0x00
  | .rdto units => opWord 0x04 units 0x00 0x00
  | .sndack byte units expected => opWord 0x05 byte units expected
  | .psend command => opWord 0x06 command 0x00 0x00
  | .precv command => opWord 0x07 command 0x00 0x00
  | .boot => opWord 0x08 0x00 0x00 0x00

end Sys2Proof
end

