-- ==== Sys2Proof/Machine/State.lean ====
section
/-! DEFINITION. The state of the block as plain data (10_state.md), the state after reset, and the reasons a step can stop. -/

namespace Sys2Proof.Machine

/-- `MODE` (10_state.md R26): the link's direction and clock source. -/
inductive LinkMode where
  /-- "input/external clock", encoded 0 -/
  | rxExt
  /-- "output/internal clock", encoded 1 -/
  | txInt
  deriving DecidableEq, Repr

/-- `STATUS.HS` (R34): what the host sees of the handshake. -/
inductive HsSummary where
  /-- 00: no handshake started since reset -/
  | notStarted
  /-- 01: a handshake is in progress -/
  | running
  /-- 10: the last handshake ended in Success -/
  | success
  /-- 11: the last handshake ended in Failure -/
  | failure
  deriving DecidableEq, Repr

/-- A label of the pseudocode of 40_byte_transport.md to 43_boot_handshake.md: one micro-operation, one SEQ step
(00_scope.md R18). A label of a procedure carries the arguments bound at the call and not yet used (R17, log 11). -/
inductive Label where
  -- SENDB, ENRX, RDBLK, RDTO, SNDACK
  | t1 | t2
  | n1 | n2
  | k1 | k2
  | o1 | o2
  | q1 | q2
  -- PSEND
  | p1 | p2 | p3 | p4 | p5 | p6 | p7 | p8 | p9 | p10 | p11 | p12
  -- PRECV
  | v1 | v2 | v3 | v4 | v5 | v6 | v7 | v8 | v9 | v10 | v11 | v12
  -- BOOT
  | h1 | h2 | h3 | h4 | h5 | h6 | h7 | h8 | h9 | h10 | h11 | h12 | h13 | h14 | h15
  -- sendByte(b): R116
  | s1 (b : Byte) | s2 (b : Byte) | s3 | s4
  -- enableReceive(): R118
  | e1 | e2 | e3 | e4
  -- readBlocking(): R135
  | b1 | b2 | b3
  -- readWithTimeout(units): R137
  | w1 (units : Byte) | w2 (units : Byte) | w3 (units : Byte) | w4
  -- sendAndCheckAck(byte, units, expected): R139
  | a1 (byte units expected : Byte) | a2 (units : Byte) | a3
  deriving DecidableEq, Repr

/-- `PH` (R40), the sequencer's control point: `IDLE`, or the label of the next micro-operation with the return points of the
procedures entered and not yet left, innermost first. -/
inductive ControlPoint where
  | idle
  | run (here : Label) (rets : List Label)
  deriving DecidableEq, Repr

/-- One turn of an agent other than IRQ (00_scope.md R18), or a reset (70_reset_and_hazards.md R235). -/
inductive Turn where
  /-- SEQ takes its next micro-operation -/
  | seq
  /-- PEER: `deliver RX(b)` (40_byte_transport.md R121) -/
  | deliver (b : Byte)
  /-- HOST reads the register at an offset (20_memory.md R67) -/
  | read (off : Offset)
  /-- HOST writes the register at an offset; a write of `OPC` issues an operation (R68, R69) -/
  | write (off : Offset) (v : Byte)
  /-- reset (70_reset_and_hazards.md R235, R236) -/
  | reset
  deriving DecidableEq, Repr

/-- Bytes by index, in one canonical form (`Memory.wf`): indices strictly rising, no entry equal to what an unlisted index reads as. -/
abbrev Memory := List Host.Cell

/-- The state: groups (a) to (e) of 10_state.md R20, the ghost traces of R48, and three fields of the model's own. -/
structure State where
  -- (a) Link State
  /-- `IEM` (R21), its bits from `IEM_W` on zero (log 22) -/
  iem : Byte
  /-- `RXF` (R22) -/
  rxf : Bool
  /-- `RXB` (R23) -/
  rxb : Byte
  /-- `IFL` (R24) -/
  ifl : Bool
  /-- `GIE` (R25) -/
  gie : Bool
  /-- `MODE` (R26) -/
  mode : LinkMode
  /-- `SDR` (R27) -/
  sdr : Byte
  -- (b) Receive Buffer
  /-- `RXBUF` (R28), indexed from 0 -/
  rxbuf : Memory
  /-- `RXLEN` (R29) -/
  rxlen : Byte
  -- (c) Transmit Buffer
  /-- `TXBUF` (R30), indexed from 0 -/
  txbuf : Memory
  /-- `TXLEN` (R31) -/
  txlen : Byte
  -- (d) host interface registers
  /-- `OPC` (R32) -/
  opc : Byte
  /-- `ARG_A` (R33) -/
  argA : Byte
  /-- `ARG_B` (R33) -/
  argB : Byte
  /-- `ARG_C` (R33) -/
  argC : Byte
  /-- `STATUS.BUSY`, bit 0 (R34) -/
  busy : Bool
  /-- `STATUS.DONE`, bit 1 (R34) -/
  done : Bool
  /-- `STATUS.RES`, bit 2 (R34) -/
  res : Bool
  /-- `STATUS.ERR`, bit 3 (R34) -/
  err : Bool
  /-- `STATUS.HS`, bits 5:4 (R34) -/
  hs : HsSummary
  -- (e) sequencer registers
  /-- `PH` (R40) -/
  ph : ControlPoint
  /-- `OPL`, `LA`, `LB`, `LC` (R36) -/
  opl : Byte
  la : Byte
  lb : Byte
  lc : Byte
  /-- `ACC` (R37) -/
  acc : Byte
  /-- `CNT`, `IDX`, `EXPV` (R38) -/
  cnt : Byte
  idx : Byte
  expv : Byte
  /-- `PLEN`, `CKS` (R39) -/
  plen : Byte
  cks : Byte
  /-- `SAVED` (R41), as wide as `IEM` -/
  saved : Byte
  /-- `FAILF` (R42) -/
  failf : Bool
  /-- `TU`, `TS` (R43); `TS` is a natural number (log 13) -/
  tu : Byte
  ts : Nat
  /-- `WOK`, `RESV` (R44) -/
  wok : Bool
  resv : Bool
  /-- `EXP` (R45) -/
  expAck : Byte
  -- ghost traces
  /-- `TXLOG` (R48), oldest first -/
  txlog : List Byte
  /-- `RXLOG` (R48), oldest first -/
  rxlog : List Byte
  -- the model's own fields
  /-- how many `any8` draws have been made (log 7) -/
  draws : Nat
  /-- the turns of the agents to come, the next one first (log 1) -/
  agenda : List Turn
  /-- the parameters, changed by no step (R47, log 4) -/
  cfg : Config
  deriving DecidableEq, Repr

/-- The state after reset under given parameters: the values of 10_state.md section 7 and 70_reset_and_hazards.md R235; what the
spec leaves unspecified holds zero (DESIGN CHOICE, log 8 and 9, unsafe). -/
def State.resetWith (c : Config) : State :=
  { iem := 0x00, rxf := false, rxb := 0x00, ifl := false, gie := false, mode := .rxExt, sdr := 0x00
    rxbuf := [], rxlen := 0, txbuf := [], txlen := 0
    opc := 0x00, argA := 0x00, argB := 0x00, argC := 0x00
    busy := false, done := false, res := false, err := false, hs := .notStarted
    ph := .idle, opl := 0x00, la := 0x00, lb := 0x00, lc := 0x00
    acc := 0x00, cnt := 0x00, idx := 0x00, expv := 0x00, plen := 0x00, cks := 0x00
    saved := 0x00, failf := false, tu := 0x00, ts := 0, wok := false, resv := false, expAck := 0x00
    txlog := [], rxlog := [], draws := 0, agenda := [], cfg := c }

/-- The machine right after reset (R235), with the parameters of the block at hand. -/
def State.reset : State := State.resetWith Config.installed

/-- Why the machine stops. The spec's machine never does: each of these is raised only in a state that no run reaches, and is safe
(log 12). -/
inductive Fault where
  /-- PRECV's append (V7) at an index of `RX_CAP` or more, an element 20_memory.md R72 says does not exist. Safe. -/
  | rxIndex
  /-- PSEND's load (P7) at an index of `TX_CAP` or more, an element 20_memory.md R73 says does not exist. Safe. -/
  | txIndex
  /-- SEQ's step at a control point that is no position in the pseudocode of the latched operation (10_state.md R40). Safe. -/
  | badControlPoint
  deriving DecidableEq, Repr

/-- Why a step has no meaning. -/
inductive Refusal where
  /-- an operation `exec` does not model yet; raised by no arm of this model. Safe. -/
  | notModelled (mnemonic : String)
  deriving DecidableEq, Repr

/-- What a step answers. -/
abbrev Result := Host.Outcome State Fault Refusal

end Sys2Proof.Machine
end

