-- ==== Sys2Proof/Machine/Operands.lean ====
section
/-! DEFINITION. The operand forms: the latched operation word, buffer elements, and the checksum arithmetic on bytes. -/

namespace Sys2Proof.Machine

/-- What a byte of a buffer that nothing has written reads as. DESIGN CHOICE (log 9), unsafe: 10_state.md R49 says `any8`. -/
def unlistedByte : Byte := 0x00

/-- The byte at an index. -/
def Memory.read (m : Memory) (a : Nat) : Byte :=
  match m with
  | [] => unlistedByte
  | (k, x) :: rest => if k = a then x else Memory.read rest a

/-- One byte written; the form stays canonical. -/
def Memory.write (m : Memory) (a : Nat) (v : Byte) : Memory :=
  match m with
  | [] => if v = unlistedByte then [] else [(a, v)]
  | (k, x) :: rest =>
    if a < k then (if v = unlistedByte then (k, x) :: rest else (a, v) :: (k, x) :: rest)
    else if a = k then (if v = unlistedByte then rest else (a, v) :: rest)
    else (k, x) :: Memory.write rest a v

/-- The canonical form: indices strictly rising, no entry equal to what an unlisted index reads as. -/
def Memory.wf : Memory → Bool
  | [] => true
  | (k, x) :: rest => x != unlistedByte && rest.all (fun c => decide (k < c.1)) && Memory.wf rest

/-- Every listed index is below a capacity. -/
def Memory.within (cap : Nat) (m : Memory) : Bool := m.all (fun c => decide (c.1 < cap))

/-- The operation in progress: the latched code and operands (10_state.md R36), decoded. -/
def latchedInstr (s : State) : Except DecodeError Instr := decodeFields s.opl s.la s.lb s.lc

/-- The operation a write of `v` to `OPC` would issue: `OPC`, `ARG_A`, `ARG_B`, `ARG_C` sampled at issue (30_encoding.md R85, R88). -/
def offeredInstr (v : Byte) (s : State) : Except DecodeError Instr := decodeFields v s.argA s.argB s.argC

/-- The element `TXBUF[IDX]` (20_memory.md R73). -/
def txElement (s : State) : Byte := s.txbuf.read s.idx.toNat

/-- `neg8(a) = (~a + 1) mod 256`, the two's complement (00_scope.md R15, 30_encoding.md R95). -/
def neg8 (a : Byte) : Byte := ~~~a + 1

/-- The running 8-bit sum of a sequence of bytes (30_encoding.md R95). -/
def byteSum : List Byte → Byte
  | [] => 0
  | b :: bs => b + byteSum bs

/-- The length byte of a send frame, `PLEN = TXLEN + 2` (30_encoding.md R93). -/
def frameLength (txlen : Byte) : Byte := txlen + 2

end Sys2Proof.Machine
end

