-- ==== Sys2Proof/Machine/Flags.lean ====
section
/-! DEFINITION. The flags: the interrupt mask's bits, the dispatch condition, and the bytes `STATUS` and `LSTAT` as the host reads
and writes them. -/

namespace Sys2Proof.Machine

/-- `LINK_ONLY = 1 << LINK_BIT` (00_scope.md R12). -/
def linkOnly (c : Config) : Byte := 1#8 <<< c.linkBit.val

/-- The bits an `IEM_W` bits wide mask has (R12, 10_state.md R21, R41). -/
def maskBits (c : Config) : Byte := BitVec.ofNat 8 (2 ^ c.iemWidth - 1)

/-- "armed": `IEM[LINK_BIT] = 1` (10_state.md R21). -/
def armed (s : State) : Bool := s.iem.getLsbD s.cfg.linkBit.val

/-- The mask with the link's bit set, the others kept ("arm", 92_eei_decisions.md D20). -/
def setLinkBit (c : Config) (m : Byte) : Byte := m ||| linkOnly c

/-- The mask with the link's bit clear, the others kept ("disable the receive interrupt source", D20). -/
def clearLinkBit (c : Config) (m : Byte) : Byte := m &&& ~~~(linkOnly c)

/-- The enabling condition of the IRQ step: `IFL = 1 and IEM[LINK_BIT] = 1 and GIE = 1` (60_exceptions.md R206). -/
def irqEnabled (s : State) : Bool := s.ifl && s.gie && armed s

/-- A flag as the bit of a byte it stands in. -/
def flagBit (f : Bool) (n : Nat) : Byte := if f then 1#8 <<< n else 0

/-- `MODE` as its bit (10_state.md R26). -/
def modeBit : LinkMode → Bool
  | .rxExt => false
  | .txInt => true

/-- `STATUS.HS` as its two bits (R34). -/
def hsBits : HsSummary → Byte
  | .notStarted => 0b00
  | .running => 0b01
  | .success => 0b10
  | .failure => 0b11

/-- The byte `STATUS` (R34): bit 0 BUSY, 1 DONE, 2 RES, 3 ERR, 5:4 HS, 7:6 read as 0. -/
def statusByte (s : State) : Byte :=
  flagBit s.busy 0 ||| flagBit s.done 1 ||| flagBit s.res 2 ||| flagBit s.err 3 ||| hsBits s.hs <<< 4

/-- The byte `LSTAT` (R35): bit 0 RXF, 1 IFL, 2 GIE, 3 MODE, 7:4 zero. -/
def lstatByte (s : State) : Byte :=
  flagBit s.rxf 0 ||| flagBit s.ifl 1 ||| flagBit s.gie 2 ||| flagBit (modeBit s.mode) 3

/-- A HOST write of `IEM` (R21): the bits the mask has; the others read 0 and ignore writes (log 22). -/
def writeMask (v : Byte) (s : State) : State := { s with iem := v &&& maskBits s.cfg }

/-- A HOST write of `LSTAT` (R35): bit 0 to `RXF`, bit 2 to `GIE`, the rest ignored. -/
def writeLstat (v : Byte) (s : State) : State := { s with rxf := v.getLsbD 0, gie := v.getLsbD 2 }

end Sys2Proof.Machine
end

