-- ==== Sys2Proof/Machine/Ops.lean ====
section
/-! DEFINITION. The shared operations: moving the control point, issue and completion, the link, the byte-received interrupt
(the block's one exception), and the host's register space. -/

namespace Sys2Proof.Machine

/-! ### The control point (10_state.md R40) -/

/-- The return points of the procedures entered and not yet left. -/
def ControlPoint.rets : ControlPoint → List Label
  | .idle => []
  | .run _ rets => rets

/-- `goto`, or falling through to the next labelled line. -/
def State.goTo (l : Label) (s : State) : State := { s with ph := .run l s.ph.rets }

/-- `call P(args)`: to the first line of `P`, `back` being the line after the call (00_scope.md R17). -/
def State.call (entry back : Label) (s : State) : State := { s with ph := .run entry (back :: s.ph.rets) }

/-- `ret`: to the line after the call. -/
def ret (s : State) : Result :=
  match s.ph with
  | .run _ (back :: rets) => .next { s with ph := .run back rets }
  | _ => .fault .badControlPoint

/-! ### Issue and completion (30_encoding.md R88, R89) -/

/-- The accepted issue: `OPC`, the latches and `STATUS` written, `PH` at the first micro-operation; `HS` kept (R88). -/
def accept (opc a b c : Byte) (entry : Label) (s : State) : State :=
  { s with opc := opc, opl := opc, la := a, lb := b, lc := c
           busy := true, done := false, res := false, err := false, ph := .run entry [] }

/-- The refused issue: `OPC` written, `BUSY = 0`, `DONE = 1`, `RES = 0`, `ERR = 1`, nothing else (R88, R90). -/
def refuseIssue (opc : Byte) (s : State) : State :=
  { s with opc := opc, busy := false, done := true, res := false, err := true }

/-- `complete(v)`: `BUSY = 0`, `DONE = 1`, `RES = v`, `PH = IDLE` (R89). -/
def complete (v : Bool) (s : State) : State :=
  { s with busy := false, done := true, res := v, ph := .idle }

/-- One atomic step of an operation `i` in state `s` (log 2, 3): while `BUSY = 0` its issue (R88); while `i` is the operation in
progress, the micro-operation at `PH` (R40); while another operation is in progress, nothing: the block runs one operation at a
time and has no queue (R88). -/
def operation (i : Instr) (issue : State → State) (body : Label → State → Result) (s : State) : Result :=
  if s.busy = false then .next (issue s)
  else if latchedInstr s = .ok i then
    match s.ph with
    | .run here _ => body here s
    | .idle => .fault .badControlPoint
  else .next s

/-! ### The link -/

/-- The transmit step S2 of sendByte (40_byte_transport.md R116): one byte on the wire, `SDR` left holding a draw, the pending flag
set when `TX_SETS_PENDING`. -/
def transmit (b : Byte) (s : State) : State :=
  { s with sdr := Config.freeByte s.draws, draws := s.draws + 1, txlog := s.txlog ++ [b]
           ifl := s.ifl || s.cfg.txSetsPending }

/-- PEER's step `deliver RX(b)` (R121), which exists only while `MODE = RX_EXT`; a turn given to PEER otherwise changes nothing
(log 20). -/
def deliver (b : Byte) (s : State) : State :=
  match s.mode with
  | .rxExt => { s with sdr := b, ifl := true, rxlog := s.rxlog ++ [b] }
  | .txInt => s

/-! ### Taking the byte-received interrupt (60_exceptions.md R206, R209, R210) -/

/-- The IRQ step: dispatch acknowledges the pending bit, the handler latches the byte, sets the received-flag and disarms its own
source (R206, 40_byte_transport.md R120). It saves nothing and goes nowhere (R209), and
there is no return operation: `PH` is untouched, so SEQ goes on with the micro-operation it was about to execute (R210). -/
def irqStep (s : State) : State :=
  { s with ifl := false, rxb := s.sdr, rxf := true, iem := clearLinkBit s.cfg s.iem }

/-! ### The interrupt mask around a protocol operation (42_packet_protocol.md R155) -/

/-- "Save current interrupt mask". -/
def saveMask (s : State) : State := { s with saved := s.iem }

/-- "restrict to only the link's interrupt". -/
def restrictMask (s : State) : State := { s with iem := linkOnly s.cfg }

/-- "restore this mask". -/
def restoreMask (s : State) : State := { s with iem := s.saved }

/-! ### The host's register space (20_memory.md R66 to R70) -/

/-- The value a HOST read of an offset returns (R66, R67), `TXBUF` from 0x20 on for `TX_CAP` locations (10_state.md R30); reserved
offsets read 0x00 (R70). -/
def hostRead (off : Offset) (s : State) : Byte :=
  match off.toNat with
  | 0x00 => s.opc
  | 0x01 => s.argA
  | 0x02 => s.argB
  | 0x03 => s.argC
  | 0x04 => statusByte s
  | 0x05 => lstatByte s
  | 0x06 => s.iem
  | 0x07 => s.rxb
  | 0x08 => s.sdr
  | 0x09 => s.rxlen
  | 0x0A => s.txlen
  | n =>
    if 0x10 ≤ n ∧ n < 0x10 + Config.rxCap then s.rxbuf.read (n - 0x10)
    else if 0x20 ≤ n ∧ n < 0x20 + s.cfg.txCap then s.txbuf.read (n - 0x20)
    else 0x00

/-- An idle HOST write of any location but `OPC`: it stores where R66 marks W and is ignored elsewhere (R68 to R70). -/
def hostStore (off : Offset) (v : Byte) (s : State) : State :=
  match off.toNat with
  | 0x01 => { s with argA := v }
  | 0x02 => { s with argB := v }
  | 0x03 => { s with argC := v }
  | 0x05 => writeLstat v s
  | 0x06 => writeMask v s
  | 0x0A => { s with txlen := v }
  | n =>
    if 0x20 ≤ n ∧ n < 0x20 + s.cfg.txCap then { s with txbuf := s.txbuf.write (n - 0x20) v }
    else s

end Sys2Proof.Machine
end

