-- ==== Sys2Proof/Machine/Transport.lean ====
section
/-! DEFINITION. Byte-Level Transport (40_byte_transport.md): the procedures sendByte and enableReceive, the operations SENDB and ENRX. -/

namespace Sys2Proof.Machine

/-- `sendByte(b)` (R116), one line per label. -/
def sendByteStep (l : Label) (s : State) : Result :=
  match l with
  | .s1 b => .next ({ s with mode := .txInt }.goTo (.s2 b))
  | .s2 b => .next ((transmit b s).goTo .s3)
  | .s3 => .next ({ s with mode := .rxExt }.goTo .s4)
  | .s4 => ret { s with ifl := false }
  | _ => .fault .badControlPoint

/-- `enableReceive()` (R118), one line per label. -/
def enableReceiveStep (l : Label) (s : State) : Result :=
  match l with
  | .e1 => .next ({ s with mode := .rxExt }.goTo .e2)
  | .e2 => .next ({ s with iem := setLinkBit s.cfg s.iem }.goTo .e3)
  | .e3 => .next ({ s with ifl := false }.goTo .e4)
  | .e4 => ret { s with gie := true }
  | _ => .fault .badControlPoint

/-- The pseudocode of SENDB (R117). -/
def sendbStep (l : Label) (s : State) : Result :=
  match l with
  | .t1 => .next (s.call (.s1 s.la) .t2)
  | .t2 => .next (complete true s)
  | l => sendByteStep l s

/-- SENDB (R117): transmit `b`. -/
def execSendb (b : Byte) (s : State) : Result :=
  operation (.sendb b) (fun s => accept 0x01 b s.argB s.argC .t1 s) sendbStep s

/-- The pseudocode of ENRX (R119). -/
def enrxStep (l : Label) (s : State) : Result :=
  match l with
  | .n1 => .next (s.call .e1 .n2)
  | .n2 => .next (complete true s)
  | l => enableReceiveStep l s

/-- ENRX (R119): arm the receive interrupt. -/
def execEnrx (s : State) : Result :=
  operation .enrx (fun s => accept 0x02 s.argA s.argB s.argC .n1 s) enrxStep s

end Sys2Proof.Machine
end

