-- ==== Sys2Proof/Machine/Receive.lean ====
section
/-! DEFINITION. Timeout-Bounded Receive (41_timeout_receive.md): the procedures readBlocking, readWithTimeout and sendAndCheckAck,
the operations RDBLK, RDTO and SNDACK. -/

namespace Sys2Proof.Machine

/-- `readBlocking()` (R135): clear the flag, arm, poll without bound. -/
def readBlockingStep (l : Label) (s : State) : Result :=
  match l with
  | .b1 => .next ({ s with rxf := false }.goTo .b2)
  | .b2 => .next (s.call .e1 .b3)
  | .b3 => if s.rxf then ret s else .next (s.goTo .b3)
  | l => enableReceiveStep l s

/-- The poll W4 of `readWithTimeout` (R137): exhausted, arrived, or one sub-iteration spent. -/
def pollStep (s : State) : Result :=
  if s.tu = 0 then ret { s with wok := false }
  else if s.rxf then ret { s with wok := true }
  else if s.ts - 1 = 0 then .next ({ s with tu := s.tu - 1, ts := s.cfg.subPerUnit }.goTo .w4)
  else .next ({ s with ts := s.ts - 1 }.goTo .w4)

/-- `readWithTimeout(units)` (R137): clear the flag, arm, load the counters, poll within the budget. -/
def readWithTimeoutStep (l : Label) (s : State) : Result :=
  match l with
  | .w1 units => .next ({ s with rxf := false }.goTo (.w2 units))
  | .w2 units => .next (s.call .e1 (.w3 units))
  | .w3 units => .next ({ s with tu := units, ts := s.cfg.subPerUnit }.goTo .w4)
  | .w4 => pollStep s
  | l => enableReceiveStep l s

/-- A3 of sendAndCheckAck (R139), where `RXB` is compared only when the wait succeeded, and the lines of the two procedures it calls. -/
def checkAckStep (l : Label) (s : State) : Result :=
  match l with
  | .a3 => ret { s with wok := s.wok && s.rxb == s.expAck }
  | .s1 b => sendByteStep (.s1 b) s
  | .s2 b => sendByteStep (.s2 b) s
  | .s3 => sendByteStep .s3 s
  | .s4 => sendByteStep .s4 s
  | l => readWithTimeoutStep l s

/-- `sendAndCheckAck(byte, units, expected)` (R139): send the byte, wait for the reply, check it. -/
def sendAndCheckAckStep (l : Label) (s : State) : Result :=
  match l with
  | .a1 byte units expected => .next ({ s with expAck := expected }.call (.s1 byte) (.a2 units))
  | .a2 units => .next (s.call (.w1 units) .a3)
  | l => checkAckStep l s

/-- The pseudocode of RDBLK (R136). -/
def rdblkStep (l : Label) (s : State) : Result :=
  match l with
  | .k1 => .next (s.call .b1 .k2)
  | .k2 => .next (complete true s)
  | l => readBlockingStep l s

/-- RDBLK (R136): wait without bound for a byte. -/
def execRdblk (s : State) : Result :=
  operation .rdblk (fun s => accept 0x03 s.argA s.argB s.argC .k1 s) rdblkStep s

/-- The pseudocode of RDTO (R138). -/
def rdtoStep (l : Label) (s : State) : Result :=
  match l with
  | .o1 => .next (s.call (.w1 s.la) .o2)
  | .o2 => .next (complete s.wok s)
  | l => readWithTimeoutStep l s

/-- RDTO (R138): wait at most `units` units for a byte. -/
def execRdto (units : Byte) (s : State) : Result :=
  operation (.rdto units) (fun s => accept 0x04 units s.argB s.argC .o1 s) rdtoStep s

/-- The pseudocode of SNDACK (R141). -/
def sndackStep (l : Label) (s : State) : Result :=
  match l with
  | .q1 => .next (s.call (.a1 s.la s.lb s.lc) .q2)
  | .q2 => .next (complete s.wok s)
  | l => sendAndCheckAckStep l s

/-- SNDACK (R141): send `byte` and check that the reply is `expected`. -/
def execSndack (byte units expected : Byte) (s : State) : Result :=
  operation (.sndack byte units expected) (fun s => accept 0x05 byte units expected .q1 s) sndackStep s

end Sys2Proof.Machine
end

