-- ==== Sys2Proof/Machine/Boot.lean ====
section
/-! DEFINITION. The Boot Handshake (43_boot_handshake.md): the operation BOOT and its state machine as the spec names it. -/

namespace Sys2Proof.Machine

/-- The verdict H15: result, `HS` and completion in one step (R185). -/
def verdict (s : State) : State :=
  complete (!s.failf) { s with resv := !s.failf, hs := if s.failf then .failure else .success }

/-- H11: compare the countdown byte; a mismatch is recorded, and ends the loop only when `HS_STOP_ON_MISMATCH` (R189, R190). -/
def countdownCheck (s : State) : State :=
  if s.rxb = s.expv then s.goTo .h12
  else if s.cfg.hsStopOnMismatch then { s with failf := true }.goTo .h13
  else { s with failf := true }.goTo .h12

/-- The pseudocode of BOOT (R185). -/
def bootStep (l : Label) (s : State) : Result :=
  match l with
  | .h1 => .next ((saveMask s).goTo .h2)
  | .h2 => .next ((restrictMask s).goTo .h3)
  | .h3 => .next ({ s with failf := false, cnt := 0, hs := .running }.goTo .h4)
  | .h4 => .next (s.call (.s1 s.cnt) .h5)
  | .h5 => .next ({ s with cnt := s.cnt + 1 }.goTo (if s.cnt + 1 = 0 then .h6 else .h4))
  | .h6 => .next (s.call .b1 .h7)
  | .h7 => .next ({ s with failf := s.failf || s.rxb != s.cfg.codes.bootOk }.goTo .h8)
  | .h8 => .next (s.call (.s1 s.cfg.codes.bootReq) .h9)
  | .h9 => .next ({ s with expv := 255 }.goTo .h10)
  | .h10 => .next (s.call .b1 .h11)
  | .h11 => .next (countdownCheck s)
  | .h12 => .next ({ s with expv := s.expv - 1 }.goTo (if s.expv - 1 = 255 then .h13 else .h10))
  | .h13 => .next (s.call (.s1 (if s.failf then s.cfg.codes.abort else s.cfg.codes.ok)) .h14)
  | .h14 => .next ((restoreMask s).goTo .h15)
  | .h15 => .next (verdict s)
  | .s1 b => sendByteStep (.s1 b) s
  | .s2 b => sendByteStep (.s2 b) s
  | .s3 => sendByteStep .s3 s
  | .s4 => sendByteStep .s4 s
  | l => readBlockingStep l s

/-- BOOT (R185): the handshake that validates the peripheral's presence. -/
def execBoot (s : State) : Result :=
  operation .boot (fun s => accept 0x08 s.argA s.argB s.argC .h1 s) bootStep s

/-- The outermost of a label and its return points. -/
def rootOf : Label → List Label → Label
  | here, [] => here
  | _, back :: rets => rootOf back rets

/-- The line of the operation's own pseudocode that control is in: `PH` itself, or the line after the outermost call. -/
def rootLabel : ControlPoint → Option Label
  | .idle => none
  | .run here rets => some (rootOf here rets)

/-- The states of the handshake as a finite-state machine (R192). -/
inductive HandshakeState where
  | idle | countUp | waitBootOk | request | countdown | verdict | success | failure
  deriving DecidableEq, Repr

/-- Where the handshake stands (R192): positions of `PH` while BOOT runs (a call is made from the line before the return point),
the last outcome otherwise. -/
def handshakeState (s : State) : HandshakeState :=
  match rootLabel s.ph with
  | some .h3 | some .h4 | some .h5 => .countUp
  | some .h6 | some .h7 => .waitBootOk
  | some .h8 => .request
  | some .h9 => match s.ph with
    | .run .h9 _ => .countdown
    | _ => .request
  | some .h10 | some .h11 | some .h12 => .countdown
  | some .h13 | some .h14 | some .h15 => .verdict
  | _ => match s.hs with
    | .success => .success
    | .failure => .failure
    | _ => .idle

end Sys2Proof.Machine
end

