-- ==== Sys2Proof/Machine/Packet.lean ====
section
/-! DEFINITION. The Packet Protocol Layer (42_packet_protocol.md): the operations PSEND and PRECV. -/

namespace Sys2Proof.Machine

/-- P7: the payload byte is added to the accumulator before it is sent (R156). -/
def sendPayloadByte (s : State) : Result :=
  if s.idx.toNat < s.cfg.txCap then
    .next ({ s with acc := s.acc + txElement s }.call (.a1 (txElement s) Config.tSend s.cfg.codes.ok) .p8)
  else .fault .txIndex

/-- The pseudocode of PSEND (R156). -/
def psendStep (l : Label) (s : State) : Result :=
  match l with
  | .p1 => .next ((saveMask s).goTo .p2)
  | .p2 => .next ((restrictMask s).goTo .p3)
  | .p3 => .next ({ s with plen := frameLength s.txlen, acc := frameLength s.txlen, idx := 0, resv := false }.call
      (.a1 s.la Config.tSend s.cfg.codes.ok) .p4)
  | .p4 => if s.wok then .next (s.call (.a1 s.plen Config.tSend s.cfg.codes.ok) .p5) else .next (s.goTo .p11)
  | .p5 => if s.wok then .next (s.goTo .p6) else .next (s.goTo .p11)
  | .p6 => if s.idx = s.txlen then .next (s.goTo .p9) else .next (s.goTo .p7)
  | .p7 => sendPayloadByte s
  | .p8 => if s.wok then .next ({ s with idx := s.idx + 1 }.goTo .p6) else .next (s.goTo .p11)
  | .p9 => .next ({ s with cks := neg8 s.acc }.call (.a1 (neg8 s.acc) Config.tSend s.cfg.codes.cksumOk) .p10)
  | .p10 => .next ({ s with resv := s.resv || s.wok }.goTo .p11)
  | .p11 => .next ((restoreMask s).goTo .p12)
  | .p12 => .next (complete s.resv s)
  | l => sendAndCheckAckStep l s

/-- The issue of PSEND: refused when `TXLEN > TX_CAP - 2` (R157, 30_encoding.md R88). -/
def issuePsend (command : Byte) (s : State) : State :=
  if s.cfg.txMaxPayload < s.txlen.toNat then refuseIssue 0x06 s
  else accept 0x06 command s.argB s.argC .p1 s

/-- PSEND (R156): send the Transmit Buffer as one frame. -/
def execPsend (command : Byte) (s : State) : Result :=
  operation (.psend command) (issuePsend command) psendStep s

/-- V5: the tests of the length byte, in their order (R159, R160, 60_exceptions.md R216). -/
def checkLength (s : State) : State :=
  if s.wok = false then s.goTo .v10
  else if Config.maxRxLen.toNat < s.rxb.toNat then s.goTo .v10
  else if s.rxb = 0 then s.goTo .v10
  else { s with acc := s.rxb, cnt := s.rxb - 1 }.goTo .v6

/-- The append of V7: the only store into `RXBUF` (20_memory.md R72). -/
def appendByte (s : State) : State :=
  { s with rxbuf := s.rxbuf.write s.rxlen.toNat s.rxb, rxlen := s.rxlen + 1, acc := s.acc + s.rxb, cnt := s.cnt - 1 }

/-- V7: a byte came, or the wait timed out inside the frame (R159). -/
def frameByte (s : State) : Result :=
  if s.wok then
    if s.rxlen.toNat < Config.rxCap then .next ((appendByte s).goTo .v6) else .fault .rxIndex
  else .next (s.goTo .v8)

/-- The pseudocode of PRECV (R159). -/
def precvStep (l : Label) (s : State) : Result :=
  match l with
  | .v1 => .next ((saveMask s).goTo .v2)
  | .v2 => .next ((restrictMask s).goTo .v3)
  | .v3 => .next ({ s with rxlen := 0, resv := false }.call (.s1 s.la) .v4)
  | .v4 => .next (s.call (.w1 Config.tRecv) .v5)
  | .v5 => .next (checkLength s)
  | .v6 => if s.cnt = 0 then .next (s.goTo .v9) else .next (s.call (.w1 Config.tRecv) .v7)
  | .v7 => frameByte s
  | .v8 => .next ({ s with acc := Config.sentinel }.goTo .v9)
  | .v9 => .next ({ s with resv := s.resv || s.acc == 0 }.goTo .v10)
  | .v10 => .next (s.call (.s1 (if s.resv then s.cfg.codes.ok else s.cfg.codes.abort)) .v11)
  | .v11 => .next ((restoreMask s).goTo .v12)
  | .v12 => .next (complete s.resv s)
  | .s1 b => sendByteStep (.s1 b) s
  | .s2 b => sendByteStep (.s2 b) s
  | .s3 => sendByteStep .s3 s
  | .s4 => sendByteStep .s4 s
  | l => readWithTimeoutStep l s

/-- PRECV (R159): send the command and receive one frame. -/
def execPrecv (command : Byte) (s : State) : Result :=
  operation (.precv command) (fun s => accept 0x07 command s.argB s.argC .v1 s) precvStep s

end Sys2Proof.Machine
end

