-- ==== Sys2Proof/Machine/Dispatch.lean ====
section
/-! DEFINITION. One arm per operation (30_encoding.md R86). -/

namespace Sys2Proof.Machine

def exec (i : Instr) (s : State) : Host.Outcome State Fault Refusal :=
  match i with
  | .sendb b => Sys2Proof.Machine.execSendb b s
  | .enrx => Sys2Proof.Machine.execEnrx s
  | .rdblk => Sys2Proof.Machine.execRdblk s
  | .rdto units => Sys2Proof.Machine.execRdto units s
  | .sndack byte units expected => Sys2Proof.Machine.execSndack byte units expected s
  | .psend command => Sys2Proof.Machine.execPsend command s
  | .precv command => Sys2Proof.Machine.execPrecv command s
  | .boot => Sys2Proof.Machine.execBoot s

end Sys2Proof.Machine
end

