-- ==== Sys2Proof/Machine/Agents.lean ====
section
/-! DEFINITION. The turns of the agents (00_scope.md R18): SEQ, HOST, PEER, reset, and which of them or IRQ goes next. -/

namespace Sys2Proof.Machine

/-- SEQ's turn: it has a step exactly when `PH ≠ IDLE` (10_state.md R40), and then runs one micro-operation of the latched
operation; otherwise nothing changes (log 20). -/
def seqTurn (s : State) : Result :=
  match s.ph with
  | .idle => .next s
  | .run _ _ =>
    match latchedInstr s with
    | .ok i => exec i s
    | .error _ => .fault .badControlPoint

/-- A HOST write of `v` to `OPC` while idle: the operation word is decoded and the operation issued; a reserved code is refused
(30_encoding.md R88, R90). -/
def issue (v : Byte) (s : State) : Result :=
  match offeredInstr v s with
  | .ok i => exec i s
  | .error _ => .next (refuseIssue v s)

/-- A HOST write (20_memory.md R68, R69): ignored while `BUSY = 1`; to `OPC`, an issue; elsewhere, a store. -/
def hostWrite (off : Offset) (v : Byte) (s : State) : Result :=
  if s.busy then .next s
  else if off = 0 then issue v s
  else .next (hostStore off v s)

/-- Reset (70_reset_and_hazards.md R235, R236): the reset values; the parameters, the draws already made and the turns to come are
no part of the block and stay (log 10). -/
def resetTurn (s : State) : State := { State.resetWith s.cfg with draws := s.draws, agenda := s.agenda }

/-- A turn of an agent other than IRQ. -/
def turn (e : Turn) (s : State) : Result :=
  match e with
  | .seq => seqTurn s
  | .deliver b => .next (deliver b s)
  | .read _ => .next s
  | .write off v => hostWrite off v s
  | .reset => .next (resetTurn s)

/-- One atomic step of the machine: reset may fall at any step boundary (R235); otherwise the IRQ step goes first whenever it is
enabled (60_exceptions.md R207); otherwise the agent the agenda names, and with nothing on the agenda SEQ goes on alone (log 1, 21). -/
def agentStep (s : State) : Result :=
  match s.agenda with
  | [] => if irqEnabled s then .next (irqStep s) else seqTurn s
  | .reset :: rest => turn .reset { s with agenda := rest }
  | e :: rest => if irqEnabled s then .next (irqStep s) else turn e { s with agenda := rest }

/-- A state in which the very next step is the issue of the 32-bit operation word `w` (log 14): the block idle and able to take it,
the operands in the `ARG` registers, the write of `OPC` first on the agenda. -/
def withOpWord (w : OpWord) (s : State) : State :=
  { s with argA := aField w, argB := bField w, argC := cField w
           busy := false, ph := .idle, ifl := s.ifl && !irqEnabled s
           agenda := .write 0x00 (opcField w) :: s.agenda }

end Sys2Proof.Machine
end

