-- ==== Sys2Proof/Machine/Step.lean ====
section
/-! DEFINITION. The step of the machine, a run of steps, and the state in which a given instruction runs next. -/

namespace Sys2Proof.Machine

/-- One atomic step of one agent (00_scope.md R18). -/
def step (s : State) : Host.Outcome State Fault Refusal := agentStep s

/-- `n` steps, stopping at the first that has no next state. -/
def stepN : Nat → State → Host.Outcome State Fault Refusal
  | 0, s => .next s
  | n + 1, s =>
    match step s with
    | .next t => stepN n t
    | .fault r => .fault r
    | .refused r => .refused r

/-- `s` with the operation word `w` set up so that the very next step issues it (log 14). -/
def State.withFetchWord (s : State) (nbits w : Nat) : State := withOpWord (BitVec.ofNat 32 (w % 2 ^ nbits)) s

end Sys2Proof.Machine
end

