-- ==== Sys2Proof/Machine/Causes.lean ====
section
/-! DEFINITION. The failure causes (60_exceptions.md R214): labels for claims, computed from the state and stored nowhere (log 17). -/

namespace Sys2Proof.Machine

/-- The seven causes of R214; the last three are the spec's own. -/
inductive Cause where
  | timeout | nackMismatch | checksumInvalid | overlengthPayload | zeroLength | txOverlength | illegalOp
  deriving DecidableEq, Repr

/-- The cause a failed acknowledgement raises where `WOK` is tested after sendAndCheckAck: Timeout when the wait returned false, which it
does exactly with `TU = 0` (41_timeout_receive.md R137), NackMismatch when the wait succeeded and the byte was not the expected one. `TU`
keeps its value from the wait to the test, where A3 has merged the two in `WOK` and a late byte may have changed `RXF` and `RXB`. -/
def ackCause (s : State) : Option Cause :=
  if s.wok then none else if s.tu = 0 then some .timeout else some .nackMismatch

/-- The cause the micro-operation at `PH` raises, if it is a test that fails (the table of R214). V8 is where R216 puts the trace label of a
timeout inside a frame, which V7 raises; V9 then raises ChecksumInvalid too, the forced `0xFF` included. -/
def seqCause (s : State) : Option Cause :=
  match s.ph with
  | .run .o2 _ => if s.wok then none else some .timeout
  | .run .q2 _ | .run .p4 _ | .run .p5 _ | .run .p8 _ | .run .p10 _ => ackCause s
  | .run .v5 _ =>
    if s.wok = false then some .timeout
    else if Config.maxRxLen.toNat < s.rxb.toNat then some .overlengthPayload
    else if s.rxb = 0 then some .zeroLength
    else none
  | .run .v7 _ => if s.wok then none else some .timeout
  | .run .v8 _ => some .timeout
  | .run .v9 _ => if s.acc = 0 then none else some .checksumInvalid
  | .run .h7 _ => if s.rxb = s.cfg.codes.bootOk then none else some .nackMismatch
  | .run .h11 _ => if s.rxb = s.expv then none else some .nackMismatch
  | _ => none

/-- The cause an operation reports, from the states before its steps in their order: that of the first test that fails (R216), so that after
a timeout inside a frame the ChecksumInvalid of V9 is "only the mechanism". -/
def reportedCause (run : List State) : Option Cause := run.findSome? seqCause

/-- The cause of a refused issue of the code `v` while idle (R214). -/
def issueCause (v : Byte) (s : State) : Option Cause :=
  if validOpcode v = false then some .illegalOp
  else if v = 0x06 ∧ s.cfg.txMaxPayload < s.txlen.toNat then some .txOverlength
  else none

end Sys2Proof.Machine
end

