-- ==== Sys2Proof/Machine/HostScript.lean ====
section
/-! DEFINITION. The host's routines (30_encoding.md R105, R106) as turns, and the turns of a well-timed exchange
(70_reset_and_hazards.md R250). None of them is known to the block. -/

namespace Sys2Proof.Machine

/-- An operation line of R105 without its `WAIT`: write the `ARG` registers, then `OPC`. -/
def hostIssue (i : Instr) : List Turn :=
  [.write 0x01 (aField (encode i)), .write 0x02 (bField (encode i)), .write 0x03 (cField (encode i)),
   .write 0x00 (opcField (encode i))]

/-- `KBD.POLL` and `RTC.GET` (R106): PRECV with the collaborator's command code. -/
def receiveRoutine (command : Byte) : List Turn := hostIssue (.precv command)

/-- The writes that fill `TXBUF` from an offset on (R106 `RTC.SET`, 70_reset_and_hazards.md R239). -/
def fillTx (off : Offset) : List Byte → List Turn
  | [] => []
  | b :: bs => .write off b :: fillTx (off + 1) bs

/-- `RTC.SET` (R106): fill `TXBUF`, write `TXLEN`, issue PSEND with the collaborator's command code. -/
def sendRoutine (command : Byte) (payload : List Byte) : List Turn :=
  fillTx 0x20 payload ++ [.write 0x0A (BitVec.ofNat 8 payload.length)] ++ hostIssue (.psend command)

/-- One round of `BOOT.RETRY` (R106): after a completed handshake, issue BOOT again unless it succeeded. -/
def retryRoutine (s : State) : List Turn := if s.done && s.res then [] else hostIssue .boot

/-- `n` turns of SEQ. -/
def seqTurns (n : Nat) : List Turn := List.replicate n .seq

/-- A well-timed wait from its first line (W1 or B1) to its return: six lines to E4 with the poll's load, the peer's byte after
E4, and the poll that sees it (R250, case (g) of R241). `load` is 1 for a timed wait (its line W3), 0 for a blocking one. -/
def waitTurns (load : Nat) (b : Byte) : List Turn := seqTurns 6 ++ [.deliver b] ++ seqTurns (load + 1)

/-- A well-timed sendAndCheckAck from A1 to A3 (41_timeout_receive.md R139): A1, S1 to S4, A2, the wait, A3. -/
def ackTurns (reply : Byte) : List Turn := seqTurns 6 ++ waitTurns 1 reply ++ seqTurns 1

/-- PSEND's payload loop (R156): P6, P7, the acknowledged byte, P8, once per reply. -/
def payloadTurns : List Byte → List Turn
  | [] => []
  | reply :: replies => seqTurns 2 ++ ackTurns reply ++ seqTurns 1 ++ payloadTurns replies

/-- A whole PSEND of `n` payload bytes with a peer that acknowledges correctly and in time (30_encoding.md R98): P1 to P3, the
command, P4, the length, P5, the payload, P6, P9, the checksum, P10 to P12. -/
def psendTurns (codes : Codes) (n : Nat) : List Turn :=
  seqTurns 3 ++ ackTurns codes.ok ++ seqTurns 1 ++ ackTurns codes.ok ++ seqTurns 1 ++
    payloadTurns (List.replicate n codes.ok) ++ seqTurns 2 ++ ackTurns codes.cksumOk ++ seqTurns 3

/-- PRECV's loop (R159): V6, the wait, V7, once per byte after the length byte. -/
def frameTurns : List Byte → List Turn
  | [] => []
  | b :: bs => seqTurns 1 ++ waitTurns 1 b ++ seqTurns 1 ++ frameTurns bs

/-- A whole PRECV of the frame `len :: bytes` from a well-timed peer (R99): V1 to V3, the command, V4, the length byte, V5, the
bytes, V6, V9, V10, the verdict byte, V11, V12. -/
def precvTurns (len : Byte) (bytes : List Byte) : List Turn :=
  seqTurns 8 ++ waitTurns 1 len ++ seqTurns 1 ++ frameTurns bytes ++ seqTurns 9

/-- BOOT's countdown loop (43_boot_handshake.md R189): H10, the wait, H11, H12, once per byte. -/
def countdownTurns : List Byte → List Turn
  | [] => []
  | b :: bs => seqTurns 1 ++ waitTurns 0 b ++ seqTurns 2 ++ countdownTurns bs

/-- BOOT from H1 to H9 with a well-timed boot reply (R185 to R188): H1 to H3, 256 times H4, S1 to S4, H5, then H6, the wait, H7, H8,
the request byte, H9. -/
def bootOpeningTurns (reply : Byte) : List Turn :=
  seqTurns 3 ++ seqTurns (6 * Config.hsCount) ++ seqTurns 1 ++ waitTurns 0 reply ++ seqTurns 7

/-- BOOT's closing lines (R191): H13, the verdict byte, H14, H15. -/
def bootClosingTurns : List Turn := seqTurns 7

/-- The count-up 0, 1, ..., 255 (30_encoding.md R107). -/
def countUpBytes : List Byte := (List.range Config.hsCount).map (fun k => BitVec.ofNat 8 k)

/-- The countdown 255, 254, ..., 0 (30_encoding.md R107). -/
def countdownBytes : List Byte := (List.range Config.hsCount).map (fun k => BitVec.ofNat 8 (255 - k))

/-- The payload PSEND sends: `TXBUF[0]` to `TXBUF[TXLEN - 1]` (30_encoding.md R93). -/
def payloadOf (s : State) : List Byte := (List.range s.txlen.toNat).map (fun k => s.txbuf.read k)

end Sys2Proof.Machine
end

