-- ==== Sys2Proof/Safety.lean ====
section
/-! DEFINITION. What a sound state of the block is, and what a run is: the terms the statements use. -/

namespace Sys2Proof.Machine

/-- `t` is a state the machine comes to from `s` by finitely many steps. -/
def Reaches (s t : State) : Prop := ∃ n, stepN n s = .next t

/-- `i` is the operation in progress: issued, not completed, latched as it was issued. -/
def InProgress (i : Instr) (s : State) : Prop := s.busy = true ∧ latchedInstr s = .ok i

/-- `s` with control at the line `here` and the return points `rets`. -/
def atLine (here : Label) (rets : List Label) (s : State) : State := { s with ph := .run here rets }

/-- The first micro-operation of an operation (30_encoding.md R88). -/
def firstLabel : Instr → Label
  | .sendb _ => .t1
  | .enrx => .n1
  | .rdblk => .k1
  | .rdto _ => .o1
  | .sndack _ _ _ => .q1
  | .psend _ => .p1
  | .precv _ => .v1
  | .boot => .h1

/-- The operations whose pseudocode calls sendByte. -/
def callsSendByte : Instr → Bool
  | .sendb _ | .sndack _ _ _ | .psend _ | .precv _ | .boot => true
  | .enrx | .rdblk | .rdto _ => false

/-- The operations whose pseudocode calls enableReceive. -/
def callsEnableReceive : Instr → Bool
  | .sendb _ => false
  | .enrx | .rdblk | .rdto _ | .sndack _ _ _ | .psend _ | .precv _ | .boot => true

/-- The operations whose pseudocode calls readBlocking. -/
def callsReadBlocking : Instr → Bool
  | .rdblk | .boot => true
  | .sendb _ | .enrx | .rdto _ | .sndack _ _ _ | .psend _ | .precv _ => false

/-- The operations whose pseudocode calls readWithTimeout. -/
def callsReadWithTimeout : Instr → Bool
  | .rdto _ | .sndack _ _ _ | .psend _ | .precv _ => true
  | .sendb _ | .enrx | .rdblk | .boot => false

/-- The operations whose pseudocode calls sendAndCheckAck. -/
def callsSendAndCheckAck : Instr → Bool
  | .sndack _ _ _ | .psend _ => true
  | .sendb _ | .enrx | .rdblk | .rdto _ | .precv _ | .boot => false

/-- The turns of the agenda that can put a byte on the wire to the block or end an operation: a delivery or a reset. -/
def Turn.disturbs : Turn → Bool
  | .deliver _ | .reset => true
  | .seq | .read _ | .write _ _ => false

/-- The procedures of 40_byte_transport.md and 41_timeout_receive.md. -/
inductive Procedure where
  | sendByte | enableReceive | readBlocking | readWithTimeout | sendAndCheckAck
  deriving DecidableEq, Repr

/-- The procedure a label belongs to, if it is a line of one other than A1 and A2. -/
def Label.otherProcedure : Label → Option Procedure
  | .s1 _ | .s2 _ | .s3 | .s4 => some .sendByte
  | .e1 | .e2 | .e3 | .e4 => some .enableReceive
  | .b1 | .b2 | .b3 => some .readBlocking
  | .w1 _ | .w2 _ | .w3 _ | .w4 => some .readWithTimeout
  | .a3 => some .sendAndCheckAck
  | _ => none

/-- The procedure a label belongs to, if it is a line of one. -/
def Label.procedure : Label → Option Procedure
  | .a1 _ _ _ | .a2 _ => some .sendAndCheckAck
  | l => l.otherProcedure

/-- The operation code of the operation a label belongs to, if it is a line of one. -/
def Label.operation : Label → Option Byte
  | .t1 | .t2 => some 0x01
  | .n1 | .n2 => some 0x02
  | .k1 | .k2 => some 0x03
  | .o1 | .o2 => some 0x04
  | .q1 | .q2 => some 0x05
  | .p1 | .p2 | .p3 | .p4 | .p5 | .p6 | .p7 | .p8 | .p9 | .p10 | .p11 | .p12 => some 0x06
  | .v1 | .v2 | .v3 | .v4 | .v5 | .v6 | .v7 | .v8 | .v9 | .v10 | .v11 | .v12 => some 0x07
  | .h1 | .h2 | .h3 | .h4 | .h5 | .h6 | .h7 | .h8 | .h9 | .h10 | .h11 | .h12 | .h13 | .h14 | .h15 => some 0x08
  | _ => none

/-- The lines that follow a call of a procedure in the pseudocode. -/
def returnsTo : Procedure → Label → Bool
  | .sendByte, .t2 | .sendByte, .a2 _ | .sendByte, .v4 | .sendByte, .v11 => true
  | .sendByte, .h5 | .sendByte, .h9 | .sendByte, .h14 => true
  | .enableReceive, .n2 | .enableReceive, .b3 | .enableReceive, .w3 _ => true
  | .readBlocking, .k2 | .readBlocking, .h7 | .readBlocking, .h11 => true
  | .readWithTimeout, .o2 | .readWithTimeout, .a3 | .readWithTimeout, .v5 | .readWithTimeout, .v7 => true
  | .sendAndCheckAck, .q2 | .sendAndCheckAck, .p4 | .sendAndCheckAck, .p5 | .sendAndCheckAck, .p8
  | .sendAndCheckAck, .p10 => true
  | _, _ => false

/-- A position in the pseudocode of the operation with code `opl` (10_state.md R40): a line of the operation itself with no return
point, or a line of a procedure whose return point follows a call of it and is itself such a position. -/
def positionOf (opl : Byte) : Label → List Label → Bool
  | here, [] => here.operation == some opl
  | here, back :: rets =>
    match here.procedure with
    | some p => returnsTo p back && positionOf opl back rets
    | none => false

/-- The mask is restricted (42_packet_protocol.md R155): control is between the restrict and the restore of a protocol operation. -/
def restricted (root : Label) : Bool :=
  match root with
  | .p3 | .p4 | .p5 | .p6 | .p7 | .p8 | .p9 | .p10 | .p11 => true
  | .v3 | .v4 | .v5 | .v6 | .v7 | .v8 | .v9 | .v10 | .v11 => true
  | .h3 | .h4 | .h5 | .h6 | .h7 | .h8 | .h9 | .h10 | .h11 | .h12 | .h13 | .h14 => true
  | _ => false

/-- What the working registers of PSEND and PRECV satisfy at each line of theirs (20_memory.md R72, R73): the indices stay inside
the buffers. -/
def indicesBounded (root : Label) (s : State) : Bool :=
  match root with
  | .p4 | .p5 | .p6 => decide (s.idx.toNat ≤ s.txlen.toNat)
  | .p7 | .p8 => decide (s.idx.toNat < s.txlen.toNat)
  | .v4 | .v5 => decide (s.rxlen = 0)
  | .v6 => decide (s.rxlen.toNat + s.cnt.toNat ≤ 13)
  | .v7 => decide (s.rxlen.toNat + s.cnt.toNat ≤ 13) && decide (s.cnt ≠ 0)
  | _ => true

/-- Control in the pseudocode agrees with the registers that steer it. -/
structure ControlInv (s : State) : Prop where
  /-- `BUSY` is 1 exactly while SEQ has a step (R88, R89, 10_state.md R34, R40) -/
  busy_iff : s.busy = true ↔ s.ph ≠ .idle
  /-- `PH` is a position in the pseudocode of the latched operation -/
  position : ∀ here rets, s.ph = .run here rets → validOpcode s.opl = true ∧ positionOf s.opl here rets = true
  /-- PSEND runs only on a payload that fits a frame (42_packet_protocol.md R157) -/
  send_length : s.busy = true → s.opl = 0x06 → s.txlen.toNat ≤ s.cfg.txMaxPayload
  /-- the buffer indices stay inside the buffers -/
  indices : ∀ root, rootLabel s.ph = some root → indicesBounded root s = true

/-- The buffers are in canonical form, inside their capacity, and `RXLEN ≤ 13` (10_state.md R46 (i), 20_memory.md R72). -/
structure BufferInv (s : State) : Prop where
  rx_wf : s.rxbuf.wf = true
  rx_within : s.rxbuf.within Config.rxCap = true
  tx_wf : s.txbuf.wf = true
  tx_within : s.txbuf.within s.cfg.txCap = true
  rx_length : s.rxlen.toNat ≤ 13

/-- The link's own invariants. -/
structure LinkInv (s : State) : Prop where
  /-- the link is in output mode only inside sendByte, from S1 to S3 (40_byte_transport.md R116) -/
  output_only_in_send : s.mode = .txInt → ∃ here rets, s.ph = .run here rets ∧ ((∃ b, here = .s2 b) ∨ here = .s3)
  /-- inside a protocol operation no other interrupt source is enabled (42_packet_protocol.md R155) -/
  mask_restricted : ∀ root, rootLabel s.ph = some root → restricted root = true → s.iem &&& ~~~(linkOnly s.cfg) = 0

/-- `IEM` and `SAVED` are `IEM_W` bits wide (00_scope.md R12, 10_state.md R21, R41). -/
structure MaskInv (s : State) : Prop where
  iem_width : s.iem &&& ~~~(maskBits s.cfg) = 0
  saved_width : s.saved &&& ~~~(maskBits s.cfg) = 0

/-- The invariant of the machine. -/
structure Inv (s : State) : Prop where
  cfg_wf : s.cfg.wf = true
  control : ControlInv s
  buffers : BufferInv s
  link : LinkInv s
  mask : MaskInv s

end Sys2Proof.Machine
end

