-- ==== Sys2Proof/Certificates/Slice0/Obligations.lean ====
section
/-! DEFINITION. The statements for the provers. Each docstring names the rule of spec/ the statement formalises; the numbers of the log
are those of notes/assumptions/. -/

open Sys2Proof Sys2Proof.Machine

/-! ### Encoding -/

/-- Decoding the encoding of an operation gives it back, for every operation and every operand value (30_encoding.md R85, R105). -/
def Obligations.EncodeThenDecodeGivesInstr : Prop :=
  ∀ i : Instr, i.wf = true → decodeWord (encode i) = .ok i

/-- 30_encoding.md R86: the eight codes with the operands they use, and the code alone decides whether a word is an operation. -/
def Obligations.OperationCodesDecode : Prop :=
  (∀ a b c : Byte,
    decodeWord (opWord 0x01 a b c) = .ok (.sendb a) ∧
    decodeWord (opWord 0x02 a b c) = .ok .enrx ∧
    decodeWord (opWord 0x03 a b c) = .ok .rdblk ∧
    decodeWord (opWord 0x04 a b c) = .ok (.rdto a) ∧
    decodeWord (opWord 0x05 a b c) = .ok (.sndack a b c) ∧
    decodeWord (opWord 0x06 a b c) = .ok (.psend a) ∧
    decodeWord (opWord 0x07 a b c) = .ok (.precv a) ∧
    decodeWord (opWord 0x08 a b c) = .ok .boot) ∧
  (∀ w : OpWord, (∃ i, decodeWord w = .ok i) ↔ 1 ≤ (w >>> 24).toNat ∧ (w >>> 24).toNat ≤ 8) ∧
  (∀ w w' : OpWord, w >>> 24 = w' >>> 24 → ((∃ i, decodeWord w = .ok i) ↔ ∃ i, decodeWord w' = .ok i))

/-- Operation words written out bit by bit from 30_encoding.md R85 and R86 (one per family) decode to what they stand for. -/
def Obligations.WrittenWordsDecode : Prop :=
  decodeTableWord 32 0b00000001010000010000000000000000 = some (.sendb 0x41) ∧
  decodeTableWord 32 0b00000010000000000000000000000000 = some .enrx ∧
  decodeTableWord 32 0b00000100011001000000000000000000 = some (.rdto 100) ∧
  decodeTableWord 32 0b00000101000010101100100000000001 = some (.sndack 0x0A 200 0x01) ∧
  decodeTableWord 32 0b00000110000010110000000000000000 = some (.psend 0x0B) ∧
  decodeTableWord 32 0b00001000000000000000000000000000 = some .boot ∧
  decodeTableWord 32 0b00000000000000000000000000000000 = none ∧
  decodeTableWord 32 0b00001001000000000000000000000000 = none

/-! ### Issue, the step and the decoded operation -/

/-- A write of `OPC` while idle, the next turn and no interrupt enabled: the step decodes the operation word and runs `exec` of it. -/
def Obligations.StepIssuesDecodedOperation : Prop :=
  ∀ (s : State) (v : Byte) (rest : List Turn) (i : Instr),
    irqEnabled s = false → s.busy = false → s.agenda = .write 0x00 v :: rest →
    decodeWord (opWord v s.argA s.argB s.argC) = .ok i →
    step s = exec i { s with agenda := rest }

/-- SEQ's turn while an operation is in progress and no interrupt is enabled: the step runs `exec` of the operation decoded from the
latches, one micro-operation at `PH`; with an empty agenda SEQ goes on alone (log 1, 2, 21). -/
def Obligations.StepRunsLatchedOperation : Prop :=
  ∀ (s : State) (here : Label) (rets : List Label) (i : Instr),
    irqEnabled s = false → s.ph = .run here rets → decodeWord (opWord s.opl s.la s.lb s.lc) = .ok i →
    (∀ rest, s.agenda = .seq :: rest → step s = exec i { s with agenda := rest }) ∧
    (s.agenda = [] → step s = exec i s)

/-- 30_encoding.md R88: the accepted issue, the refused issue, and the issue ignored while `BUSY = 1`. -/
def Obligations.IssueRule : Prop :=
  ∀ (s : State) (v : Byte),
    (s.busy = false → (v.toNat = 0 ∨ 9 ≤ v.toNat ∨ (v = 0x06 ∧ s.cfg.txCap - 2 < s.txlen.toNat)) →
      hostWrite 0x00 v s = .next { s with opc := v, busy := false, done := true, res := false, err := true }) ∧
    (∀ i, s.busy = false → decodeWord (opWord v s.argA s.argB s.argC) = .ok i → ¬(v = 0x06 ∧ s.cfg.txCap - 2 < s.txlen.toNat) →
      hostWrite 0x00 v s = .next
        { s with opc := v, opl := v, la := s.argA, lb := s.argB, lc := s.argC
                 busy := true, done := false, res := false, err := false, ph := .run (firstLabel i) [] }) ∧
    (s.busy = true → hostWrite 0x00 v s = .next s)

/-- 42_packet_protocol.md R157: PSEND issued with `TXLEN` above `TX_CAP - 2` is refused, nothing is sent, `IEM` is not touched. -/
def Obligations.PsendOverlengthRefused : Prop :=
  ∀ (s : State) (command : Byte), s.busy = false → s.cfg.txCap - 2 < s.txlen.toNat →
    exec (.psend command) s = .next { s with opc := 0x06, busy := false, done := true, res := false, err := true }

/-- 30_encoding.md R90: a reserved code is refused, no byte goes on the wire, no link state changes. -/
def Obligations.ReservedCodeRefused : Prop :=
  ∀ (s : State) (opc a b c : Byte) (rest : List Turn),
    opc.toNat = 0 ∨ 9 ≤ opc.toNat →
    decodeFields opc a b c = .error (.reservedCode opc) ∧
    (irqEnabled s = false → s.busy = false → s.agenda = .write 0x00 opc :: rest →
      step s = .next { s with agenda := rest, opc := opc, busy := false, done := true, res := false, err := true })

/-- The issue of each operation while idle answers a next state: the code latched, `BUSY` set, control at the first line (30_encoding.md
R88). That exec of an operation given with operands of its own latches those, whatever the `ARG` registers hold, and the `ARG` registers
only for the operands the operation does not use, is the model's choice (log 3); on a host write of `OPC` the two agree, and IssueRule
states the latching of `ARG_A`, `ARG_B`, `ARG_C` that R88 gives. -/
def Obligations.IssueAnswersNext : Prop :=
  ∀ (s : State) (x y z : Byte), s.busy = false →
    exec (.sendb x) s = .next
      { s with opc := 0x01, opl := 0x01, la := x, lb := s.argB, lc := s.argC
               busy := true, done := false, res := false, err := false, ph := .run .t1 [] } ∧
    exec .enrx s = .next
      { s with opc := 0x02, opl := 0x02, la := s.argA, lb := s.argB, lc := s.argC
               busy := true, done := false, res := false, err := false, ph := .run .n1 [] } ∧
    exec .rdblk s = .next
      { s with opc := 0x03, opl := 0x03, la := s.argA, lb := s.argB, lc := s.argC
               busy := true, done := false, res := false, err := false, ph := .run .k1 [] } ∧
    exec (.rdto x) s = .next
      { s with opc := 0x04, opl := 0x04, la := x, lb := s.argB, lc := s.argC
               busy := true, done := false, res := false, err := false, ph := .run .o1 [] } ∧
    exec (.sndack x y z) s = .next
      { s with opc := 0x05, opl := 0x05, la := x, lb := y, lc := z
               busy := true, done := false, res := false, err := false, ph := .run .q1 [] } ∧
    (s.txlen.toNat ≤ s.cfg.txCap - 2 → exec (.psend x) s = .next
      { s with opc := 0x06, opl := 0x06, la := x, lb := s.argB, lc := s.argC
               busy := true, done := false, res := false, err := false, ph := .run .p1 [] }) ∧
    exec (.precv x) s = .next
      { s with opc := 0x07, opl := 0x07, la := x, lb := s.argB, lc := s.argC
               busy := true, done := false, res := false, err := false, ph := .run .v1 [] } ∧
    exec .boot s = .next
      { s with opc := 0x08, opl := 0x08, la := s.argA, lb := s.argB, lc := s.argC
               busy := true, done := false, res := false, err := false, ph := .run .h1 [] }

/-! ### The lines of the procedures and operations: what each atomic step of an operation answers -/

/-- The lines of sendByte (40_byte_transport.md R116), in every operation that calls it; the byte `SDR` holds after S2 is free (log 7). -/
def Obligations.SendByteLines : Prop :=
  ∀ (i : Instr) (s : State) (b : Byte) (back : Label) (rets : List Label), callsSendByte i = true → InProgress i s →
    exec i (atLine (.s1 b) rets s) = .next { s with mode := .txInt, ph := .run (.s2 b) rets } ∧
    exec i (atLine (.s2 b) rets s) = .next
      { s with sdr := Config.freeByte s.draws, draws := s.draws + 1, txlog := s.txlog ++ [b]
               ifl := (s.ifl || s.cfg.txSetsPending), ph := .run .s3 rets } ∧
    exec i (atLine .s3 rets s) = .next { s with mode := .rxExt, ph := .run .s4 rets } ∧
    exec i (atLine .s4 (back :: rets) s) = .next { s with ifl := false, ph := .run back rets }

/-- The lines of enableReceive (R118), in every operation that calls it: the link's bit of `IEM` set and the others kept. -/
def Obligations.EnableReceiveLines : Prop :=
  ∀ (i : Instr) (s : State) (back : Label) (rets : List Label), callsEnableReceive i = true → InProgress i s →
    exec i (atLine .e1 rets s) = .next { s with mode := .rxExt, ph := .run .e2 rets } ∧
    (∃ m : Byte, exec i (atLine .e2 rets s) = .next { s with iem := m, ph := .run .e3 rets } ∧
      ∀ k : Nat, k < 8 → m.getLsbD k = (s.iem.getLsbD k || decide (k = s.cfg.linkBit.val))) ∧
    exec i (atLine .e3 rets s) = .next { s with ifl := false, ph := .run .e4 rets } ∧
    exec i (atLine .e4 (back :: rets) s) = .next { s with gie := true, ph := .run back rets }

/-- The lines of readBlocking (41_timeout_receive.md R135), in RDBLK and BOOT. -/
def Obligations.ReadBlockingLines : Prop :=
  ∀ (i : Instr) (s : State) (back : Label) (rets : List Label), callsReadBlocking i = true → InProgress i s →
    exec i (atLine .b1 rets s) = .next { s with rxf := false, ph := .run .b2 rets } ∧
    exec i (atLine .b2 rets s) = .next { s with ph := .run .e1 (.b3 :: rets) } ∧
    (s.rxf = true → exec i (atLine .b3 (back :: rets) s) = .next { s with ph := .run back rets }) ∧
    (s.rxf = false → exec i (atLine .b3 (back :: rets) s) = .next { s with ph := .run .b3 (back :: rets) })

/-- The lines of readWithTimeout (R137), in the four operations that call it. -/
def Obligations.ReadWithTimeoutLines : Prop :=
  ∀ (i : Instr) (s : State) (units : Byte) (back : Label) (rets : List Label), callsReadWithTimeout i = true → InProgress i s →
    exec i (atLine (.w1 units) rets s) = .next { s with rxf := false, ph := .run (.w2 units) rets } ∧
    exec i (atLine (.w2 units) rets s) = .next { s with ph := .run .e1 (.w3 units :: rets) } ∧
    exec i (atLine (.w3 units) rets s) = .next { s with tu := units, ts := s.cfg.subPerUnit, ph := .run .w4 rets } ∧
    (s.tu = 0 → exec i (atLine .w4 (back :: rets) s) = .next { s with wok := false, ph := .run back rets }) ∧
    (s.tu ≠ 0 → s.rxf = true → exec i (atLine .w4 (back :: rets) s) = .next { s with wok := true, ph := .run back rets }) ∧
    (s.tu ≠ 0 → s.rxf = false → 2 ≤ s.ts → exec i (atLine .w4 (back :: rets) s) = .next
      { s with ts := s.ts - 1, ph := .run .w4 (back :: rets) }) ∧
    (s.tu ≠ 0 → s.rxf = false → s.ts = 1 → exec i (atLine .w4 (back :: rets) s) = .next
      { s with tu := s.tu - 1, ts := s.cfg.subPerUnit, ph := .run .w4 (back :: rets) })

/-- The lines of sendAndCheckAck (R139), in SNDACK and PSEND: the reply is compared only after a wait that succeeded. -/
def Obligations.SendAndCheckAckLines : Prop :=
  ∀ (i : Instr) (s : State) (byte units expected : Byte) (back : Label) (rets : List Label),
    callsSendAndCheckAck i = true → InProgress i s →
    exec i (atLine (.a1 byte units expected) rets s) = .next
      { s with expAck := expected, ph := .run (.s1 byte) (.a2 units :: rets) } ∧
    exec i (atLine (.a2 units) rets s) = .next { s with ph := .run (.w1 units) (.a3 :: rets) } ∧
    (s.wok = true ∧ s.rxb = s.expAck → exec i (atLine .a3 (back :: rets) s) = .next { s with wok := true, ph := .run back rets }) ∧
    (¬(s.wok = true ∧ s.rxb = s.expAck) → exec i (atLine .a3 (back :: rets) s) = .next { s with wok := false, ph := .run back rets })

/-- The own lines of SENDB, ENRX, RDBLK, RDTO and SNDACK (40_byte_transport.md R117, R119, 41_timeout_receive.md R136, R138, R141):
the call of the procedure, and the completion with its result. -/
def Obligations.ByteOperationLines : Prop :=
  ∀ (s : State) (x y z : Byte),
    (InProgress (.sendb x) s →
      exec (.sendb x) (atLine .t1 [] s) = .next { s with ph := .run (.s1 x) [.t2] } ∧
      exec (.sendb x) (atLine .t2 [] s) = .next { s with busy := false, done := true, res := true, ph := .idle }) ∧
    (InProgress .enrx s →
      exec .enrx (atLine .n1 [] s) = .next { s with ph := .run .e1 [.n2] } ∧
      exec .enrx (atLine .n2 [] s) = .next { s with busy := false, done := true, res := true, ph := .idle }) ∧
    (InProgress .rdblk s →
      exec .rdblk (atLine .k1 [] s) = .next { s with ph := .run .b1 [.k2] } ∧
      exec .rdblk (atLine .k2 [] s) = .next { s with busy := false, done := true, res := true, ph := .idle }) ∧
    (InProgress (.rdto x) s →
      exec (.rdto x) (atLine .o1 [] s) = .next { s with ph := .run (.w1 x) [.o2] } ∧
      exec (.rdto x) (atLine .o2 [] s) = .next { s with busy := false, done := true, res := s.wok, ph := .idle }) ∧
    (InProgress (.sndack x y z) s →
      exec (.sndack x y z) (atLine .q1 [] s) = .next { s with ph := .run (.a1 x y z) [.q2] } ∧
      exec (.sndack x y z) (atLine .q2 [] s) = .next { s with busy := false, done := true, res := s.wok, ph := .idle })

/-- The own lines of PSEND (42_packet_protocol.md R156). -/
def Obligations.PsendLines : Prop :=
  ∀ (s : State) (command : Byte), InProgress (.psend command) s →
    let run (l : Label) : Result := exec (.psend command) (atLine l [] s)
    let ok : Byte := s.cfg.codes.ok
    run .p1 = .next { s with saved := s.iem, ph := .run .p2 [] } ∧
    run .p2 = .next { s with iem := 1#8 <<< s.cfg.linkBit.val, ph := .run .p3 [] } ∧
    run .p3 = .next { s with plen := s.txlen + 2, acc := s.txlen + 2, idx := 0, resv := false
                             ph := .run (.a1 command 200 ok) [.p4] } ∧
    (s.wok = true → run .p4 = .next { s with ph := .run (.a1 s.plen 200 ok) [.p5] }) ∧
    (s.wok = false → run .p4 = .next { s with ph := .run .p11 [] }) ∧
    run .p5 = .next { s with ph := .run (if s.wok then .p6 else .p11) [] } ∧
    run .p6 = .next { s with ph := .run (if s.idx = s.txlen then .p9 else .p7) [] } ∧
    (s.idx.toNat < s.cfg.txCap → run .p7 = .next
      { s with acc := s.acc + s.txbuf.read s.idx.toNat, ph := .run (.a1 (s.txbuf.read s.idx.toNat) 200 ok) [.p8] }) ∧
    (s.wok = true → run .p8 = .next { s with idx := s.idx + 1, ph := .run .p6 [] }) ∧
    (s.wok = false → run .p8 = .next { s with ph := .run .p11 [] }) ∧
    run .p9 = .next { s with cks := ~~~s.acc + 1, ph := .run (.a1 (~~~s.acc + 1) 200 s.cfg.codes.cksumOk) [.p10] } ∧
    run .p10 = .next { s with resv := (s.wok || s.resv), ph := .run .p11 [] } ∧
    run .p11 = .next { s with iem := s.saved, ph := .run .p12 [] } ∧
    run .p12 = .next { s with busy := false, done := true, res := s.resv, ph := .idle }

/-- The own lines of PRECV (R159, R160). -/
def Obligations.PrecvLines : Prop :=
  ∀ (s : State) (command : Byte), InProgress (.precv command) s →
    let run (l : Label) : Result := exec (.precv command) (atLine l [] s)
    run .v1 = .next { s with saved := s.iem, ph := .run .v2 [] } ∧
    run .v2 = .next { s with iem := 1#8 <<< s.cfg.linkBit.val, ph := .run .v3 [] } ∧
    run .v3 = .next { s with rxlen := 0, resv := false, ph := .run (.s1 command) [.v4] } ∧
    run .v4 = .next { s with ph := .run (.w1 100) [.v5] } ∧
    (s.wok = false ∨ 14 < s.rxb.toNat ∨ s.rxb = 0 → run .v5 = .next { s with ph := .run .v10 [] }) ∧
    (s.wok = true → 1 ≤ s.rxb.toNat → s.rxb.toNat ≤ 14 → run .v5 = .next
      { s with acc := s.rxb, cnt := s.rxb - 1, ph := .run .v6 [] }) ∧
    (s.cnt = 0 → run .v6 = .next { s with ph := .run .v9 [] }) ∧
    (s.cnt ≠ 0 → run .v6 = .next { s with ph := .run (.w1 100) [.v7] }) ∧
    (s.wok = true → s.rxlen.toNat < 14 → run .v7 = .next
      { s with rxbuf := s.rxbuf.write s.rxlen.toNat s.rxb, rxlen := s.rxlen + 1, acc := s.acc + s.rxb, cnt := s.cnt - 1
               ph := .run .v6 [] }) ∧
    (s.wok = false → run .v7 = .next { s with ph := .run .v8 [] }) ∧
    run .v8 = .next { s with acc := 0xFF, ph := .run .v9 [] } ∧
    run .v9 = .next { s with resv := (s.acc == 0 || s.resv), ph := .run .v10 [] } ∧
    (s.resv = true → run .v10 = .next { s with ph := .run (.s1 s.cfg.codes.ok) [.v11] }) ∧
    (s.resv = false → run .v10 = .next { s with ph := .run (.s1 s.cfg.codes.abort) [.v11] }) ∧
    run .v11 = .next { s with iem := s.saved, ph := .run .v12 [] } ∧
    run .v12 = .next { s with busy := false, done := true, res := s.resv, ph := .idle }

/-- The own lines of BOOT (43_boot_handshake.md R185 to R191), under both values of `HS_STOP_ON_MISMATCH`. -/
def Obligations.BootLines : Prop :=
  ∀ (s : State), InProgress .boot s →
    let run (l : Label) : Result := exec .boot (atLine l [] s)
    run .h1 = .next { s with saved := s.iem, ph := .run .h2 [] } ∧
    run .h2 = .next { s with iem := 1#8 <<< s.cfg.linkBit.val, ph := .run .h3 [] } ∧
    run .h3 = .next { s with failf := false, cnt := 0, hs := .running, ph := .run .h4 [] } ∧
    run .h4 = .next { s with ph := .run (.s1 s.cnt) [.h5] } ∧
    run .h5 = .next { s with cnt := s.cnt + 1, ph := .run (if s.cnt = 255 then .h6 else .h4) [] } ∧
    run .h6 = .next { s with ph := .run .b1 [.h7] } ∧
    (s.rxb = s.cfg.codes.bootOk → run .h7 = .next { s with ph := .run .h8 [] }) ∧
    (s.rxb ≠ s.cfg.codes.bootOk → run .h7 = .next { s with failf := true, ph := .run .h8 [] }) ∧
    run .h8 = .next { s with ph := .run (.s1 s.cfg.codes.bootReq) [.h9] } ∧
    run .h9 = .next { s with expv := 255, ph := .run .h10 [] } ∧
    run .h10 = .next { s with ph := .run .b1 [.h11] } ∧
    (s.rxb = s.expv → run .h11 = .next { s with ph := .run .h12 [] }) ∧
    (s.rxb ≠ s.expv → s.cfg.hsStopOnMismatch = false → run .h11 = .next { s with failf := true, ph := .run .h12 [] }) ∧
    (s.rxb ≠ s.expv → s.cfg.hsStopOnMismatch = true → run .h11 = .next { s with failf := true, ph := .run .h13 [] }) ∧
    run .h12 = .next { s with expv := s.expv - 1, ph := .run (if s.expv = 0 then .h13 else .h10) [] } ∧
    (s.failf = false → run .h13 = .next { s with ph := .run (.s1 s.cfg.codes.ok) [.h14] }) ∧
    (s.failf = true → run .h13 = .next { s with ph := .run (.s1 s.cfg.codes.abort) [.h14] }) ∧
    run .h14 = .next { s with iem := s.saved, ph := .run .h15 [] } ∧
    (s.failf = false → run .h15 = .next { s with resv := true, hs := .success, busy := false, done := true, res := true, ph := .idle }) ∧
    (s.failf = true → run .h15 = .next { s with resv := false, hs := .failure, busy := false, done := true, res := false, ph := .idle })

/-! ### Frames: what an operation's atomic steps leave unchanged, in every state -/

/-- SENDB changes nothing but its issue's registers, `PH`, `MODE`, `SDR`, `IFL` and the trace of sent bytes (R116, R117): no mask, no
mailbox, no buffer byte. -/
def Obligations.SendbFrame : Prop :=
  ∀ (b : Byte) (s t : State), exec (.sendb b) s = .next t →
    t = { s with opc := t.opc, opl := t.opl, la := t.la, lb := t.lb, lc := t.lc, busy := t.busy, done := t.done, res := t.res
                 err := t.err, ph := t.ph, mode := t.mode, sdr := t.sdr, ifl := t.ifl, txlog := t.txlog, draws := t.draws } ∧
    (∀ k : Nat, t.rxbuf.read k = s.rxbuf.read k ∧ t.txbuf.read k = s.txbuf.read k)

/-- ENRX, RDBLK and RDTO change nothing but the issue's registers, `PH`, `MODE`, the link's bit of `IEM`, `IFL` and `GIE`; RDBLK and
RDTO also `RXF`, and RDTO also `TU`, `TS`, `WOK` (R118, R119, 41_timeout_receive.md R135 to R138). -/
def Obligations.ReceiveFrame : Prop :=
  ∀ (units : Byte) (s t : State),
    (exec .enrx s = .next t ∨ exec .rdblk s = .next t ∨ exec (.rdto units) s = .next t →
      (∀ k : Nat, k ≠ s.cfg.linkBit.val → t.iem.getLsbD k = s.iem.getLsbD k) ∧
      (∀ k : Nat, t.rxbuf.read k = s.rxbuf.read k ∧ t.txbuf.read k = s.txbuf.read k)) ∧
    (exec .enrx s = .next t →
      t = { s with opc := t.opc, opl := t.opl, la := t.la, lb := t.lb, lc := t.lc, busy := t.busy, done := t.done, res := t.res
                   err := t.err, ph := t.ph, mode := t.mode, iem := t.iem, ifl := t.ifl, gie := t.gie }) ∧
    (exec .rdblk s = .next t →
      t = { s with opc := t.opc, opl := t.opl, la := t.la, lb := t.lb, lc := t.lc, busy := t.busy, done := t.done, res := t.res
                   err := t.err, ph := t.ph, mode := t.mode, iem := t.iem, ifl := t.ifl, gie := t.gie, rxf := t.rxf }) ∧
    (exec (.rdto units) s = .next t →
      t = { s with opc := t.opc, opl := t.opl, la := t.la, lb := t.lb, lc := t.lc, busy := t.busy, done := t.done, res := t.res
                   err := t.err, ph := t.ph, mode := t.mode, iem := t.iem, ifl := t.ifl, gie := t.gie, rxf := t.rxf
                   tu := t.tu, ts := t.ts, wok := t.wok })

/-- SNDACK changes nothing but what sendByte and readWithTimeout change, and `EXP` (R139, R141); of `IEM` only the link's bit. -/
def Obligations.SndackFrame : Prop :=
  ∀ (byte units expected : Byte) (s t : State), exec (.sndack byte units expected) s = .next t →
    t = { s with opc := t.opc, opl := t.opl, la := t.la, lb := t.lb, lc := t.lc, busy := t.busy, done := t.done, res := t.res
                 err := t.err, ph := t.ph, mode := t.mode, sdr := t.sdr, ifl := t.ifl, txlog := t.txlog, draws := t.draws
                 iem := t.iem, gie := t.gie, rxf := t.rxf, tu := t.tu, ts := t.ts, wok := t.wok, expAck := t.expAck } ∧
    (∀ k : Nat, k ≠ s.cfg.linkBit.val → t.iem.getLsbD k = s.iem.getLsbD k) ∧
    (∀ k : Nat, t.rxbuf.read k = s.rxbuf.read k ∧ t.txbuf.read k = s.txbuf.read k)

/-- PSEND leaves both buffers, `RXLEN`, `TXLEN`, the mailbox byte and everything of PRECV and BOOT unchanged (42_packet_protocol.md
R156). -/
def Obligations.PsendFrame : Prop :=
  ∀ (command : Byte) (s t : State), exec (.psend command) s = .next t →
    t = { s with opc := t.opc, opl := t.opl, la := t.la, lb := t.lb, lc := t.lc, busy := t.busy, done := t.done, res := t.res
                 err := t.err, ph := t.ph, mode := t.mode, sdr := t.sdr, ifl := t.ifl, txlog := t.txlog, draws := t.draws
                 iem := t.iem, gie := t.gie, rxf := t.rxf, tu := t.tu, ts := t.ts, wok := t.wok, expAck := t.expAck
                 saved := t.saved, plen := t.plen, acc := t.acc, idx := t.idx, cks := t.cks, resv := t.resv } ∧
    (∀ k : Nat, t.rxbuf.read k = s.rxbuf.read k ∧ t.txbuf.read k = s.txbuf.read k)

/-- PRECV leaves the Transmit Buffer, the mailbox byte and everything of PSEND and BOOT unchanged; of the Receive Buffer it changes at
most the element at index `RXLEN`, and that only at V7 after a wait that succeeded (R159, 20_memory.md R72). -/
def Obligations.PrecvFrame : Prop :=
  ∀ (command : Byte) (s t : State), exec (.precv command) s = .next t →
    t = { s with opc := t.opc, opl := t.opl, la := t.la, lb := t.lb, lc := t.lc, busy := t.busy, done := t.done, res := t.res
                 err := t.err, ph := t.ph, mode := t.mode, sdr := t.sdr, ifl := t.ifl, txlog := t.txlog, draws := t.draws
                 iem := t.iem, gie := t.gie, rxf := t.rxf, tu := t.tu, ts := t.ts, wok := t.wok
                 saved := t.saved, acc := t.acc, cnt := t.cnt, resv := t.resv, rxbuf := t.rxbuf, rxlen := t.rxlen } ∧
    (∀ k : Nat, k ≠ s.rxlen.toNat → t.rxbuf.read k = s.rxbuf.read k) ∧
    (t.rxbuf = s.rxbuf ∨ s.busy = true ∧ s.wok = true ∧ ∃ rets, s.ph = .run .v7 rets) ∧
    (∀ k : Nat, t.txbuf.read k = s.txbuf.read k)

/-- BOOT leaves both buffers, their lengths, the mailbox byte and everything of PSEND and PRECV but `CNT` and `RESV` unchanged
(43_boot_handshake.md R185). -/
def Obligations.BootFrame : Prop :=
  ∀ (s t : State), exec .boot s = .next t →
    t = { s with opc := t.opc, opl := t.opl, la := t.la, lb := t.lb, lc := t.lc, busy := t.busy, done := t.done, res := t.res
                 err := t.err, ph := t.ph, mode := t.mode, sdr := t.sdr, ifl := t.ifl, txlog := t.txlog, draws := t.draws
                 iem := t.iem, gie := t.gie, rxf := t.rxf, saved := t.saved, failf := t.failf, cnt := t.cnt, expv := t.expv
                 hs := t.hs, resv := t.resv } ∧
    (∀ k : Nat, t.rxbuf.read k = s.rxbuf.read k ∧ t.txbuf.read k = s.txbuf.read k)

/-! ### The byte-received interrupt, the peer -/

/-- 60_exceptions.md R206: the enabling condition and the whole effect of the IRQ step. -/
def Obligations.InterruptStepEffect : Prop :=
  ∀ s : State,
    (irqEnabled s = true ↔ s.ifl = true ∧ s.iem.getLsbD s.cfg.linkBit.val = true ∧ s.gie = true) ∧
    (∃ m : Byte, irqStep s = { s with ifl := false, rxb := s.sdr, rxf := true, iem := m } ∧
      ∀ k : Nat, k < 8 → m.getLsbD k = (s.iem.getLsbD k && !decide (k = s.cfg.linkBit.val)))

/-- 60_exceptions.md R207: where the enabling condition holds, the next step is the IRQ step, before SEQ, PEER and HOST; a reset may
still fall first (70_reset_and_hazards.md R235). -/
def Obligations.InterruptGoesFirst : Prop :=
  ∀ s : State, s.ifl = true → s.iem.getLsbD s.cfg.linkBit.val = true → s.gie = true →
    (∀ rest, s.agenda ≠ .reset :: rest) → step s = .next (irqStep s)

/-- 60_exceptions.md R210, R205: after the IRQ step the link is disarmed and no interrupt is enabled, and only these steps arm it again:
enableReceive's E2, a mask restrict, a restore whose saved value has the bit, an idle host write to `IEM`. -/
def Obligations.OnlyTheseStepsArm : Prop :=
  (∀ s : State, armed (irqStep s) = false ∧ irqEnabled (irqStep s) = false) ∧
  (∀ s t : State, step s = .next t → armed s = false → armed t = true →
    (∃ rets, s.ph = .run .e2 rets ∨ s.ph = .run .p2 rets ∨ s.ph = .run .v2 rets ∨ s.ph = .run .h2 rets) ∨
    (s.saved.getLsbD s.cfg.linkBit.val = true ∧
      ∃ rets, s.ph = .run .p11 rets ∨ s.ph = .run .v11 rets ∨ s.ph = .run .h14 rets) ∨
    (s.busy = false ∧ ∃ v rest, s.agenda = .write 0x06 v :: rest))

/-- 40_byte_transport.md R121: `deliver RX(b)`, whatever the block is doing, and only while `MODE = RX_EXT`; a turn given to PEER
otherwise changes nothing (the model's choice, log 20). -/
def Obligations.DeliveryEffect : Prop :=
  ∀ (s : State) (b : Byte) (rest : List Turn), irqEnabled s = false → s.agenda = .deliver b :: rest →
    (s.mode = .rxExt → step s = .next { s with agenda := rest, sdr := b, ifl := true, rxlog := s.rxlog ++ [b] }) ∧
    (s.mode = .txInt → step s = .next { s with agenda := rest })

/-! ### The host's registers -/

/-- 20_memory.md R66, R67, R70: what a host read returns at every offset, and that reading changes nothing. The bits of `statusByte` and
`lstatByte` are stated in StatusBits and LstatReadAndWrite. R66 and R70 give the window of `TXBUF` as 0x20 to 0x2D and the reserved offsets
after it as 0x2E to 0x3F, which is `TX_CAP = 14`; that both follow any other `TX_CAP` is the model's choice (log 22). -/
def Obligations.HostReadMap : Prop :=
  ∀ s : State,
    hostRead 0x00 s = s.opc ∧ hostRead 0x01 s = s.argA ∧ hostRead 0x02 s = s.argB ∧ hostRead 0x03 s = s.argC ∧
    hostRead 0x06 s = s.iem ∧ hostRead 0x07 s = s.rxb ∧ hostRead 0x08 s = s.sdr ∧ hostRead 0x09 s = s.rxlen ∧
    hostRead 0x0A s = s.txlen ∧
    hostRead 0x04 s = statusByte s ∧ hostRead 0x05 s = lstatByte s ∧
    (∀ k : Nat, k < 14 → hostRead (BitVec.ofNat 6 (0x10 + k)) s = s.rxbuf.read k) ∧
    (∀ k : Nat, k < s.cfg.txCap → k < 32 → hostRead (BitVec.ofNat 6 (0x20 + k)) s = s.txbuf.read k) ∧
    (∀ off : Offset, (0x0B ≤ off.toNat ∧ off.toNat ≤ 0x0F) ∨ off.toNat = 0x1E ∨ off.toNat = 0x1F ∨ 0x20 + s.cfg.txCap ≤ off.toNat →
      hostRead off s = 0x00) ∧
    (∀ (off : Offset) (rest : List Turn), irqEnabled s = false → s.agenda = .read off :: rest →
      step s = .next { s with agenda := rest })

/-- 10_state.md R34: the bits of the byte `STATUS`. -/
def Obligations.StatusBits : Prop :=
  ∀ s : State,
    (hostRead 0x04 s).getLsbD 0 = s.busy ∧ (hostRead 0x04 s).getLsbD 1 = s.done ∧
    (hostRead 0x04 s).getLsbD 2 = s.res ∧ (hostRead 0x04 s).getLsbD 3 = s.err ∧
    (hostRead 0x04 s).extractLsb' 4 2 =
      (match s.hs with | .notStarted => 0b00#2 | .running => 0b01#2 | .success => 0b10#2 | .failure => 0b11#2) ∧
    (hostRead 0x04 s).getLsbD 6 = false ∧ (hostRead 0x04 s).getLsbD 7 = false

/-- 10_state.md R35: what a read of `LSTAT` assembles and what an idle write of it changes. -/
def Obligations.LstatReadAndWrite : Prop :=
  ∀ (s : State) (v : Byte),
    (hostRead 0x05 s).getLsbD 0 = s.rxf ∧ (hostRead 0x05 s).getLsbD 1 = s.ifl ∧ (hostRead 0x05 s).getLsbD 2 = s.gie ∧
    (hostRead 0x05 s).getLsbD 3 = decide (s.mode = .txInt) ∧ (hostRead 0x05 s).extractLsb' 4 4 = 0 ∧
    (s.busy = false → hostWrite 0x05 v s = .next { s with rxf := v.getLsbD 0, gie := v.getLsbD 2 })

/-- 20_memory.md R66, R68, R69, 10_state.md R30: a host write takes effect only when idle and only at a location marked W (to `OPC`, the
issue); else no state changes. A byte written to `TXBUF` is what a host read then returns. That the window of `TXBUF` and the ignored offsets
after it follow a `TX_CAP` other than 14, and that a write of `IEM` drops the bits from `IEM_W` on where `IEM_W` is below 8, is the model's
choice (log 22). -/
def Obligations.HostWriteRule : Prop :=
  ∀ (s : State) (v : Byte),
    (s.busy = true → ∀ off : Offset, hostWrite off v s = .next s) ∧
    (s.busy = false →
      hostWrite 0x00 v s = issue v s ∧ hostWrite 0x01 v s = .next { s with argA := v } ∧ hostWrite 0x02 v s = .next { s with argB := v } ∧
      hostWrite 0x03 v s = .next { s with argC := v } ∧
      hostWrite 0x05 v s = .next { s with rxf := v.getLsbD 0, gie := v.getLsbD 2 } ∧
      (∃ m : Byte, hostWrite 0x06 v s = .next { s with iem := m } ∧
        ∀ k : Nat, k < 8 → m.getLsbD k = (v.getLsbD k && decide (k < s.cfg.iemWidth))) ∧
      hostWrite 0x0A v s = .next { s with txlen := v } ∧
      (∀ k : Nat, k < s.cfg.txCap → k < 32 → hostWrite (BitVec.ofNat 6 (0x20 + k)) v s = .next { s with txbuf := s.txbuf.write k v } ∧
        (s.txbuf.wf = true → hostRead (BitVec.ofNat 6 (0x20 + k)) { s with txbuf := s.txbuf.write k v } = v)) ∧
      (∀ off : Offset, off.toNat = 0x04 ∨ (0x07 ≤ off.toNat ∧ off.toNat ≤ 0x09) ∨ (0x0B ≤ off.toNat ∧ off.toNat ≤ 0x1F) ∨
        0x20 + s.cfg.txCap ≤ off.toNat → hostWrite off v s = .next s)) ∧
    (∀ (off : Offset) (rest : List Turn), irqEnabled s = false → s.agenda = .write off v :: rest →
      step s = hostWrite off v { s with agenda := rest })

/-- 20_memory.md R66, R70, 10_state.md R30: the reserved offsets read 0x00 and ignore writes. R70 has the last of them at 0x2E to 0x3F, which
is `TX_CAP = 14` (00_scope.md R11); that with any other `TX_CAP` they begin where `TXBUF[0 .. TX_CAP-1]` ends is the model's choice
(log 22). -/
def Obligations.ReservedOffsets : Prop :=
  ∀ (s : State) (off : Offset) (v : Byte),
    (0x0B ≤ off.toNat ∧ off.toNat ≤ 0x0F) ∨ off.toNat = 0x1E ∨ off.toNat = 0x1F ∨
      0x20 + s.cfg.txCap ≤ off.toNat →
    hostRead off s = 0x00 ∧ hostWrite off v s = .next s

/-- 10_state.md R20: the host sees groups (a) to (d) only; two states with the same parameters that agree on them read the same at every offset,
whatever the sequencer's registers hold. -/
def Obligations.SequencerHiddenFromHost : Prop :=
  ∀ (s t : State),
    s.cfg = t.cfg → s.iem = t.iem → s.rxf = t.rxf → s.rxb = t.rxb → s.ifl = t.ifl → s.gie = t.gie → s.mode = t.mode → s.sdr = t.sdr →
    s.rxbuf = t.rxbuf → s.rxlen = t.rxlen → s.txbuf = t.txbuf → s.txlen = t.txlen → s.opc = t.opc → s.argA = t.argA →
    s.argB = t.argB → s.argC = t.argC → s.busy = t.busy → s.done = t.done → s.res = t.res → s.err = t.err → s.hs = t.hs →
    ∀ off : Offset, hostRead off s = hostRead off t

/-! ### Reset -/

/-- 70_reset_and_hazards.md R235, R236, 10_state.md section 7: the values the spec gives the state after reset, and a reset at any step
boundary, whatever is in progress. That the parameters, the draws and the agenda stay is the model's choice (log 10). -/
def Obligations.ResetValues : Prop :=
  (∀ (s : State) (rest : List Turn), s.agenda = .reset :: rest →
    step s = .next { State.resetWith s.cfg with draws := s.draws, agenda := rest }) ∧
  (∀ (c : Config) (s : State), s = State.resetWith c ∨ s = State.reset →
    s.iem = 0 ∧ s.rxf = false ∧ s.ifl = false ∧ s.gie = false ∧ s.mode = .rxExt ∧ s.rxlen = 0 ∧ s.txlen = 0 ∧ s.opc = 0 ∧
    s.argA = 0 ∧ s.argB = 0 ∧ s.argC = 0 ∧ hostRead 0x04 s = 0 ∧ hostRead 0x05 s = 0 ∧ s.ph = .idle ∧ s.txlog = [] ∧ s.rxlog = [])

/-! ### Rules over every step -/

/-- 10_state.md R23, R22, 20_memory.md R75, R76: the mailbox has one producer. Only the IRQ step writes `RXB` (a reset aside), and only
it, or an idle host write to `LSTAT`, sets `RXF`. -/
def Obligations.MailboxHasOneProducer : Prop :=
  ∀ s t : State, step s = .next t →
    (t.rxb ≠ s.rxb → (irqEnabled s = true ∧ t = irqStep s) ∨ ∃ rest, s.agenda = .reset :: rest) ∧
    (s.rxf = false → t.rxf = true → (irqEnabled s = true ∧ t = irqStep s) ∨
      (s.busy = false ∧ ∃ v rest, s.agenda = .write 0x05 v :: rest))

/-- 70_reset_and_hazards.md R255: `GIE`, once set, is cleared by no step of any operation, by no interrupt and by no delivery; only an
idle host write to `LSTAT`, or a reset, clears it. -/
def Obligations.GieNeverClearedByBlock : Prop :=
  ∀ s t : State, step s = .next t → s.gie = true → t.gie = false →
    (∃ rest, s.agenda = .reset :: rest) ∨ (s.busy = false ∧ ∃ v rest, s.agenda = .write 0x05 v :: rest ∧ v.getLsbD 2 = false)

/-- 20_memory.md R61, R62: only the transmit step S2 of sendByte puts a byte on the wire, one byte per step, and only a delivery adds to
the received trace; a reset empties both. -/
def Obligations.WireTracesGrowByteByByte : Prop :=
  ∀ s t : State, step s = .next t → (∀ rest, s.agenda ≠ .reset :: rest) →
    (t.txlog = s.txlog ∨ ∃ b rets, s.ph = .run (.s2 b) rets ∧ t.txlog = s.txlog ++ [b]) ∧
    (t.rxlog = s.rxlog ∨ ∃ b rest, s.agenda = .deliver b :: rest ∧ s.mode = .rxExt ∧ t.rxlog = s.rxlog ++ [b])

/-- 10_state.md R30, R31, R33, 20_memory.md R76: the Transmit Buffer, its length and the operand registers are written by the idle host
only (a reset aside). -/
def Obligations.TransmitBufferIsTheHosts : Prop :=
  ∀ s t : State, step s = .next t → (∀ rest, s.agenda ≠ .reset :: rest) →
    (s.busy = true ∨ ∀ off v rest, s.agenda ≠ .write off v :: rest) →
    t.txbuf = s.txbuf ∧ t.txlen = s.txlen ∧ t.argA = s.argA ∧ t.argB = s.argB ∧ t.argC = s.argC

/-- 10_state.md R47: the parameters are fixed for a run; no step of any agent, reset included, changes them. -/
def Obligations.ParametersNeverChange : Prop :=
  ∀ s t : State, step s = .next t → t.cfg = s.cfg

/-- 42_packet_protocol.md R155: the mask saved when a protocol operation opens is kept until the operation closes: `SAVED` is written at
P1, V1 and H1 and at no other line. -/
def Obligations.SavedMaskIsKept : Prop :=
  ∀ s t : State, step s = .next t → (∀ rest, s.agenda ≠ .reset :: rest) → t.saved ≠ s.saved →
    t.saved = s.iem ∧ ∃ rets, s.ph = .run .p1 rets ∨ s.ph = .run .v1 rets ∨ s.ph = .run .h1 rets

/-! ### Invariants of every step -/

/-- Both buffers stay in canonical form and inside their capacity, at every step from every state in which they are. -/
def Obligations.StepKeepsBuffersCanonical : Prop :=
  ∀ s t : State,
    s.rxbuf.wf = true → s.rxbuf.within Config.rxCap = true → s.txbuf.wf = true → s.txbuf.within s.cfg.txCap = true →
    step s = .next t →
    t.rxbuf.wf = true ∧ t.rxbuf.within Config.rxCap = true ∧ t.txbuf.wf = true ∧ t.txbuf.within s.cfg.txCap = true

/-- The state after reset meets the machine's invariant, at the block's own parameters and at any that are well formed. -/
def Obligations.ResetMeetsInvariant : Prop :=
  Inv State.reset ∧ ∀ c : Config, c.wf = true → Inv (State.resetWith c)

/-- Every step keeps the machine's invariant: `BUSY` and `PH` agree, `PH` is a position in the latched operation's pseudocode, the
buffer indices and `RXLEN ≤ 13` stay in range (10_state.md R46, 20_memory.md R72, R73), the link transmits only inside sendByte, the
mask stays restricted inside a protocol operation (42_packet_protocol.md R155), `IEM` and `SAVED` stay `IEM_W` bits wide (00_scope.md
R12). -/
def Obligations.StepKeepsInvariant : Prop :=
  ∀ s t : State, Inv s → step s = .next t → Inv t

/-- The machine never stops: from every state that meets the invariant the step answers a next state, whatever the agenda holds; no
failure of an operation is a trap (60_exceptions.md R215). It rests on choices of the model: the three faults stand for states no run
reaches (log 12), a turn without a step is consumed (log 20), and SEQ goes on alone with an empty agenda (log 21). -/
def Obligations.MachineNeverStops : Prop :=
  ∀ s : State, Inv s → ∃ t, step s = .next t

/-! ### Arithmetic -/

/-- 30_encoding.md R95, 42_packet_protocol.md R162: the two's complement cancels every sum, so a frame closed by its checksum sums to 0. -/
def Obligations.ChecksumClosesFrame : Prop :=
  ∀ (len : Byte) (payload : List Byte),
    byteSum (len :: payload ++ [neg8 (byteSum (len :: payload))]) = 0 ∧
    (∀ x : Byte, byteSum (len :: payload ++ [x]) = 0 → x = neg8 (byteSum (len :: payload)))

/-! ### Whole runs -/

/-- SENDB from issue to completion (40_byte_transport.md R117: exactly 6 SEQ steps, the block still busy before the last), and, where the link is armed and `GIE = 1` and a
transmit sets the pending flag, with the spurious latch of R116 (a), 70_reset_and_hazards.md R242. The byte in `SDR` is free (log 7). -/
def Obligations.SendbRun : Prop :=
  ∀ (s : State) (rest : List Turn), irqEnabled s = false → s.busy = false →
    s.agenda = .write 0x00 0x01 :: seqTurns 6 ++ rest →
    (¬(armed s = true ∧ s.gie = true ∧ s.cfg.txSetsPending = true) → (∃ u, stepN 6 s = .next u ∧ u.busy = true) ∧
      stepN 7 s = .next { s with
        agenda := rest, opc := 0x01, opl := 0x01, la := s.argA, lb := s.argB, lc := s.argC, busy := false, done := true
        res := true, err := false, ph := .idle, mode := .rxExt, ifl := false, sdr := Config.freeByte s.draws
        draws := s.draws + 1, txlog := s.txlog ++ [s.argA] }) ∧
    (armed s = true ∧ s.gie = true ∧ s.cfg.txSetsPending = true → (∃ u, stepN 7 s = .next u ∧ u.busy = true) ∧
      stepN 8 s = .next { s with
        agenda := rest, opc := 0x01, opl := 0x01, la := s.argA, lb := s.argB, lc := s.argC, busy := false, done := true
        res := true, err := false, ph := .idle, mode := .rxExt, ifl := false, sdr := Config.freeByte s.draws
        draws := s.draws + 1, txlog := s.txlog ++ [s.argA], rxb := Config.freeByte s.draws, rxf := true
        iem := clearLinkBit s.cfg s.iem })

/-- ENRX from issue to completion (R118, R119), the block still busy before the last step: an early byte is kept when `GIE = 1` (corner case (a)) and lost when `GIE = 0` (b). -/
def Obligations.EnrxRun : Prop :=
  ∀ (s : State) (rest : List Turn), irqEnabled s = false → s.busy = false →
    s.agenda = .write 0x00 0x02 :: seqTurns 6 ++ rest →
    (s.ifl = false ∨ s.gie = false → (∃ u, stepN 6 s = .next u ∧ u.busy = true) ∧
      stepN 7 s = .next { s with
        agenda := rest, opc := 0x02, opl := 0x02, la := s.argA, lb := s.argB, lc := s.argC, busy := false, done := true
        res := true, err := false, ph := .idle, mode := .rxExt, ifl := false, gie := true, iem := setLinkBit s.cfg s.iem }) ∧
    (s.ifl = true ∧ s.gie = true → (∃ u, stepN 7 s = .next u ∧ u.busy = true) ∧
      stepN 8 s = .next { s with
        agenda := rest, opc := 0x02, opl := 0x02, la := s.argA, lb := s.argB, lc := s.argC, busy := false, done := true
        res := true, err := false, ph := .idle, mode := .rxExt, ifl := false, gie := true, rxb := s.sdr, rxf := true
        iem := clearLinkBit s.cfg (setLinkBit s.cfg s.iem) })

/-- RDBLK with a byte delivered after E4 (41_timeout_receive.md R135, R136): it completes with `RES = 1`, the byte in `RXB`, the link
disarmed, and not before its last step. -/
def Obligations.RdblkReturnsByte : Prop :=
  ∀ (s : State) (b : Byte) (rest : List Turn), s.busy = false → s.ifl = false →
    s.agenda = .write 0x00 0x03 :: (seqTurns 1 ++ waitTurns 0 b ++ seqTurns 1 ++ rest) →
    (∃ u, stepN 11 s = .next u ∧ u.busy = true) ∧
    stepN 12 s = .next { s with
      agenda := rest, opc := 0x03, opl := 0x03, la := s.argA, lb := s.argB, lc := s.argC, busy := false, done := true
      res := true, err := false, ph := .idle, mode := .rxExt, ifl := false, gie := true, rxb := b, rxf := true, sdr := b
      rxlog := s.rxlog ++ [b], iem := clearLinkBit s.cfg (setLinkBit s.cfg s.iem) }

/-- 41_timeout_receive.md R135 (a), 70_reset_and_hazards.md R244: a blocking read that gets no byte polls for ever: with no delivery, no
pending byte and no reset, whatever SEQ and HOST do, it is still at B3 after any number of steps, `BUSY = 1`, nothing sent. -/
def Obligations.BlockingReadNeverEndsAlone : Prop :=
  ∀ (i : Instr) (s : State) (rets : List Label), callsReadBlocking i = true → InProgress i s → s.ph = .run .b3 rets →
    s.rxf = false → s.ifl = false → (∀ e ∈ s.agenda, e.disturbs = false) →
    ∀ n : Nat, ∃ t, stepN n s = .next t ∧ t.ph = s.ph ∧ t.busy = true ∧ t.rxf = false ∧ t.txlog = s.txlog

/-- 41_timeout_receive.md R138, R140: RDTO with no delivery: `10 + units × SUB_PER_UNIT` SEQ steps in all, neither more nor fewer (one
step before the end the block is still busy), `RES = 0`, the link left armed (70_reset_and_hazards.md R243). -/
def Obligations.RdtoTimesOut : Prop :=
  ∀ (s : State) (rest : List Turn), s.cfg.wf = true → s.busy = false → s.ifl = false →
    s.agenda = .write 0x00 0x04 :: seqTurns (10 + s.argA.toNat * s.cfg.subPerUnit) ++ rest →
    (∃ u, stepN (10 + s.argA.toNat * s.cfg.subPerUnit) s = .next u ∧ u.busy = true) ∧
    stepN (11 + s.argA.toNat * s.cfg.subPerUnit) s = .next { s with
      agenda := rest, opc := 0x04, opl := 0x04, la := s.argA, lb := s.argB, lc := s.argC, busy := false, done := true
      res := false, err := false, ph := .idle, mode := .rxExt, gie := true, iem := setLinkBit s.cfg s.iem
      rxf := false, wok := false, tu := 0, ts := s.cfg.subPerUnit }

/-- 41_timeout_receive.md R140: RDTO with a byte delivered after `d` polls, `d < units × SUB_PER_UNIT`, ends at the first poll after it,
with `RES = 1` and the byte in `RXB`: at arrival time and neither earlier nor at budget expiry. -/
def Obligations.RdtoReturnsAtArrival : Prop :=
  ∀ (s : State) (b : Byte) (d : Nat) (rest : List Turn), s.cfg.wf = true → s.busy = false → s.ifl = false →
    d < s.argA.toNat * s.cfg.subPerUnit →
    s.agenda = .write 0x00 0x04 :: (seqTurns (8 + d) ++ [.deliver b] ++ seqTurns 2 ++ rest) →
    (∃ u, stepN (12 + d) s = .next u ∧ u.busy = true) ∧
    ∃ t, stepN (13 + d) s = .next t ∧ t.agenda = rest ∧ t.ph = .idle ∧ t.busy = false ∧ t.done = true ∧ t.res = true ∧
      t.err = false ∧ t.rxb = b ∧ t.rxf = true ∧ armed t = false ∧ t.gie = true ∧ t.ifl = false ∧ t.mode = .rxExt ∧
      t.txlog = s.txlog ∧ t.rxlog = s.rxlog ++ [b]

/-- 30_encoding.md R97: SNDACK, one round trip: one byte sent; the result is true exactly when a byte came within `units` and equals
`expected`. First with a reply in time, then with none. -/
def Obligations.SndackRoundTrip : Prop :=
  (∀ (s : State) (r : Byte) (rest : List Turn), irqEnabled s = false → s.cfg.wf = true → s.busy = false → s.argB ≠ 0 →
    s.agenda = .write 0x00 0x05 :: (seqTurns 1 ++ ackTurns r ++ seqTurns 1 ++ rest) →
    ∃ t, Reaches s t ∧ t.agenda = rest ∧ t.ph = .idle ∧ t.busy = false ∧ t.done = true ∧ t.err = false ∧
      t.res = decide (r = s.argC) ∧ t.rxb = r ∧ t.txlog = s.txlog ++ [s.argA] ∧ t.rxlog = s.rxlog ++ [r]) ∧
  (∀ (s : State) (rest : List Turn), irqEnabled s = false → s.cfg.wf = true → s.busy = false →
    s.agenda = .write 0x00 0x05 :: (seqTurns (17 + s.argB.toNat * s.cfg.subPerUnit) ++ rest) →
    ∃ t, Reaches s t ∧ t.agenda = rest ∧ t.ph = .idle ∧ t.busy = false ∧ t.done = true ∧ t.err = false ∧
      t.res = false ∧ t.txlog = s.txlog ++ [s.argA] ∧ t.rxlog = s.rxlog)

/-- 70_reset_and_hazards.md R241 (b), all three columns: a reply delivered between S3 and S4 is lost, and SNDACK times out although the
peer answered, even with the expected byte. With the link not armed or `GIE = 0`, S4 clears its pending flag and it never reaches `RXB`;
with the link armed and `GIE = 1` an interrupt goes one step between: where a transmit sets no pending flag it latches the reply at once
and W1 clears the flag, else it is the spurious latch of the transmit (R242), which disarms the link before the reply comes. -/
def Obligations.SndackLosesEarlyReply : Prop :=
  ∀ (s : State) (b : Byte) (rest : List Turn), irqEnabled s = false → s.cfg.wf = true → s.busy = false →
    s.agenda = .write 0x00 0x05 :: (seqTurns 5 ++ [.deliver b] ++ seqTurns (12 + s.argB.toNat * s.cfg.subPerUnit) ++ rest) →
    ∃ t, stepN (19 + s.argB.toNat * s.cfg.subPerUnit + if armed s && s.gie then 1 else 0) s = .next t ∧ t.agenda = rest ∧
      t.ph = .idle ∧ t.busy = false ∧ t.done = true ∧ t.res = false ∧ t.sdr = b ∧ t.rxf = false ∧ armed t = true ∧
      t.txlog = s.txlog ++ [s.argA] ∧ t.rxlog = s.rxlog ++ [b] ∧
      (armed s = false ∨ s.gie = false → t.rxb = s.rxb) ∧
      (armed s = true → s.gie = true → s.cfg.txSetsPending = false → t.rxb = b)

/-- 30_encoding.md R98, 42_packet_protocol.md R156: the dialogue of a successful PSEND, for every payload the buffer can hold and every
start state, with a peer that acknowledges correctly and in time: the bytes sent, `RES = 1`, the mask restored, both buffers kept. -/
def Obligations.PsendDialogue : Prop :=
  ∀ (s : State) (rest : List Turn), irqEnabled s = false → s.cfg.wf = true → s.busy = false →
    s.txlen.toNat ≤ s.cfg.txCap - 2 → s.agenda = .write 0x00 0x06 :: (psendTurns s.cfg.codes s.txlen.toNat ++ rest) →
    ∃ t, Reaches s t ∧ t.agenda = rest ∧ t.ph = .idle ∧ t.busy = false ∧ t.done = true ∧ t.res = true ∧ t.err = false ∧
      t.txlog = s.txlog ++ s.argA :: (s.txlen + 2) :: payloadOf s ++ [neg8 (byteSum ((s.txlen + 2) :: payloadOf s))] ∧
      t.rxlog = s.rxlog ++ List.replicate (s.txlen.toNat + 2) s.cfg.codes.ok ++ [s.cfg.codes.cksumOk] ∧
      t.iem = s.iem ∧ t.gie = true ∧ t.mode = .rxExt ∧ t.txbuf = s.txbuf ∧ t.txlen = s.txlen ∧ t.rxbuf = s.rxbuf ∧ t.rxlen = s.rxlen

/-- 42_packet_protocol.md R156, R158, 60_exceptions.md R219: a failed acknowledgement at any of PSEND's four tests ends it in three steps:
nothing more is sent, the mask is restored, `RES = 0`. -/
def Obligations.PsendStopsAtFailure : Prop :=
  ∀ (s : State) (command : Byte) (test : Label) (rest : List Turn), InProgress (.psend command) s →
    test = .p4 ∨ test = .p5 ∨ test = .p8 ∨ test = .p10 → s.ph = .run test [] → s.wok = false → s.resv = false →
    s.ifl = false → s.agenda = seqTurns 3 ++ rest →
    (∃ u, stepN 2 s = .next u ∧ u.busy = true) ∧
    stepN 3 s = .next { s with agenda := rest, iem := s.saved, busy := false, done := true, res := false, ph := .idle }

/-- 30_encoding.md R94, R95, R99, 42_packet_protocol.md R159: the dialogue of PRECV for every accepted length byte and every bytes a
well-timed peer sends: the bytes are stored in order, `RES = 1` and `CODE_OK` exactly when the sum is 0, else `CODE_ABORT`. -/
def Obligations.PrecvDialogue : Prop :=
  ∀ (s : State) (len : Byte) (bytes : List Byte) (rest : List Turn), irqEnabled s = false → s.cfg.wf = true → s.busy = false →
    s.rxbuf.wf = true → 1 ≤ len.toNat → len.toNat ≤ 14 → bytes.length + 1 = len.toNat →
    s.agenda = .write 0x00 0x07 :: (precvTurns len bytes ++ rest) →
    ∃ t, Reaches s t ∧ t.agenda = rest ∧ t.ph = .idle ∧ t.busy = false ∧ t.done = true ∧ t.err = false ∧
      t.res = decide (byteSum (len :: bytes) = 0) ∧
      t.txlog = s.txlog ++ [s.argA, if byteSum (len :: bytes) = 0 then s.cfg.codes.ok else s.cfg.codes.abort] ∧
      t.rxlog = s.rxlog ++ len :: bytes ∧
      t.rxlen.toNat = bytes.length ∧ (∀ (k : Nat) (h : k < bytes.length), t.rxbuf.read k = bytes[k]) ∧
      (∀ k : Nat, bytes.length ≤ k → t.rxbuf.read k = s.rxbuf.read k) ∧
      t.iem = s.iem ∧ t.gie = true ∧ t.mode = .rxExt ∧ t.txbuf = s.txbuf ∧ t.txlen = s.txlen

/-- 42_packet_protocol.md R159, R160, R155: what ends PRECV without a frame: at V5 a length byte above 14 or equal to 0, or a missing one;
at V7 a timeout inside the frame, after whatever bytes were appended ((f), (g)). `CODE_ABORT` is sent, `RES = 0`, `RXLEN` and the Receive
Buffer stay as they are at the test, the mask is restored. -/
def Obligations.PrecvRejectsLength : Prop :=
  ∀ (s : State) (command : Byte) (rest : List Turn), InProgress (.precv command) s → irqEnabled s = false → s.resv = false →
    (s.ph = .run .v5 [] ∧ (s.wok = false ∨ 14 < s.rxb.toNat ∨ s.rxb = 0) ∧ s.agenda = seqTurns 8 ++ rest) ∨
      (s.ph = .run .v7 [] ∧ s.wok = false ∧ s.agenda = seqTurns 10 ++ rest) →
    ∃ t, Reaches s t ∧ t.agenda = rest ∧ t.ph = .idle ∧ t.busy = false ∧ t.done = true ∧ t.res = false ∧
      t.txlog = s.txlog ++ [s.cfg.codes.abort] ∧ t.rxlen = s.rxlen ∧ t.rxbuf = s.rxbuf ∧ t.iem = s.saved

/-- 30_encoding.md R100, 43_boot_handshake.md R185 to R191: BOOT for every reply and every 256 countdown bytes a well-timed peer sends, under
the default reading, and under the other reading where no countdown byte is wrong (R190: "a run with no mismatch is the same under both"): the count-up, the request and one verdict are sent, all 256 bytes are consumed, and the verdict is `CODE_OK` with
`RES = 1` and `HS = 10` exactly when the reply is `CODE_BOOT_OK` and the bytes are 255, 254, ..., 0. -/
def Obligations.BootDialogue : Prop :=
  ∀ (s : State) (reply : Byte) (bytes : List Byte) (rest : List Turn), irqEnabled s = false → s.cfg.wf = true → s.busy = false →
    s.cfg.hsStopOnMismatch = false ∨ bytes = countdownBytes → bytes.length = 256 →
    s.agenda = .write 0x00 0x08 :: (bootOpeningTurns reply ++ countdownTurns bytes ++ bootClosingTurns ++ rest) →
    ∃ t, Reaches s t ∧ t.agenda = rest ∧ t.ph = .idle ∧ t.busy = false ∧ t.done = true ∧ t.err = false ∧
      t.res = decide (reply = s.cfg.codes.bootOk ∧ bytes = countdownBytes) ∧
      t.hs = (if reply = s.cfg.codes.bootOk ∧ bytes = countdownBytes then .success else .failure) ∧
      t.txlog = s.txlog ++ countUpBytes ++ [s.cfg.codes.bootReq,
        if reply = s.cfg.codes.bootOk ∧ bytes = countdownBytes then s.cfg.codes.ok else s.cfg.codes.abort] ∧
      t.rxlog = s.rxlog ++ reply :: bytes ∧ t.iem = s.iem ∧ t.gie = true ∧ t.mode = .rxExt ∧
      t.rxbuf = s.rxbuf ∧ t.txbuf = s.txbuf ∧ t.rxlen = s.rxlen ∧ t.txlen = s.txlen

/-- 43_boot_handshake.md R190: with `HS_STOP_ON_MISMATCH`, the first wrong countdown byte, at position `k`, ends the loop: `k + 1` bytes
are consumed, `CODE_ABORT` is sent, `RES = 0`, `HS = 11`. -/
def Obligations.BootStopsAtMismatch : Prop :=
  ∀ (s : State) (reply wrong : Byte) (k : Nat) (rest : List Turn), irqEnabled s = false → s.cfg.wf = true → s.busy = false →
    s.cfg.hsStopOnMismatch = true → k < 256 → wrong.toNat ≠ 255 - k →
    s.agenda = .write 0x00 0x08 :: (bootOpeningTurns reply ++ countdownTurns (countdownBytes.take k) ++
      (seqTurns 1 ++ waitTurns 0 wrong ++ seqTurns 1) ++ bootClosingTurns ++ rest) →
    ∃ t, Reaches s t ∧ t.agenda = rest ∧ t.ph = .idle ∧ t.busy = false ∧ t.done = true ∧ t.res = false ∧ t.hs = .failure ∧
      t.txlog = s.txlog ++ countUpBytes ++ [s.cfg.codes.bootReq, s.cfg.codes.abort] ∧
      t.rxlog = s.rxlog ++ reply :: (countdownBytes.take k ++ [wrong]) ∧ t.iem = s.iem
end

