-- ==== Sys2Proof/Laws/State.lean ====
section
/-! SUPPORT. One lemma per field per named update of the state, each true by unfolding the update once, so that no later proof does. -/

namespace Sys2Proof.Machine

/-! ### goTo -/

@[simp] theorem goTo_iem (l : Label) (s : State) : (s.goTo l).iem = s.iem := rfl
@[simp] theorem goTo_rxf (l : Label) (s : State) : (s.goTo l).rxf = s.rxf := rfl
@[simp] theorem goTo_rxb (l : Label) (s : State) : (s.goTo l).rxb = s.rxb := rfl
@[simp] theorem goTo_ifl (l : Label) (s : State) : (s.goTo l).ifl = s.ifl := rfl
@[simp] theorem goTo_gie (l : Label) (s : State) : (s.goTo l).gie = s.gie := rfl
@[simp] theorem goTo_mode (l : Label) (s : State) : (s.goTo l).mode = s.mode := rfl
@[simp] theorem goTo_sdr (l : Label) (s : State) : (s.goTo l).sdr = s.sdr := rfl
@[simp] theorem goTo_rxbuf (l : Label) (s : State) : (s.goTo l).rxbuf = s.rxbuf := rfl
@[simp] theorem goTo_rxlen (l : Label) (s : State) : (s.goTo l).rxlen = s.rxlen := rfl
@[simp] theorem goTo_txbuf (l : Label) (s : State) : (s.goTo l).txbuf = s.txbuf := rfl
@[simp] theorem goTo_txlen (l : Label) (s : State) : (s.goTo l).txlen = s.txlen := rfl
@[simp] theorem goTo_opc (l : Label) (s : State) : (s.goTo l).opc = s.opc := rfl
@[simp] theorem goTo_argA (l : Label) (s : State) : (s.goTo l).argA = s.argA := rfl
@[simp] theorem goTo_argB (l : Label) (s : State) : (s.goTo l).argB = s.argB := rfl
@[simp] theorem goTo_argC (l : Label) (s : State) : (s.goTo l).argC = s.argC := rfl
@[simp] theorem goTo_busy (l : Label) (s : State) : (s.goTo l).busy = s.busy := rfl
@[simp] theorem goTo_done (l : Label) (s : State) : (s.goTo l).done = s.done := rfl
@[simp] theorem goTo_res (l : Label) (s : State) : (s.goTo l).res = s.res := rfl
@[simp] theorem goTo_err (l : Label) (s : State) : (s.goTo l).err = s.err := rfl
@[simp] theorem goTo_hs (l : Label) (s : State) : (s.goTo l).hs = s.hs := rfl
@[simp] theorem goTo_ph (l : Label) (s : State) : (s.goTo l).ph = .run l s.ph.rets := rfl
@[simp] theorem goTo_opl (l : Label) (s : State) : (s.goTo l).opl = s.opl := rfl
@[simp] theorem goTo_la (l : Label) (s : State) : (s.goTo l).la = s.la := rfl
@[simp] theorem goTo_lb (l : Label) (s : State) : (s.goTo l).lb = s.lb := rfl
@[simp] theorem goTo_lc (l : Label) (s : State) : (s.goTo l).lc = s.lc := rfl
@[simp] theorem goTo_acc (l : Label) (s : State) : (s.goTo l).acc = s.acc := rfl
@[simp] theorem goTo_cnt (l : Label) (s : State) : (s.goTo l).cnt = s.cnt := rfl
@[simp] theorem goTo_idx (l : Label) (s : State) : (s.goTo l).idx = s.idx := rfl
@[simp] theorem goTo_expv (l : Label) (s : State) : (s.goTo l).expv = s.expv := rfl
@[simp] theorem goTo_plen (l : Label) (s : State) : (s.goTo l).plen = s.plen := rfl
@[simp] theorem goTo_cks (l : Label) (s : State) : (s.goTo l).cks = s.cks := rfl
@[simp] theorem goTo_saved (l : Label) (s : State) : (s.goTo l).saved = s.saved := rfl
@[simp] theorem goTo_failf (l : Label) (s : State) : (s.goTo l).failf = s.failf := rfl
@[simp] theorem goTo_tu (l : Label) (s : State) : (s.goTo l).tu = s.tu := rfl
@[simp] theorem goTo_ts (l : Label) (s : State) : (s.goTo l).ts = s.ts := rfl
@[simp] theorem goTo_wok (l : Label) (s : State) : (s.goTo l).wok = s.wok := rfl
@[simp] theorem goTo_resv (l : Label) (s : State) : (s.goTo l).resv = s.resv := rfl
@[simp] theorem goTo_expAck (l : Label) (s : State) : (s.goTo l).expAck = s.expAck := rfl
@[simp] theorem goTo_txlog (l : Label) (s : State) : (s.goTo l).txlog = s.txlog := rfl
@[simp] theorem goTo_rxlog (l : Label) (s : State) : (s.goTo l).rxlog = s.rxlog := rfl
@[simp] theorem goTo_draws (l : Label) (s : State) : (s.goTo l).draws = s.draws := rfl
@[simp] theorem goTo_agenda (l : Label) (s : State) : (s.goTo l).agenda = s.agenda := rfl
@[simp] theorem goTo_cfg (l : Label) (s : State) : (s.goTo l).cfg = s.cfg := rfl

/-! ### call -/

@[simp] theorem call_iem (entry back : Label) (s : State) : (s.call entry back).iem = s.iem := rfl
@[simp] theorem call_rxf (entry back : Label) (s : State) : (s.call entry back).rxf = s.rxf := rfl
@[simp] theorem call_rxb (entry back : Label) (s : State) : (s.call entry back).rxb = s.rxb := rfl
@[simp] theorem call_ifl (entry back : Label) (s : State) : (s.call entry back).ifl = s.ifl := rfl
@[simp] theorem call_gie (entry back : Label) (s : State) : (s.call entry back).gie = s.gie := rfl
@[simp] theorem call_mode (entry back : Label) (s : State) : (s.call entry back).mode = s.mode := rfl
@[simp] theorem call_sdr (entry back : Label) (s : State) : (s.call entry back).sdr = s.sdr := rfl
@[simp] theorem call_rxbuf (entry back : Label) (s : State) : (s.call entry back).rxbuf = s.rxbuf := rfl
@[simp] theorem call_rxlen (entry back : Label) (s : State) : (s.call entry back).rxlen = s.rxlen := rfl
@[simp] theorem call_txbuf (entry back : Label) (s : State) : (s.call entry back).txbuf = s.txbuf := rfl
@[simp] theorem call_txlen (entry back : Label) (s : State) : (s.call entry back).txlen = s.txlen := rfl
@[simp] theorem call_opc (entry back : Label) (s : State) : (s.call entry back).opc = s.opc := rfl
@[simp] theorem call_argA (entry back : Label) (s : State) : (s.call entry back).argA = s.argA := rfl
@[simp] theorem call_argB (entry back : Label) (s : State) : (s.call entry back).argB = s.argB := rfl
@[simp] theorem call_argC (entry back : Label) (s : State) : (s.call entry back).argC = s.argC := rfl
@[simp] theorem call_busy (entry back : Label) (s : State) : (s.call entry back).busy = s.busy := rfl
@[simp] theorem call_done (entry back : Label) (s : State) : (s.call entry back).done = s.done := rfl
@[simp] theorem call_res (entry back : Label) (s : State) : (s.call entry back).res = s.res := rfl
@[simp] theorem call_err (entry back : Label) (s : State) : (s.call entry back).err = s.err := rfl
@[simp] theorem call_hs (entry back : Label) (s : State) : (s.call entry back).hs = s.hs := rfl
@[simp] theorem call_ph (entry back : Label) (s : State) : (s.call entry back).ph = .run entry (back :: s.ph.rets) := rfl
@[simp] theorem call_opl (entry back : Label) (s : State) : (s.call entry back).opl = s.opl := rfl
@[simp] theorem call_la (entry back : Label) (s : State) : (s.call entry back).la = s.la := rfl
@[simp] theorem call_lb (entry back : Label) (s : State) : (s.call entry back).lb = s.lb := rfl
@[simp] theorem call_lc (entry back : Label) (s : State) : (s.call entry back).lc = s.lc := rfl
@[simp] theorem call_acc (entry back : Label) (s : State) : (s.call entry back).acc = s.acc := rfl
@[simp] theorem call_cnt (entry back : Label) (s : State) : (s.call entry back).cnt = s.cnt := rfl
@[simp] theorem call_idx (entry back : Label) (s : State) : (s.call entry back).idx = s.idx := rfl
@[simp] theorem call_expv (entry back : Label) (s : State) : (s.call entry back).expv = s.expv := rfl
@[simp] theorem call_plen (entry back : Label) (s : State) : (s.call entry back).plen = s.plen := rfl
@[simp] theorem call_cks (entry back : Label) (s : State) : (s.call entry back).cks = s.cks := rfl
@[simp] theorem call_saved (entry back : Label) (s : State) : (s.call entry back).saved = s.saved := rfl
@[simp] theorem call_failf (entry back : Label) (s : State) : (s.call entry back).failf = s.failf := rfl
@[simp] theorem call_tu (entry back : Label) (s : State) : (s.call entry back).tu = s.tu := rfl
@[simp] theorem call_ts (entry back : Label) (s : State) : (s.call entry back).ts = s.ts := rfl
@[simp] theorem call_wok (entry back : Label) (s : State) : (s.call entry back).wok = s.wok := rfl
@[simp] theorem call_resv (entry back : Label) (s : State) : (s.call entry back).resv = s.resv := rfl
@[simp] theorem call_expAck (entry back : Label) (s : State) : (s.call entry back).expAck = s.expAck := rfl
@[simp] theorem call_txlog (entry back : Label) (s : State) : (s.call entry back).txlog = s.txlog := rfl
@[simp] theorem call_rxlog (entry back : Label) (s : State) : (s.call entry back).rxlog = s.rxlog := rfl
@[simp] theorem call_draws (entry back : Label) (s : State) : (s.call entry back).draws = s.draws := rfl
@[simp] theorem call_agenda (entry back : Label) (s : State) : (s.call entry back).agenda = s.agenda := rfl
@[simp] theorem call_cfg (entry back : Label) (s : State) : (s.call entry back).cfg = s.cfg := rfl

/-! ### accept -/

@[simp] theorem accept_iem (o a b c : Byte) (entry : Label) (s : State) : (accept o a b c entry s).iem = s.iem := rfl
@[simp] theorem accept_rxf (o a b c : Byte) (entry : Label) (s : State) : (accept o a b c entry s).rxf = s.rxf := rfl
@[simp] theorem accept_rxb (o a b c : Byte) (entry : Label) (s : State) : (accept o a b c entry s).rxb = s.rxb := rfl
@[simp] theorem accept_ifl (o a b c : Byte) (entry : Label) (s : State) : (accept o a b c entry s).ifl = s.ifl := rfl
@[simp] theorem accept_gie (o a b c : Byte) (entry : Label) (s : State) : (accept o a b c entry s).gie = s.gie := rfl
@[simp] theorem accept_mode (o a b c : Byte) (entry : Label) (s : State) : (accept o a b c entry s).mode = s.mode := rfl
@[simp] theorem accept_sdr (o a b c : Byte) (entry : Label) (s : State) : (accept o a b c entry s).sdr = s.sdr := rfl
@[simp] theorem accept_rxbuf (o a b c : Byte) (entry : Label) (s : State) : (accept o a b c entry s).rxbuf = s.rxbuf := rfl
@[simp] theorem accept_rxlen (o a b c : Byte) (entry : Label) (s : State) : (accept o a b c entry s).rxlen = s.rxlen := rfl
@[simp] theorem accept_txbuf (o a b c : Byte) (entry : Label) (s : State) : (accept o a b c entry s).txbuf = s.txbuf := rfl
@[simp] theorem accept_txlen (o a b c : Byte) (entry : Label) (s : State) : (accept o a b c entry s).txlen = s.txlen := rfl
@[simp] theorem accept_opc (o a b c : Byte) (entry : Label) (s : State) : (accept o a b c entry s).opc = o := rfl
@[simp] theorem accept_argA (o a b c : Byte) (entry : Label) (s : State) : (accept o a b c entry s).argA = s.argA := rfl
@[simp] theorem accept_argB (o a b c : Byte) (entry : Label) (s : State) : (accept o a b c entry s).argB = s.argB := rfl
@[simp] theorem accept_argC (o a b c : Byte) (entry : Label) (s : State) : (accept o a b c entry s).argC = s.argC := rfl
@[simp] theorem accept_busy (o a b c : Byte) (entry : Label) (s : State) : (accept o a b c entry s).busy = true := rfl
@[simp] theorem accept_done (o a b c : Byte) (entry : Label) (s : State) : (accept o a b c entry s).done = false := rfl
@[simp] theorem accept_res (o a b c : Byte) (entry : Label) (s : State) : (accept o a b c entry s).res = false := rfl
@[simp] theorem accept_err (o a b c : Byte) (entry : Label) (s : State) : (accept o a b c entry s).err = false := rfl
@[simp] theorem accept_hs (o a b c : Byte) (entry : Label) (s : State) : (accept o a b c entry s).hs = s.hs := rfl
@[simp] theorem accept_ph (o a b c : Byte) (entry : Label) (s : State) : (accept o a b c entry s).ph = .run entry [] := rfl
@[simp] theorem accept_opl (o a b c : Byte) (entry : Label) (s : State) : (accept o a b c entry s).opl = o := rfl
@[simp] theorem accept_la (o a b c : Byte) (entry : Label) (s : State) : (accept o a b c entry s).la = a := rfl
@[simp] theorem accept_lb (o a b c : Byte) (entry : Label) (s : State) : (accept o a b c entry s).lb = b := rfl
@[simp] theorem accept_lc (o a b c : Byte) (entry : Label) (s : State) : (accept o a b c entry s).lc = c := rfl
@[simp] theorem accept_acc (o a b c : Byte) (entry : Label) (s : State) : (accept o a b c entry s).acc = s.acc := rfl
@[simp] theorem accept_cnt (o a b c : Byte) (entry : Label) (s : State) : (accept o a b c entry s).cnt = s.cnt := rfl
@[simp] theorem accept_idx (o a b c : Byte) (entry : Label) (s : State) : (accept o a b c entry s).idx = s.idx := rfl
@[simp] theorem accept_expv (o a b c : Byte) (entry : Label) (s : State) : (accept o a b c entry s).expv = s.expv := rfl
@[simp] theorem accept_plen (o a b c : Byte) (entry : Label) (s : State) : (accept o a b c entry s).plen = s.plen := rfl
@[simp] theorem accept_cks (o a b c : Byte) (entry : Label) (s : State) : (accept o a b c entry s).cks = s.cks := rfl
@[simp] theorem accept_saved (o a b c : Byte) (entry : Label) (s : State) : (accept o a b c entry s).saved = s.saved := rfl
@[simp] theorem accept_failf (o a b c : Byte) (entry : Label) (s : State) : (accept o a b c entry s).failf = s.failf := rfl
@[simp] theorem accept_tu (o a b c : Byte) (entry : Label) (s : State) : (accept o a b c entry s).tu = s.tu := rfl
@[simp] theorem accept_ts (o a b c : Byte) (entry : Label) (s : State) : (accept o a b c entry s).ts = s.ts := rfl
@[simp] theorem accept_wok (o a b c : Byte) (entry : Label) (s : State) : (accept o a b c entry s).wok = s.wok := rfl
@[simp] theorem accept_resv (o a b c : Byte) (entry : Label) (s : State) : (accept o a b c entry s).resv = s.resv := rfl
@[simp] theorem accept_expAck (o a b c : Byte) (entry : Label) (s : State) : (accept o a b c entry s).expAck = s.expAck := rfl
@[simp] theorem accept_txlog (o a b c : Byte) (entry : Label) (s : State) : (accept o a b c entry s).txlog = s.txlog := rfl
@[simp] theorem accept_rxlog (o a b c : Byte) (entry : Label) (s : State) : (accept o a b c entry s).rxlog = s.rxlog := rfl
@[simp] theorem accept_draws (o a b c : Byte) (entry : Label) (s : State) : (accept o a b c entry s).draws = s.draws := rfl
@[simp] theorem accept_agenda (o a b c : Byte) (entry : Label) (s : State) : (accept o a b c entry s).agenda = s.agenda := rfl
@[simp] theorem accept_cfg (o a b c : Byte) (entry : Label) (s : State) : (accept o a b c entry s).cfg = s.cfg := rfl

/-! ### refuseIssue -/

@[simp] theorem refuseIssue_iem (o : Byte) (s : State) : (refuseIssue o s).iem = s.iem := rfl
@[simp] theorem refuseIssue_rxf (o : Byte) (s : State) : (refuseIssue o s).rxf = s.rxf := rfl
@[simp] theorem refuseIssue_rxb (o : Byte) (s : State) : (refuseIssue o s).rxb = s.rxb := rfl
@[simp] theorem refuseIssue_ifl (o : Byte) (s : State) : (refuseIssue o s).ifl = s.ifl := rfl
@[simp] theorem refuseIssue_gie (o : Byte) (s : State) : (refuseIssue o s).gie = s.gie := rfl
@[simp] theorem refuseIssue_mode (o : Byte) (s : State) : (refuseIssue o s).mode = s.mode := rfl
@[simp] theorem refuseIssue_sdr (o : Byte) (s : State) : (refuseIssue o s).sdr = s.sdr := rfl
@[simp] theorem refuseIssue_rxbuf (o : Byte) (s : State) : (refuseIssue o s).rxbuf = s.rxbuf := rfl
@[simp] theorem refuseIssue_rxlen (o : Byte) (s : State) : (refuseIssue o s).rxlen = s.rxlen := rfl
@[simp] theorem refuseIssue_txbuf (o : Byte) (s : State) : (refuseIssue o s).txbuf = s.txbuf := rfl
@[simp] theorem refuseIssue_txlen (o : Byte) (s : State) : (refuseIssue o s).txlen = s.txlen := rfl
@[simp] theorem refuseIssue_opc (o : Byte) (s : State) : (refuseIssue o s).opc = o := rfl
@[simp] theorem refuseIssue_argA (o : Byte) (s : State) : (refuseIssue o s).argA = s.argA := rfl
@[simp] theorem refuseIssue_argB (o : Byte) (s : State) : (refuseIssue o s).argB = s.argB := rfl
@[simp] theorem refuseIssue_argC (o : Byte) (s : State) : (refuseIssue o s).argC = s.argC := rfl
@[simp] theorem refuseIssue_busy (o : Byte) (s : State) : (refuseIssue o s).busy = false := rfl
@[simp] theorem refuseIssue_done (o : Byte) (s : State) : (refuseIssue o s).done = true := rfl
@[simp] theorem refuseIssue_res (o : Byte) (s : State) : (refuseIssue o s).res = false := rfl
@[simp] theorem refuseIssue_err (o : Byte) (s : State) : (refuseIssue o s).err = true := rfl
@[simp] theorem refuseIssue_hs (o : Byte) (s : State) : (refuseIssue o s).hs = s.hs := rfl
@[simp] theorem refuseIssue_ph (o : Byte) (s : State) : (refuseIssue o s).ph = s.ph := rfl
@[simp] theorem refuseIssue_opl (o : Byte) (s : State) : (refuseIssue o s).opl = s.opl := rfl
@[simp] theorem refuseIssue_la (o : Byte) (s : State) : (refuseIssue o s).la = s.la := rfl
@[simp] theorem refuseIssue_lb (o : Byte) (s : State) : (refuseIssue o s).lb = s.lb := rfl
@[simp] theorem refuseIssue_lc (o : Byte) (s : State) : (refuseIssue o s).lc = s.lc := rfl
@[simp] theorem refuseIssue_acc (o : Byte) (s : State) : (refuseIssue o s).acc = s.acc := rfl
@[simp] theorem refuseIssue_cnt (o : Byte) (s : State) : (refuseIssue o s).cnt = s.cnt := rfl
@[simp] theorem refuseIssue_idx (o : Byte) (s : State) : (refuseIssue o s).idx = s.idx := rfl
@[simp] theorem refuseIssue_expv (o : Byte) (s : State) : (refuseIssue o s).expv = s.expv := rfl
@[simp] theorem refuseIssue_plen (o : Byte) (s : State) : (refuseIssue o s).plen = s.plen := rfl
@[simp] theorem refuseIssue_cks (o : Byte) (s : State) : (refuseIssue o s).cks = s.cks := rfl
@[simp] theorem refuseIssue_saved (o : Byte) (s : State) : (refuseIssue o s).saved = s.saved := rfl
@[simp] theorem refuseIssue_failf (o : Byte) (s : State) : (refuseIssue o s).failf = s.failf := rfl
@[simp] theorem refuseIssue_tu (o : Byte) (s : State) : (refuseIssue o s).tu = s.tu := rfl
@[simp] theorem refuseIssue_ts (o : Byte) (s : State) : (refuseIssue o s).ts = s.ts := rfl
@[simp] theorem refuseIssue_wok (o : Byte) (s : State) : (refuseIssue o s).wok = s.wok := rfl
@[simp] theorem refuseIssue_resv (o : Byte) (s : State) : (refuseIssue o s).resv = s.resv := rfl
@[simp] theorem refuseIssue_expAck (o : Byte) (s : State) : (refuseIssue o s).expAck = s.expAck := rfl
@[simp] theorem refuseIssue_txlog (o : Byte) (s : State) : (refuseIssue o s).txlog = s.txlog := rfl
@[simp] theorem refuseIssue_rxlog (o : Byte) (s : State) : (refuseIssue o s).rxlog = s.rxlog := rfl
@[simp] theorem refuseIssue_draws (o : Byte) (s : State) : (refuseIssue o s).draws = s.draws := rfl
@[simp] theorem refuseIssue_agenda (o : Byte) (s : State) : (refuseIssue o s).agenda = s.agenda := rfl
@[simp] theorem refuseIssue_cfg (o : Byte) (s : State) : (refuseIssue o s).cfg = s.cfg := rfl

/-! ### complete -/

@[simp] theorem complete_iem (v : Bool) (s : State) : (complete v s).iem = s.iem := rfl
@[simp] theorem complete_rxf (v : Bool) (s : State) : (complete v s).rxf = s.rxf := rfl
@[simp] theorem complete_rxb (v : Bool) (s : State) : (complete v s).rxb = s.rxb := rfl
@[simp] theorem complete_ifl (v : Bool) (s : State) : (complete v s).ifl = s.ifl := rfl
@[simp] theorem complete_gie (v : Bool) (s : State) : (complete v s).gie = s.gie := rfl
@[simp] theorem complete_mode (v : Bool) (s : State) : (complete v s).mode = s.mode := rfl
@[simp] theorem complete_sdr (v : Bool) (s : State) : (complete v s).sdr = s.sdr := rfl
@[simp] theorem complete_rxbuf (v : Bool) (s : State) : (complete v s).rxbuf = s.rxbuf := rfl
@[simp] theorem complete_rxlen (v : Bool) (s : State) : (complete v s).rxlen = s.rxlen := rfl
@[simp] theorem complete_txbuf (v : Bool) (s : State) : (complete v s).txbuf = s.txbuf := rfl
@[simp] theorem complete_txlen (v : Bool) (s : State) : (complete v s).txlen = s.txlen := rfl
@[simp] theorem complete_opc (v : Bool) (s : State) : (complete v s).opc = s.opc := rfl
@[simp] theorem complete_argA (v : Bool) (s : State) : (complete v s).argA = s.argA := rfl
@[simp] theorem complete_argB (v : Bool) (s : State) : (complete v s).argB = s.argB := rfl
@[simp] theorem complete_argC (v : Bool) (s : State) : (complete v s).argC = s.argC := rfl
@[simp] theorem complete_busy (v : Bool) (s : State) : (complete v s).busy = false := rfl
@[simp] theorem complete_done (v : Bool) (s : State) : (complete v s).done = true := rfl
@[simp] theorem complete_res (v : Bool) (s : State) : (complete v s).res = v := rfl
@[simp] theorem complete_err (v : Bool) (s : State) : (complete v s).err = s.err := rfl
@[simp] theorem complete_hs (v : Bool) (s : State) : (complete v s).hs = s.hs := rfl
@[simp] theorem complete_ph (v : Bool) (s : State) : (complete v s).ph = .idle := rfl
@[simp] theorem complete_opl (v : Bool) (s : State) : (complete v s).opl = s.opl := rfl
@[simp] theorem complete_la (v : Bool) (s : State) : (complete v s).la = s.la := rfl
@[simp] theorem complete_lb (v : Bool) (s : State) : (complete v s).lb = s.lb := rfl
@[simp] theorem complete_lc (v : Bool) (s : State) : (complete v s).lc = s.lc := rfl
@[simp] theorem complete_acc (v : Bool) (s : State) : (complete v s).acc = s.acc := rfl
@[simp] theorem complete_cnt (v : Bool) (s : State) : (complete v s).cnt = s.cnt := rfl
@[simp] theorem complete_idx (v : Bool) (s : State) : (complete v s).idx = s.idx := rfl
@[simp] theorem complete_expv (v : Bool) (s : State) : (complete v s).expv = s.expv := rfl
@[simp] theorem complete_plen (v : Bool) (s : State) : (complete v s).plen = s.plen := rfl
@[simp] theorem complete_cks (v : Bool) (s : State) : (complete v s).cks = s.cks := rfl
@[simp] theorem complete_saved (v : Bool) (s : State) : (complete v s).saved = s.saved := rfl
@[simp] theorem complete_failf (v : Bool) (s : State) : (complete v s).failf = s.failf := rfl
@[simp] theorem complete_tu (v : Bool) (s : State) : (complete v s).tu = s.tu := rfl
@[simp] theorem complete_ts (v : Bool) (s : State) : (complete v s).ts = s.ts := rfl
@[simp] theorem complete_wok (v : Bool) (s : State) : (complete v s).wok = s.wok := rfl
@[simp] theorem complete_resv (v : Bool) (s : State) : (complete v s).resv = s.resv := rfl
@[simp] theorem complete_expAck (v : Bool) (s : State) : (complete v s).expAck = s.expAck := rfl
@[simp] theorem complete_txlog (v : Bool) (s : State) : (complete v s).txlog = s.txlog := rfl
@[simp] theorem complete_rxlog (v : Bool) (s : State) : (complete v s).rxlog = s.rxlog := rfl
@[simp] theorem complete_draws (v : Bool) (s : State) : (complete v s).draws = s.draws := rfl
@[simp] theorem complete_agenda (v : Bool) (s : State) : (complete v s).agenda = s.agenda := rfl
@[simp] theorem complete_cfg (v : Bool) (s : State) : (complete v s).cfg = s.cfg := rfl

/-! ### transmit -/

@[simp] theorem transmit_iem (b : Byte) (s : State) : (transmit b s).iem = s.iem := rfl
@[simp] theorem transmit_rxf (b : Byte) (s : State) : (transmit b s).rxf = s.rxf := rfl
@[simp] theorem transmit_rxb (b : Byte) (s : State) : (transmit b s).rxb = s.rxb := rfl
@[simp] theorem transmit_ifl (b : Byte) (s : State) : (transmit b s).ifl = (s.ifl || s.cfg.txSetsPending) := rfl
@[simp] theorem transmit_gie (b : Byte) (s : State) : (transmit b s).gie = s.gie := rfl
@[simp] theorem transmit_mode (b : Byte) (s : State) : (transmit b s).mode = s.mode := rfl
@[simp] theorem transmit_sdr (b : Byte) (s : State) : (transmit b s).sdr = Config.freeByte s.draws := rfl
@[simp] theorem transmit_rxbuf (b : Byte) (s : State) : (transmit b s).rxbuf = s.rxbuf := rfl
@[simp] theorem transmit_rxlen (b : Byte) (s : State) : (transmit b s).rxlen = s.rxlen := rfl
@[simp] theorem transmit_txbuf (b : Byte) (s : State) : (transmit b s).txbuf = s.txbuf := rfl
@[simp] theorem transmit_txlen (b : Byte) (s : State) : (transmit b s).txlen = s.txlen := rfl
@[simp] theorem transmit_opc (b : Byte) (s : State) : (transmit b s).opc = s.opc := rfl
@[simp] theorem transmit_argA (b : Byte) (s : State) : (transmit b s).argA = s.argA := rfl
@[simp] theorem transmit_argB (b : Byte) (s : State) : (transmit b s).argB = s.argB := rfl
@[simp] theorem transmit_argC (b : Byte) (s : State) : (transmit b s).argC = s.argC := rfl
@[simp] theorem transmit_busy (b : Byte) (s : State) : (transmit b s).busy = s.busy := rfl
@[simp] theorem transmit_done (b : Byte) (s : State) : (transmit b s).done = s.done := rfl
@[simp] theorem transmit_res (b : Byte) (s : State) : (transmit b s).res = s.res := rfl
@[simp] theorem transmit_err (b : Byte) (s : State) : (transmit b s).err = s.err := rfl
@[simp] theorem transmit_hs (b : Byte) (s : State) : (transmit b s).hs = s.hs := rfl
@[simp] theorem transmit_ph (b : Byte) (s : State) : (transmit b s).ph = s.ph := rfl
@[simp] theorem transmit_opl (b : Byte) (s : State) : (transmit b s).opl = s.opl := rfl
@[simp] theorem transmit_la (b : Byte) (s : State) : (transmit b s).la = s.la := rfl
@[simp] theorem transmit_lb (b : Byte) (s : State) : (transmit b s).lb = s.lb := rfl
@[simp] theorem transmit_lc (b : Byte) (s : State) : (transmit b s).lc = s.lc := rfl
@[simp] theorem transmit_acc (b : Byte) (s : State) : (transmit b s).acc = s.acc := rfl
@[simp] theorem transmit_cnt (b : Byte) (s : State) : (transmit b s).cnt = s.cnt := rfl
@[simp] theorem transmit_idx (b : Byte) (s : State) : (transmit b s).idx = s.idx := rfl
@[simp] theorem transmit_expv (b : Byte) (s : State) : (transmit b s).expv = s.expv := rfl
@[simp] theorem transmit_plen (b : Byte) (s : State) : (transmit b s).plen = s.plen := rfl
@[simp] theorem transmit_cks (b : Byte) (s : State) : (transmit b s).cks = s.cks := rfl
@[simp] theorem transmit_saved (b : Byte) (s : State) : (transmit b s).saved = s.saved := rfl
@[simp] theorem transmit_failf (b : Byte) (s : State) : (transmit b s).failf = s.failf := rfl
@[simp] theorem transmit_tu (b : Byte) (s : State) : (transmit b s).tu = s.tu := rfl
@[simp] theorem transmit_ts (b : Byte) (s : State) : (transmit b s).ts = s.ts := rfl
@[simp] theorem transmit_wok (b : Byte) (s : State) : (transmit b s).wok = s.wok := rfl
@[simp] theorem transmit_resv (b : Byte) (s : State) : (transmit b s).resv = s.resv := rfl
@[simp] theorem transmit_expAck (b : Byte) (s : State) : (transmit b s).expAck = s.expAck := rfl
@[simp] theorem transmit_txlog (b : Byte) (s : State) : (transmit b s).txlog = s.txlog ++ [b] := rfl
@[simp] theorem transmit_rxlog (b : Byte) (s : State) : (transmit b s).rxlog = s.rxlog := rfl
@[simp] theorem transmit_draws (b : Byte) (s : State) : (transmit b s).draws = s.draws + 1 := rfl
@[simp] theorem transmit_agenda (b : Byte) (s : State) : (transmit b s).agenda = s.agenda := rfl
@[simp] theorem transmit_cfg (b : Byte) (s : State) : (transmit b s).cfg = s.cfg := rfl

/-! ### irqStep -/

@[simp] theorem irqStep_iem (s : State) : (irqStep s).iem = clearLinkBit s.cfg s.iem := rfl
@[simp] theorem irqStep_rxf (s : State) : (irqStep s).rxf = true := rfl
@[simp] theorem irqStep_rxb (s : State) : (irqStep s).rxb = s.sdr := rfl
@[simp] theorem irqStep_ifl (s : State) : (irqStep s).ifl = false := rfl
@[simp] theorem irqStep_gie (s : State) : (irqStep s).gie = s.gie := rfl
@[simp] theorem irqStep_mode (s : State) : (irqStep s).mode = s.mode := rfl
@[simp] theorem irqStep_sdr (s : State) : (irqStep s).sdr = s.sdr := rfl
@[simp] theorem irqStep_rxbuf (s : State) : (irqStep s).rxbuf = s.rxbuf := rfl
@[simp] theorem irqStep_rxlen (s : State) : (irqStep s).rxlen = s.rxlen := rfl
@[simp] theorem irqStep_txbuf (s : State) : (irqStep s).txbuf = s.txbuf := rfl
@[simp] theorem irqStep_txlen (s : State) : (irqStep s).txlen = s.txlen := rfl
@[simp] theorem irqStep_opc (s : State) : (irqStep s).opc = s.opc := rfl
@[simp] theorem irqStep_argA (s : State) : (irqStep s).argA = s.argA := rfl
@[simp] theorem irqStep_argB (s : State) : (irqStep s).argB = s.argB := rfl
@[simp] theorem irqStep_argC (s : State) : (irqStep s).argC = s.argC := rfl
@[simp] theorem irqStep_busy (s : State) : (irqStep s).busy = s.busy := rfl
@[simp] theorem irqStep_done (s : State) : (irqStep s).done = s.done := rfl
@[simp] theorem irqStep_res (s : State) : (irqStep s).res = s.res := rfl
@[simp] theorem irqStep_err (s : State) : (irqStep s).err = s.err := rfl
@[simp] theorem irqStep_hs (s : State) : (irqStep s).hs = s.hs := rfl
@[simp] theorem irqStep_ph (s : State) : (irqStep s).ph = s.ph := rfl
@[simp] theorem irqStep_opl (s : State) : (irqStep s).opl = s.opl := rfl
@[simp] theorem irqStep_la (s : State) : (irqStep s).la = s.la := rfl
@[simp] theorem irqStep_lb (s : State) : (irqStep s).lb = s.lb := rfl
@[simp] theorem irqStep_lc (s : State) : (irqStep s).lc = s.lc := rfl
@[simp] theorem irqStep_acc (s : State) : (irqStep s).acc = s.acc := rfl
@[simp] theorem irqStep_cnt (s : State) : (irqStep s).cnt = s.cnt := rfl
@[simp] theorem irqStep_idx (s : State) : (irqStep s).idx = s.idx := rfl
@[simp] theorem irqStep_expv (s : State) : (irqStep s).expv = s.expv := rfl
@[simp] theorem irqStep_plen (s : State) : (irqStep s).plen = s.plen := rfl
@[simp] theorem irqStep_cks (s : State) : (irqStep s).cks = s.cks := rfl
@[simp] theorem irqStep_saved (s : State) : (irqStep s).saved = s.saved := rfl
@[simp] theorem irqStep_failf (s : State) : (irqStep s).failf = s.failf := rfl
@[simp] theorem irqStep_tu (s : State) : (irqStep s).tu = s.tu := rfl
@[simp] theorem irqStep_ts (s : State) : (irqStep s).ts = s.ts := rfl
@[simp] theorem irqStep_wok (s : State) : (irqStep s).wok = s.wok := rfl
@[simp] theorem irqStep_resv (s : State) : (irqStep s).resv = s.resv := rfl
@[simp] theorem irqStep_expAck (s : State) : (irqStep s).expAck = s.expAck := rfl
@[simp] theorem irqStep_txlog (s : State) : (irqStep s).txlog = s.txlog := rfl
@[simp] theorem irqStep_rxlog (s : State) : (irqStep s).rxlog = s.rxlog := rfl
@[simp] theorem irqStep_draws (s : State) : (irqStep s).draws = s.draws := rfl
@[simp] theorem irqStep_agenda (s : State) : (irqStep s).agenda = s.agenda := rfl
@[simp] theorem irqStep_cfg (s : State) : (irqStep s).cfg = s.cfg := rfl

/-! ### saveMask -/

@[simp] theorem saveMask_iem (s : State) : (saveMask s).iem = s.iem := rfl
@[simp] theorem saveMask_rxf (s : State) : (saveMask s).rxf = s.rxf := rfl
@[simp] theorem saveMask_rxb (s : State) : (saveMask s).rxb = s.rxb := rfl
@[simp] theorem saveMask_ifl (s : State) : (saveMask s).ifl = s.ifl := rfl
@[simp] theorem saveMask_gie (s : State) : (saveMask s).gie = s.gie := rfl
@[simp] theorem saveMask_mode (s : State) : (saveMask s).mode = s.mode := rfl
@[simp] theorem saveMask_sdr (s : State) : (saveMask s).sdr = s.sdr := rfl
@[simp] theorem saveMask_rxbuf (s : State) : (saveMask s).rxbuf = s.rxbuf := rfl
@[simp] theorem saveMask_rxlen (s : State) : (saveMask s).rxlen = s.rxlen := rfl
@[simp] theorem saveMask_txbuf (s : State) : (saveMask s).txbuf = s.txbuf := rfl
@[simp] theorem saveMask_txlen (s : State) : (saveMask s).txlen = s.txlen := rfl
@[simp] theorem saveMask_opc (s : State) : (saveMask s).opc = s.opc := rfl
@[simp] theorem saveMask_argA (s : State) : (saveMask s).argA = s.argA := rfl
@[simp] theorem saveMask_argB (s : State) : (saveMask s).argB = s.argB := rfl
@[simp] theorem saveMask_argC (s : State) : (saveMask s).argC = s.argC := rfl
@[simp] theorem saveMask_busy (s : State) : (saveMask s).busy = s.busy := rfl
@[simp] theorem saveMask_done (s : State) : (saveMask s).done = s.done := rfl
@[simp] theorem saveMask_res (s : State) : (saveMask s).res = s.res := rfl
@[simp] theorem saveMask_err (s : State) : (saveMask s).err = s.err := rfl
@[simp] theorem saveMask_hs (s : State) : (saveMask s).hs = s.hs := rfl
@[simp] theorem saveMask_ph (s : State) : (saveMask s).ph = s.ph := rfl
@[simp] theorem saveMask_opl (s : State) : (saveMask s).opl = s.opl := rfl
@[simp] theorem saveMask_la (s : State) : (saveMask s).la = s.la := rfl
@[simp] theorem saveMask_lb (s : State) : (saveMask s).lb = s.lb := rfl
@[simp] theorem saveMask_lc (s : State) : (saveMask s).lc = s.lc := rfl
@[simp] theorem saveMask_acc (s : State) : (saveMask s).acc = s.acc := rfl
@[simp] theorem saveMask_cnt (s : State) : (saveMask s).cnt = s.cnt := rfl
@[simp] theorem saveMask_idx (s : State) : (saveMask s).idx = s.idx := rfl
@[simp] theorem saveMask_expv (s : State) : (saveMask s).expv = s.expv := rfl
@[simp] theorem saveMask_plen (s : State) : (saveMask s).plen = s.plen := rfl
@[simp] theorem saveMask_cks (s : State) : (saveMask s).cks = s.cks := rfl
@[simp] theorem saveMask_saved (s : State) : (saveMask s).saved = s.iem := rfl
@[simp] theorem saveMask_failf (s : State) : (saveMask s).failf = s.failf := rfl
@[simp] theorem saveMask_tu (s : State) : (saveMask s).tu = s.tu := rfl
@[simp] theorem saveMask_ts (s : State) : (saveMask s).ts = s.ts := rfl
@[simp] theorem saveMask_wok (s : State) : (saveMask s).wok = s.wok := rfl
@[simp] theorem saveMask_resv (s : State) : (saveMask s).resv = s.resv := rfl
@[simp] theorem saveMask_expAck (s : State) : (saveMask s).expAck = s.expAck := rfl
@[simp] theorem saveMask_txlog (s : State) : (saveMask s).txlog = s.txlog := rfl
@[simp] theorem saveMask_rxlog (s : State) : (saveMask s).rxlog = s.rxlog := rfl
@[simp] theorem saveMask_draws (s : State) : (saveMask s).draws = s.draws := rfl
@[simp] theorem saveMask_agenda (s : State) : (saveMask s).agenda = s.agenda := rfl
@[simp] theorem saveMask_cfg (s : State) : (saveMask s).cfg = s.cfg := rfl

/-! ### restrictMask -/

@[simp] theorem restrictMask_iem (s : State) : (restrictMask s).iem = linkOnly s.cfg := rfl
@[simp] theorem restrictMask_rxf (s : State) : (restrictMask s).rxf = s.rxf := rfl
@[simp] theorem restrictMask_rxb (s : State) : (restrictMask s).rxb = s.rxb := rfl
@[simp] theorem restrictMask_ifl (s : State) : (restrictMask s).ifl = s.ifl := rfl
@[simp] theorem restrictMask_gie (s : State) : (restrictMask s).gie = s.gie := rfl
@[simp] theorem restrictMask_mode (s : State) : (restrictMask s).mode = s.mode := rfl
@[simp] theorem restrictMask_sdr (s : State) : (restrictMask s).sdr = s.sdr := rfl
@[simp] theorem restrictMask_rxbuf (s : State) : (restrictMask s).rxbuf = s.rxbuf := rfl
@[simp] theorem restrictMask_rxlen (s : State) : (restrictMask s).rxlen = s.rxlen := rfl
@[simp] theorem restrictMask_txbuf (s : State) : (restrictMask s).txbuf = s.txbuf := rfl
@[simp] theorem restrictMask_txlen (s : State) : (restrictMask s).txlen = s.txlen := rfl
@[simp] theorem restrictMask_opc (s : State) : (restrictMask s).opc = s.opc := rfl
@[simp] theorem restrictMask_argA (s : State) : (restrictMask s).argA = s.argA := rfl
@[simp] theorem restrictMask_argB (s : State) : (restrictMask s).argB = s.argB := rfl
@[simp] theorem restrictMask_argC (s : State) : (restrictMask s).argC = s.argC := rfl
@[simp] theorem restrictMask_busy (s : State) : (restrictMask s).busy = s.busy := rfl
@[simp] theorem restrictMask_done (s : State) : (restrictMask s).done = s.done := rfl
@[simp] theorem restrictMask_res (s : State) : (restrictMask s).res = s.res := rfl
@[simp] theorem restrictMask_err (s : State) : (restrictMask s).err = s.err := rfl
@[simp] theorem restrictMask_hs (s : State) : (restrictMask s).hs = s.hs := rfl
@[simp] theorem restrictMask_ph (s : State) : (restrictMask s).ph = s.ph := rfl
@[simp] theorem restrictMask_opl (s : State) : (restrictMask s).opl = s.opl := rfl
@[simp] theorem restrictMask_la (s : State) : (restrictMask s).la = s.la := rfl
@[simp] theorem restrictMask_lb (s : State) : (restrictMask s).lb = s.lb := rfl
@[simp] theorem restrictMask_lc (s : State) : (restrictMask s).lc = s.lc := rfl
@[simp] theorem restrictMask_acc (s : State) : (restrictMask s).acc = s.acc := rfl
@[simp] theorem restrictMask_cnt (s : State) : (restrictMask s).cnt = s.cnt := rfl
@[simp] theorem restrictMask_idx (s : State) : (restrictMask s).idx = s.idx := rfl
@[simp] theorem restrictMask_expv (s : State) : (restrictMask s).expv = s.expv := rfl
@[simp] theorem restrictMask_plen (s : State) : (restrictMask s).plen = s.plen := rfl
@[simp] theorem restrictMask_cks (s : State) : (restrictMask s).cks = s.cks := rfl
@[simp] theorem restrictMask_saved (s : State) : (restrictMask s).saved = s.saved := rfl
@[simp] theorem restrictMask_failf (s : State) : (restrictMask s).failf = s.failf := rfl
@[simp] theorem restrictMask_tu (s : State) : (restrictMask s).tu = s.tu := rfl
@[simp] theorem restrictMask_ts (s : State) : (restrictMask s).ts = s.ts := rfl
@[simp] theorem restrictMask_wok (s : State) : (restrictMask s).wok = s.wok := rfl
@[simp] theorem restrictMask_resv (s : State) : (restrictMask s).resv = s.resv := rfl
@[simp] theorem restrictMask_expAck (s : State) : (restrictMask s).expAck = s.expAck := rfl
@[simp] theorem restrictMask_txlog (s : State) : (restrictMask s).txlog = s.txlog := rfl
@[simp] theorem restrictMask_rxlog (s : State) : (restrictMask s).rxlog = s.rxlog := rfl
@[simp] theorem restrictMask_draws (s : State) : (restrictMask s).draws = s.draws := rfl
@[simp] theorem restrictMask_agenda (s : State) : (restrictMask s).agenda = s.agenda := rfl
@[simp] theorem restrictMask_cfg (s : State) : (restrictMask s).cfg = s.cfg := rfl

/-! ### restoreMask -/

@[simp] theorem restoreMask_iem (s : State) : (restoreMask s).iem = s.saved := rfl
@[simp] theorem restoreMask_rxf (s : State) : (restoreMask s).rxf = s.rxf := rfl
@[simp] theorem restoreMask_rxb (s : State) : (restoreMask s).rxb = s.rxb := rfl
@[simp] theorem restoreMask_ifl (s : State) : (restoreMask s).ifl = s.ifl := rfl
@[simp] theorem restoreMask_gie (s : State) : (restoreMask s).gie = s.gie := rfl
@[simp] theorem restoreMask_mode (s : State) : (restoreMask s).mode = s.mode := rfl
@[simp] theorem restoreMask_sdr (s : State) : (restoreMask s).sdr = s.sdr := rfl
@[simp] theorem restoreMask_rxbuf (s : State) : (restoreMask s).rxbuf = s.rxbuf := rfl
@[simp] theorem restoreMask_rxlen (s : State) : (restoreMask s).rxlen = s.rxlen := rfl
@[simp] theorem restoreMask_txbuf (s : State) : (restoreMask s).txbuf = s.txbuf := rfl
@[simp] theorem restoreMask_txlen (s : State) : (restoreMask s).txlen = s.txlen := rfl
@[simp] theorem restoreMask_opc (s : State) : (restoreMask s).opc = s.opc := rfl
@[simp] theorem restoreMask_argA (s : State) : (restoreMask s).argA = s.argA := rfl
@[simp] theorem restoreMask_argB (s : State) : (restoreMask s).argB = s.argB := rfl
@[simp] theorem restoreMask_argC (s : State) : (restoreMask s).argC = s.argC := rfl
@[simp] theorem restoreMask_busy (s : State) : (restoreMask s).busy = s.busy := rfl
@[simp] theorem restoreMask_done (s : State) : (restoreMask s).done = s.done := rfl
@[simp] theorem restoreMask_res (s : State) : (restoreMask s).res = s.res := rfl
@[simp] theorem restoreMask_err (s : State) : (restoreMask s).err = s.err := rfl
@[simp] theorem restoreMask_hs (s : State) : (restoreMask s).hs = s.hs := rfl
@[simp] theorem restoreMask_ph (s : State) : (restoreMask s).ph = s.ph := rfl
@[simp] theorem restoreMask_opl (s : State) : (restoreMask s).opl = s.opl := rfl
@[simp] theorem restoreMask_la (s : State) : (restoreMask s).la = s.la := rfl
@[simp] theorem restoreMask_lb (s : State) : (restoreMask s).lb = s.lb := rfl
@[simp] theorem restoreMask_lc (s : State) : (restoreMask s).lc = s.lc := rfl
@[simp] theorem restoreMask_acc (s : State) : (restoreMask s).acc = s.acc := rfl
@[simp] theorem restoreMask_cnt (s : State) : (restoreMask s).cnt = s.cnt := rfl
@[simp] theorem restoreMask_idx (s : State) : (restoreMask s).idx = s.idx := rfl
@[simp] theorem restoreMask_expv (s : State) : (restoreMask s).expv = s.expv := rfl
@[simp] theorem restoreMask_plen (s : State) : (restoreMask s).plen = s.plen := rfl
@[simp] theorem restoreMask_cks (s : State) : (restoreMask s).cks = s.cks := rfl
@[simp] theorem restoreMask_saved (s : State) : (restoreMask s).saved = s.saved := rfl
@[simp] theorem restoreMask_failf (s : State) : (restoreMask s).failf = s.failf := rfl
@[simp] theorem restoreMask_tu (s : State) : (restoreMask s).tu = s.tu := rfl
@[simp] theorem restoreMask_ts (s : State) : (restoreMask s).ts = s.ts := rfl
@[simp] theorem restoreMask_wok (s : State) : (restoreMask s).wok = s.wok := rfl
@[simp] theorem restoreMask_resv (s : State) : (restoreMask s).resv = s.resv := rfl
@[simp] theorem restoreMask_expAck (s : State) : (restoreMask s).expAck = s.expAck := rfl
@[simp] theorem restoreMask_txlog (s : State) : (restoreMask s).txlog = s.txlog := rfl
@[simp] theorem restoreMask_rxlog (s : State) : (restoreMask s).rxlog = s.rxlog := rfl
@[simp] theorem restoreMask_draws (s : State) : (restoreMask s).draws = s.draws := rfl
@[simp] theorem restoreMask_agenda (s : State) : (restoreMask s).agenda = s.agenda := rfl
@[simp] theorem restoreMask_cfg (s : State) : (restoreMask s).cfg = s.cfg := rfl

/-! ### writeLstat -/

@[simp] theorem writeLstat_iem (v : Byte) (s : State) : (writeLstat v s).iem = s.iem := rfl
@[simp] theorem writeLstat_rxf (v : Byte) (s : State) : (writeLstat v s).rxf = v.getLsbD 0 := rfl
@[simp] theorem writeLstat_rxb (v : Byte) (s : State) : (writeLstat v s).rxb = s.rxb := rfl
@[simp] theorem writeLstat_ifl (v : Byte) (s : State) : (writeLstat v s).ifl = s.ifl := rfl
@[simp] theorem writeLstat_gie (v : Byte) (s : State) : (writeLstat v s).gie = v.getLsbD 2 := rfl
@[simp] theorem writeLstat_mode (v : Byte) (s : State) : (writeLstat v s).mode = s.mode := rfl
@[simp] theorem writeLstat_sdr (v : Byte) (s : State) : (writeLstat v s).sdr = s.sdr := rfl
@[simp] theorem writeLstat_rxbuf (v : Byte) (s : State) : (writeLstat v s).rxbuf = s.rxbuf := rfl
@[simp] theorem writeLstat_rxlen (v : Byte) (s : State) : (writeLstat v s).rxlen = s.rxlen := rfl
@[simp] theorem writeLstat_txbuf (v : Byte) (s : State) : (writeLstat v s).txbuf = s.txbuf := rfl
@[simp] theorem writeLstat_txlen (v : Byte) (s : State) : (writeLstat v s).txlen = s.txlen := rfl
@[simp] theorem writeLstat_opc (v : Byte) (s : State) : (writeLstat v s).opc = s.opc := rfl
@[simp] theorem writeLstat_argA (v : Byte) (s : State) : (writeLstat v s).argA = s.argA := rfl
@[simp] theorem writeLstat_argB (v : Byte) (s : State) : (writeLstat v s).argB = s.argB := rfl
@[simp] theorem writeLstat_argC (v : Byte) (s : State) : (writeLstat v s).argC = s.argC := rfl
@[simp] theorem writeLstat_busy (v : Byte) (s : State) : (writeLstat v s).busy = s.busy := rfl
@[simp] theorem writeLstat_done (v : Byte) (s : State) : (writeLstat v s).done = s.done := rfl
@[simp] theorem writeLstat_res (v : Byte) (s : State) : (writeLstat v s).res = s.res := rfl
@[simp] theorem writeLstat_err (v : Byte) (s : State) : (writeLstat v s).err = s.err := rfl
@[simp] theorem writeLstat_hs (v : Byte) (s : State) : (writeLstat v s).hs = s.hs := rfl
@[simp] theorem writeLstat_ph (v : Byte) (s : State) : (writeLstat v s).ph = s.ph := rfl
@[simp] theorem writeLstat_opl (v : Byte) (s : State) : (writeLstat v s).opl = s.opl := rfl
@[simp] theorem writeLstat_la (v : Byte) (s : State) : (writeLstat v s).la = s.la := rfl
@[simp] theorem writeLstat_lb (v : Byte) (s : State) : (writeLstat v s).lb = s.lb := rfl
@[simp] theorem writeLstat_lc (v : Byte) (s : State) : (writeLstat v s).lc = s.lc := rfl
@[simp] theorem writeLstat_acc (v : Byte) (s : State) : (writeLstat v s).acc = s.acc := rfl
@[simp] theorem writeLstat_cnt (v : Byte) (s : State) : (writeLstat v s).cnt = s.cnt := rfl
@[simp] theorem writeLstat_idx (v : Byte) (s : State) : (writeLstat v s).idx = s.idx := rfl
@[simp] theorem writeLstat_expv (v : Byte) (s : State) : (writeLstat v s).expv = s.expv := rfl
@[simp] theorem writeLstat_plen (v : Byte) (s : State) : (writeLstat v s).plen = s.plen := rfl
@[simp] theorem writeLstat_cks (v : Byte) (s : State) : (writeLstat v s).cks = s.cks := rfl
@[simp] theorem writeLstat_saved (v : Byte) (s : State) : (writeLstat v s).saved = s.saved := rfl
@[simp] theorem writeLstat_failf (v : Byte) (s : State) : (writeLstat v s).failf = s.failf := rfl
@[simp] theorem writeLstat_tu (v : Byte) (s : State) : (writeLstat v s).tu = s.tu := rfl
@[simp] theorem writeLstat_ts (v : Byte) (s : State) : (writeLstat v s).ts = s.ts := rfl
@[simp] theorem writeLstat_wok (v : Byte) (s : State) : (writeLstat v s).wok = s.wok := rfl
@[simp] theorem writeLstat_resv (v : Byte) (s : State) : (writeLstat v s).resv = s.resv := rfl
@[simp] theorem writeLstat_expAck (v : Byte) (s : State) : (writeLstat v s).expAck = s.expAck := rfl
@[simp] theorem writeLstat_txlog (v : Byte) (s : State) : (writeLstat v s).txlog = s.txlog := rfl
@[simp] theorem writeLstat_rxlog (v : Byte) (s : State) : (writeLstat v s).rxlog = s.rxlog := rfl
@[simp] theorem writeLstat_draws (v : Byte) (s : State) : (writeLstat v s).draws = s.draws := rfl
@[simp] theorem writeLstat_agenda (v : Byte) (s : State) : (writeLstat v s).agenda = s.agenda := rfl
@[simp] theorem writeLstat_cfg (v : Byte) (s : State) : (writeLstat v s).cfg = s.cfg := rfl

/-! ### writeMask -/

@[simp] theorem writeMask_iem (v : Byte) (s : State) : (writeMask v s).iem = v &&& maskBits s.cfg := rfl
@[simp] theorem writeMask_rxf (v : Byte) (s : State) : (writeMask v s).rxf = s.rxf := rfl
@[simp] theorem writeMask_rxb (v : Byte) (s : State) : (writeMask v s).rxb = s.rxb := rfl
@[simp] theorem writeMask_ifl (v : Byte) (s : State) : (writeMask v s).ifl = s.ifl := rfl
@[simp] theorem writeMask_gie (v : Byte) (s : State) : (writeMask v s).gie = s.gie := rfl
@[simp] theorem writeMask_mode (v : Byte) (s : State) : (writeMask v s).mode = s.mode := rfl
@[simp] theorem writeMask_sdr (v : Byte) (s : State) : (writeMask v s).sdr = s.sdr := rfl
@[simp] theorem writeMask_rxbuf (v : Byte) (s : State) : (writeMask v s).rxbuf = s.rxbuf := rfl
@[simp] theorem writeMask_rxlen (v : Byte) (s : State) : (writeMask v s).rxlen = s.rxlen := rfl
@[simp] theorem writeMask_txbuf (v : Byte) (s : State) : (writeMask v s).txbuf = s.txbuf := rfl
@[simp] theorem writeMask_txlen (v : Byte) (s : State) : (writeMask v s).txlen = s.txlen := rfl
@[simp] theorem writeMask_opc (v : Byte) (s : State) : (writeMask v s).opc = s.opc := rfl
@[simp] theorem writeMask_argA (v : Byte) (s : State) : (writeMask v s).argA = s.argA := rfl
@[simp] theorem writeMask_argB (v : Byte) (s : State) : (writeMask v s).argB = s.argB := rfl
@[simp] theorem writeMask_argC (v : Byte) (s : State) : (writeMask v s).argC = s.argC := rfl
@[simp] theorem writeMask_busy (v : Byte) (s : State) : (writeMask v s).busy = s.busy := rfl
@[simp] theorem writeMask_done (v : Byte) (s : State) : (writeMask v s).done = s.done := rfl
@[simp] theorem writeMask_res (v : Byte) (s : State) : (writeMask v s).res = s.res := rfl
@[simp] theorem writeMask_err (v : Byte) (s : State) : (writeMask v s).err = s.err := rfl
@[simp] theorem writeMask_hs (v : Byte) (s : State) : (writeMask v s).hs = s.hs := rfl
@[simp] theorem writeMask_ph (v : Byte) (s : State) : (writeMask v s).ph = s.ph := rfl
@[simp] theorem writeMask_opl (v : Byte) (s : State) : (writeMask v s).opl = s.opl := rfl
@[simp] theorem writeMask_la (v : Byte) (s : State) : (writeMask v s).la = s.la := rfl
@[simp] theorem writeMask_lb (v : Byte) (s : State) : (writeMask v s).lb = s.lb := rfl
@[simp] theorem writeMask_lc (v : Byte) (s : State) : (writeMask v s).lc = s.lc := rfl
@[simp] theorem writeMask_acc (v : Byte) (s : State) : (writeMask v s).acc = s.acc := rfl
@[simp] theorem writeMask_cnt (v : Byte) (s : State) : (writeMask v s).cnt = s.cnt := rfl
@[simp] theorem writeMask_idx (v : Byte) (s : State) : (writeMask v s).idx = s.idx := rfl
@[simp] theorem writeMask_expv (v : Byte) (s : State) : (writeMask v s).expv = s.expv := rfl
@[simp] theorem writeMask_plen (v : Byte) (s : State) : (writeMask v s).plen = s.plen := rfl
@[simp] theorem writeMask_cks (v : Byte) (s : State) : (writeMask v s).cks = s.cks := rfl
@[simp] theorem writeMask_saved (v : Byte) (s : State) : (writeMask v s).saved = s.saved := rfl
@[simp] theorem writeMask_failf (v : Byte) (s : State) : (writeMask v s).failf = s.failf := rfl
@[simp] theorem writeMask_tu (v : Byte) (s : State) : (writeMask v s).tu = s.tu := rfl
@[simp] theorem writeMask_ts (v : Byte) (s : State) : (writeMask v s).ts = s.ts := rfl
@[simp] theorem writeMask_wok (v : Byte) (s : State) : (writeMask v s).wok = s.wok := rfl
@[simp] theorem writeMask_resv (v : Byte) (s : State) : (writeMask v s).resv = s.resv := rfl
@[simp] theorem writeMask_expAck (v : Byte) (s : State) : (writeMask v s).expAck = s.expAck := rfl
@[simp] theorem writeMask_txlog (v : Byte) (s : State) : (writeMask v s).txlog = s.txlog := rfl
@[simp] theorem writeMask_rxlog (v : Byte) (s : State) : (writeMask v s).rxlog = s.rxlog := rfl
@[simp] theorem writeMask_draws (v : Byte) (s : State) : (writeMask v s).draws = s.draws := rfl
@[simp] theorem writeMask_agenda (v : Byte) (s : State) : (writeMask v s).agenda = s.agenda := rfl
@[simp] theorem writeMask_cfg (v : Byte) (s : State) : (writeMask v s).cfg = s.cfg := rfl

/-! ### appendByte -/

@[simp] theorem appendByte_iem (s : State) : (appendByte s).iem = s.iem := rfl
@[simp] theorem appendByte_rxf (s : State) : (appendByte s).rxf = s.rxf := rfl
@[simp] theorem appendByte_rxb (s : State) : (appendByte s).rxb = s.rxb := rfl
@[simp] theorem appendByte_ifl (s : State) : (appendByte s).ifl = s.ifl := rfl
@[simp] theorem appendByte_gie (s : State) : (appendByte s).gie = s.gie := rfl
@[simp] theorem appendByte_mode (s : State) : (appendByte s).mode = s.mode := rfl
@[simp] theorem appendByte_sdr (s : State) : (appendByte s).sdr = s.sdr := rfl
@[simp] theorem appendByte_rxbuf (s : State) : (appendByte s).rxbuf = s.rxbuf.write s.rxlen.toNat s.rxb := rfl
@[simp] theorem appendByte_rxlen (s : State) : (appendByte s).rxlen = s.rxlen + 1 := rfl
@[simp] theorem appendByte_txbuf (s : State) : (appendByte s).txbuf = s.txbuf := rfl
@[simp] theorem appendByte_txlen (s : State) : (appendByte s).txlen = s.txlen := rfl
@[simp] theorem appendByte_opc (s : State) : (appendByte s).opc = s.opc := rfl
@[simp] theorem appendByte_argA (s : State) : (appendByte s).argA = s.argA := rfl
@[simp] theorem appendByte_argB (s : State) : (appendByte s).argB = s.argB := rfl
@[simp] theorem appendByte_argC (s : State) : (appendByte s).argC = s.argC := rfl
@[simp] theorem appendByte_busy (s : State) : (appendByte s).busy = s.busy := rfl
@[simp] theorem appendByte_done (s : State) : (appendByte s).done = s.done := rfl
@[simp] theorem appendByte_res (s : State) : (appendByte s).res = s.res := rfl
@[simp] theorem appendByte_err (s : State) : (appendByte s).err = s.err := rfl
@[simp] theorem appendByte_hs (s : State) : (appendByte s).hs = s.hs := rfl
@[simp] theorem appendByte_ph (s : State) : (appendByte s).ph = s.ph := rfl
@[simp] theorem appendByte_opl (s : State) : (appendByte s).opl = s.opl := rfl
@[simp] theorem appendByte_la (s : State) : (appendByte s).la = s.la := rfl
@[simp] theorem appendByte_lb (s : State) : (appendByte s).lb = s.lb := rfl
@[simp] theorem appendByte_lc (s : State) : (appendByte s).lc = s.lc := rfl
@[simp] theorem appendByte_acc (s : State) : (appendByte s).acc = s.acc + s.rxb := rfl
@[simp] theorem appendByte_cnt (s : State) : (appendByte s).cnt = s.cnt - 1 := rfl
@[simp] theorem appendByte_idx (s : State) : (appendByte s).idx = s.idx := rfl
@[simp] theorem appendByte_expv (s : State) : (appendByte s).expv = s.expv := rfl
@[simp] theorem appendByte_plen (s : State) : (appendByte s).plen = s.plen := rfl
@[simp] theorem appendByte_cks (s : State) : (appendByte s).cks = s.cks := rfl
@[simp] theorem appendByte_saved (s : State) : (appendByte s).saved = s.saved := rfl
@[simp] theorem appendByte_failf (s : State) : (appendByte s).failf = s.failf := rfl
@[simp] theorem appendByte_tu (s : State) : (appendByte s).tu = s.tu := rfl
@[simp] theorem appendByte_ts (s : State) : (appendByte s).ts = s.ts := rfl
@[simp] theorem appendByte_wok (s : State) : (appendByte s).wok = s.wok := rfl
@[simp] theorem appendByte_resv (s : State) : (appendByte s).resv = s.resv := rfl
@[simp] theorem appendByte_expAck (s : State) : (appendByte s).expAck = s.expAck := rfl
@[simp] theorem appendByte_txlog (s : State) : (appendByte s).txlog = s.txlog := rfl
@[simp] theorem appendByte_rxlog (s : State) : (appendByte s).rxlog = s.rxlog := rfl
@[simp] theorem appendByte_draws (s : State) : (appendByte s).draws = s.draws := rfl
@[simp] theorem appendByte_agenda (s : State) : (appendByte s).agenda = s.agenda := rfl
@[simp] theorem appendByte_cfg (s : State) : (appendByte s).cfg = s.cfg := rfl

/-! ### the control point -/

@[simp] theorem rets_idle : ControlPoint.rets .idle = [] := rfl
@[simp] theorem rets_run (here : Label) (rets : List Label) : ControlPoint.rets (.run here rets) = rets := rfl

end Sys2Proof.Machine
end

