-- ==== Sys2Proof/Laws/Step.lean ====
section
/-! SUPPORT. What a step can do, said once: how the turn is chosen, what an operation's step is, and how runs compose. -/

namespace Sys2Proof.Machine

/-- The pseudocode an operation's line is looked up in. -/
def lineStep (i : Instr) (here : Label) (s : State) : Result :=
  match i with
  | .sendb _ => sendbStep here s
  | .enrx => enrxStep here s
  | .rdblk => rdblkStep here s
  | .rdto _ => rdtoStep here s
  | .sndack _ _ _ => sndackStep here s
  | .psend _ => psendStep here s
  | .precv _ => precvStep here s
  | .boot => bootStep here s

/-- What the issue of an operation does while idle. -/
def issueState (i : Instr) (s : State) : State :=
  match i with
  | .sendb b => accept 0x01 b s.argB s.argC .t1 s
  | .enrx => accept 0x02 s.argA s.argB s.argC .n1 s
  | .rdblk => accept 0x03 s.argA s.argB s.argC .k1 s
  | .rdto units => accept 0x04 units s.argB s.argC .o1 s
  | .sndack byte units expected => accept 0x05 byte units expected .q1 s
  | .psend command => issuePsend command s
  | .precv command => accept 0x07 command s.argB s.argC .v1 s
  | .boot => accept 0x08 s.argA s.argB s.argC .h1 s

/-- Every operation is the same shape: issue while idle, a line while it is in progress, nothing while another one is. -/
theorem exec_eq_operation (i : Instr) (s : State) : exec i s = operation i (issueState i) (lineStep i) s := by
  cases i <;> rfl

/-- An operation offered to the idle block is issued. -/
theorem exec_idle (i : Instr) (s : State) (h : s.busy = false) : exec i s = .next (issueState i s) := by
  simp [exec_eq_operation, operation, h]

/-- An operation in progress takes the line at `PH`. -/
theorem exec_line {i : Instr} {s : State} {here : Label} {rets : List Label} (hp : InProgress i s)
    (hph : s.ph = .run here rets) : exec i s = lineStep i here s := by
  simp [exec_eq_operation, operation, hp.1, hp.2, hph]

/-- What a step of an operation can be. -/
theorem exec_cases {i : Instr} {s t : State} (h : exec i s = .next t) :
    (s.busy = false ∧ t = issueState i s) ∨
    (InProgress i s ∧ ∃ here rets, s.ph = .run here rets ∧ lineStep i here s = .next t) ∨
    (s.busy = true ∧ latchedInstr s ≠ .ok i ∧ t = s) := by
  rw [exec_eq_operation] at h
  unfold operation at h
  split at h
  · rename_i hb
    exact .inl ⟨hb, by simpa using h.symm⟩
  · rename_i hb
    have hb : s.busy = true := by simpa using hb
    split at h
    · rename_i hl
      split at h
      · rename_i here rets hph
        exact .inr (.inl ⟨⟨hb, hl⟩, here, rets, hph, h⟩)
      · simp at h
    · rename_i hl
      exact .inr (.inr ⟨hb, hl, by simpa using h.symm⟩)

/-- `ret` goes to the line after the call and changes nothing else. -/
theorem ret_eq {s : State} {here back : Label} {rets : List Label} (h : s.ph = .run here (back :: rets)) :
    ret s = .next { s with ph := .run back rets } := by
  simp [ret, h]

/-- `ret` answers a next state only where there is a return point. -/
theorem ret_cases {s t : State} (h : ret s = .next t) :
    ∃ here back rets, s.ph = .run here (back :: rets) ∧ t = { s with ph := .run back rets } := by
  unfold ret at h
  split at h
  · rename_i here back rets hph
    exact ⟨here, back, rets, hph, by simpa using h.symm⟩
  · simp at h

/-- How the agent of a step is chosen: reset, else IRQ, else the turn the agenda names, else SEQ. -/
theorem step_cases (s : State) :
    (∃ rest, s.agenda = .reset :: rest ∧ step s = .next (resetTurn { s with agenda := rest })) ∨
    ((∀ rest, s.agenda ≠ .reset :: rest) ∧ irqEnabled s = true ∧ step s = .next (irqStep s)) ∨
    (irqEnabled s = false ∧ s.agenda = [] ∧ step s = seqTurn s) ∨
    (irqEnabled s = false ∧ ∃ e rest, s.agenda = e :: rest ∧ e ≠ .reset ∧ step s = turn e { s with agenda := rest }) := by
  unfold step agentStep
  split
  · rename_i hag
    by_cases hq : irqEnabled s = true
    · exact .inr (.inl ⟨by simp [hag], hq, by simp [hq]⟩)
    · exact .inr (.inr (.inl ⟨by simpa using hq, hag, by simp [hq]⟩))
  · rename_i rest hag
    exact .inl ⟨rest, hag, rfl⟩
  · rename_i e rest hne hag
    have he : e ≠ .reset := fun h => hne (by simp [h])
    by_cases hq : irqEnabled s = true
    · exact .inr (.inl ⟨by simp [hag, he], hq, by simp [hq]⟩)
    · exact .inr (.inr (.inr ⟨by simpa using hq, e, rest, hag, he, by simp [hq]⟩))

/-- The interrupt goes first. -/
theorem step_irq {s : State} (hq : irqEnabled s = true) (hr : ∀ rest, s.agenda ≠ .reset :: rest) :
    step s = .next (irqStep s) := by
  rcases step_cases s with ⟨rest, h, -⟩ | ⟨-, -, h⟩ | ⟨h, -⟩ | ⟨h, -⟩
  · exact absurd h (hr rest)
  · exact h
  · simp [hq] at h
  · simp [hq] at h

/-- With no interrupt enabled, the turn the agenda names. -/
theorem step_turn {s : State} {e : Turn} {rest : List Turn} (hq : irqEnabled s = false) (hag : s.agenda = e :: rest) :
    step s = turn e { s with agenda := rest } := by
  unfold step agentStep
  rw [hag]
  cases e <;> simp [hq]

/-- The interrupt condition does not depend on the agenda or the control point. -/
@[simp] theorem irqEnabled_agenda (s : State) (l : List Turn) : irqEnabled { s with agenda := l } = irqEnabled s := rfl

/-- With no byte pending no interrupt is enabled. -/
theorem irqEnabled_of_ifl {s : State} (h : s.ifl = false) : irqEnabled s = false := by simp [irqEnabled, h]

/-- SEQ's turn while an operation is in progress takes its line. -/
theorem step_line {i : Instr} {s : State} {here : Label} {rets : List Label} {rest : List Turn} (hp : InProgress i s)
    (hq : irqEnabled s = false) (hph : s.ph = .run here rets) (hag : s.agenda = .seq :: rest) :
    step s = lineStep i here { s with agenda := rest } := by
  have hi : InProgress i { s with agenda := rest } := hp
  rw [step_turn hq hag]
  simp only [turn, seqTurn, hph]
  rw [show latchedInstr { s with agenda := rest, ph := .run here rets } = latchedInstr s from rfl, hp.2]
  simpa [hph] using exec_line hi (show ({ s with agenda := rest } : State).ph = .run here rets from hph)

/-- An idle write of `OPC` with the code of an operation issues it. -/
theorem hostWrite_issue {i : Instr} {s : State} {v : Byte} (hb : s.busy = false) (hi : offeredInstr v s = .ok i) :
    hostWrite 0x00 v s = .next (issueState i s) := by
  unfold hostWrite
  rw [if_neg (by simp [hb]), if_pos rfl]
  unfold issue
  rw [hi]
  exact exec_idle i s hb

/-- An idle write of any location but `OPC` is a store. -/
theorem hostWrite_store {off : Offset} {v : Byte} {s : State} (hb : s.busy = false) (h0 : off ≠ 0) :
    hostWrite off v s = .next (hostStore off v s) := by
  unfold hostWrite
  rw [hb]
  exact if_neg h0

/-- With an empty agenda SEQ goes on alone. -/
theorem step_alone {i : Instr} {s : State} {here : Label} {rets : List Label} (hp : InProgress i s)
    (hq : irqEnabled s = false) (hph : s.ph = .run here rets) (hag : s.agenda = []) : step s = lineStep i here s := by
  unfold step agentStep
  rw [hag]
  simp only [hq, seqTurn, hph, hp.2]
  exact exec_line hp hph

/-- The interrupt condition reads four fields. -/
theorem irqEnabled_congr {s t : State} {b : Bool} (hq : irqEnabled s = b) (h0 : t.ifl = s.ifl) (h1 : t.gie = s.gie)
    (h2 : t.iem = s.iem) (h3 : t.cfg = s.cfg) : irqEnabled t = b := by
  rw [← hq]
  unfold irqEnabled armed
  rw [h0, h1, h2, h3]

/-- The write of `OPC` that issues an operation, as a step. -/
theorem step_issue {i : Instr} {s : State} {v : Byte} {rest : List Turn} (hq : irqEnabled s = false) (hb : s.busy = false)
    (hag : s.agenda = .write 0x00 v :: rest) (hi : offeredInstr v s = .ok i) :
    step s = .next (issueState i { s with agenda := rest }) := by
  rw [step_turn hq hag]
  exact hostWrite_issue hb hi

/-- The latches of an accepted issue decode to the operation issued. -/
theorem inProgress_accept {i : Instr} {s : State} {o a b c : Byte} {entry : Label} (h : decodeFields o a b c = .ok i) :
    InProgress i (accept o a b c entry s) := ⟨rfl, h⟩

/-- What a step that answers a next state was: a reset, the interrupt, or with no interrupt enabled one of: a turn without effect, a line of
the operation in progress, an issue, a refused issue, a delivery, an idle host store. -/
theorem step_next {s t : State} (h : step s = .next t) :
    (∃ rest, s.agenda = .reset :: rest ∧ t = resetTurn { s with agenda := rest }) ∨
    ((∀ rest, s.agenda ≠ .reset :: rest) ∧ irqEnabled s = true ∧ t = irqStep s) ∨
    (irqEnabled s = false ∧ ∃ rest, (∀ l, s.agenda ≠ .reset :: l) ∧
      (t = { s with agenda := rest } ∨
       (∃ i here rets, InProgress i s ∧ s.ph = .run here rets ∧ lineStep i here { s with agenda := rest } = .next t) ∨
       (∃ i, s.busy = false ∧ t = issueState i { s with agenda := rest }) ∨
       (∃ v, s.busy = false ∧ t = refuseIssue v { s with agenda := rest }) ∨
       (∃ b, s.agenda = .deliver b :: rest ∧ t = deliver b { s with agenda := rest }) ∨
       (∃ off v, s.agenda = .write off v :: rest ∧ s.busy = false ∧ off ≠ 0 ∧ t = hostStore off v { s with agenda := rest }))) := by
  have seq : ∀ rest, (∀ l, s.agenda ≠ .reset :: l) → seqTurn { s with agenda := rest } = .next t →
      (t = { s with agenda := rest } ∨
       (∃ i here rets, InProgress i s ∧ s.ph = .run here rets ∧ lineStep i here { s with agenda := rest } = .next t) ∨
       (∃ i, s.busy = false ∧ t = issueState i { s with agenda := rest })) := by
    intro rest hr h
    unfold seqTurn at h
    split at h
    · exact .inl (Host.Outcome.next.inj h).symm
    · split at h
      · rcases exec_cases h with ⟨hb, ht⟩ | ⟨hp, here, rets, hph, hl⟩ | ⟨-, -, ht⟩
        · exact .inr (.inr ⟨_, hb, ht⟩)
        · exact .inr (.inl ⟨_, here, rets, hp, hph, hl⟩)
        · exact .inl ht
      · simp at h
  rcases step_cases s with ⟨rest, hag, hs⟩ | ⟨hr, hq, hs⟩ | ⟨hq, hag, hs⟩ | ⟨hq, e, rest, hag, he, hs⟩
  · exact .inl ⟨rest, hag, (Host.Outcome.next.inj (hs.symm.trans h)).symm⟩
  · exact .inr (.inl ⟨hr, hq, (Host.Outcome.next.inj (hs.symm.trans h)).symm⟩)
  · refine .inr (.inr ⟨hq, [], by simp [hag], ?_⟩)
    have hss : ({ s with agenda := [] } : State) = s := by rw [← hag]
    rcases seq [] (by simp [hag]) (by rw [hss]; exact hs.symm.trans h) with h | h | h
    · exact .inl h
    · exact .inr (.inl h)
    · exact .inr (.inr (.inl h))
  · refine .inr (.inr ⟨hq, rest, by simp [hag, he], ?_⟩)
    have h := hs.symm.trans h
    cases e with
    | seq =>
      rcases seq rest (by simp [hag]) h with h | h | h
      · exact .inl h
      · exact .inr (.inl h)
      · exact .inr (.inr (.inl h))
    | deliver b =>
      simp only [turn, Host.Outcome.next.injEq] at h
      exact .inr (.inr (.inr (.inr (.inl ⟨b, hag, h.symm⟩))))
    | read off =>
      simp only [turn, Host.Outcome.next.injEq] at h
      exact .inl h.symm
    | write off v =>
      simp only [turn, hostWrite] at h
      split at h
      · exact .inl (Host.Outcome.next.inj h).symm
      · rename_i hb
        have hb : s.busy = false := by simpa using hb
        split at h
        · unfold issue at h
          split at h
          · rename_i i hi
            have h := (exec_idle i { s with agenda := rest } hb).symm.trans h
            exact .inr (.inr (.inl ⟨i, hb, (Host.Outcome.next.inj h).symm⟩))
          · exact .inr (.inr (.inr (.inl ⟨v, hb, (Host.Outcome.next.inj h).symm⟩)))
        · rename_i h0
          exact .inr (.inr (.inr (.inr (.inr ⟨off, v, hag, hb, h0, (Host.Outcome.next.inj h).symm⟩))))
    | reset => exact absurd rfl he

/-! ### Runs -/

/-- A run of `m + n` steps is a run of `m` and then one of `n`. -/
theorem stepN_add {m n : Nat} {s t : State} (h : stepN m s = .next t) : stepN (m + n) s = stepN n t := by
  induction m generalizing s with
  | zero => simp only [stepN] at h; simp [← (Host.Outcome.next.inj h)]
  | succ m ih =>
    rw [Nat.add_right_comm]
    cases hs : step s with
    | next u =>
      simp only [stepN, hs] at h ⊢
      exact ih h
    | fault r => simp [stepN, hs] at h
    | refused r => simp [stepN, hs] at h

theorem stepN_succ {n : Nat} {s t : State} (h : step s = .next t) : stepN (n + 1) s = stepN n t := by
  simp [stepN, h]

theorem Reaches.refl (s : State) : Reaches s s := ⟨0, rfl⟩

theorem Reaches.trans {s t u : State} (h : Reaches s t) (h' : Reaches t u) : Reaches s u := by
  obtain ⟨m, hm⟩ := h
  obtain ⟨n, hn⟩ := h'
  exact ⟨m + n, by rw [stepN_add hm, hn]⟩

theorem Reaches.head {s t u : State} (h : step s = .next t) (h' : Reaches t u) : Reaches s u := by
  obtain ⟨n, hn⟩ := h'
  exact ⟨n + 1, by rw [stepN_succ h, hn]⟩

/-- One line of the operation in progress, then the rest of a run. -/
theorem Reaches.line {i : Instr} {s t u : State} {here : Label} {rets : List Label} {rest : List Turn} (hp : InProgress i s)
    (hq : irqEnabled s = false) (hph : s.ph = .run here rets) (hag : s.agenda = .seq :: rest)
    (hl : lineStep i here { s with agenda := rest } = .next t) (h : Reaches t u) : Reaches s u :=
  Reaches.head ((step_line hp hq hph hag).trans hl) h

/-- One line of the operation in progress, then `n` steps. -/
theorem stepN_line {i : Instr} {s t u : State} {n : Nat} {here : Label} {rets : List Label} {rest : List Turn}
    (hp : InProgress i s) (hq : irqEnabled s = false) (hph : s.ph = .run here rets) (hag : s.agenda = .seq :: rest)
    (hl : lineStep i here { s with agenda := rest } = .next t) (h : stepN n t = .next u) : stepN (n + 1) s = .next u := by
  rw [stepN_succ ((step_line hp hq hph hag).trans hl), h]

/-- Two runs one after the other, with their lengths. -/
theorem stepN_trans {m n : Nat} {s t u : State} (h : stepN m s = .next t) (h' : stepN n t = .next u) :
    stepN (m + n) s = .next u := by
  rw [stepN_add h, h']

/-- An invariant of every step is an invariant of every run. -/
theorem invariant_of_run {P : State → Prop} (hstep : ∀ s t, P s → step s = .next t → P t) {s t : State} (hs : P s)
    (h : Reaches s t) : P t := by
  obtain ⟨n, hn⟩ := h
  induction n generalizing s with
  | zero => simp only [stepN] at hn; exact Host.Outcome.next.inj hn ▸ hs
  | succ n ih =>
    simp only [stepN] at hn
    split at hn
    · rename_i u hu
      exact ih (hstep s u hs hu) hn
    · simp at hn
    · simp at hn

theorem seqTurns_add (m n : Nat) : seqTurns (m + n) = seqTurns m ++ seqTurns n := by
  simp [seqTurns, List.replicate_append_replicate]

@[simp] theorem seqTurns_zero : seqTurns 0 = [] := rfl

@[simp] theorem seqTurns_succ (n : Nat) : seqTurns (n + 1) = .seq :: seqTurns n := rfl

end Sys2Proof.Machine
end

