-- ==== Sys2Proof/Laws/Causes.lean ====
section
/-! SUPPORT. The failure causes told at the tests are those of the waits and comparisons before them. -/

namespace Sys2Proof.Machine

/-- When the poll of a wait returns, the wait failed exactly with `TU = 0`. -/
theorem pollStep_wok {s t : State} {here back : Label} {rets : List Label} (hph : s.ph = .run here (back :: rets))
    (h : pollStep s = .next t) (hr : t.ph = .run back rets) (hb : back ≠ .w4) : t.wok = false ↔ t.tu = 0 := by
  unfold pollStep at h
  split at h
  · rw [ret_eq (s := { s with wok := false }) hph] at h
    obtain rfl := Host.Outcome.next.inj h
    simpa using ‹s.tu = 0›
  · split at h
    · rw [ret_eq (s := { s with wok := true }) hph] at h
      obtain rfl := Host.Outcome.next.inj h
      simpa using ‹¬s.tu = 0›
    · split at h <;> obtain rfl := Host.Outcome.next.inj h <;> simp at hr <;> exact absurd hr.1.symm hb

/-- After A3 the cause is Timeout where the wait failed, NackMismatch where it succeeded with another byte, and none else. -/
theorem ackCause_of_a3 {s t : State} (hw : s.wok = false ↔ s.tu = 0) (h : sendAndCheckAckStep .a3 s = .next t) :
    ackCause t = if s.wok = false then some .timeout else if s.rxb = s.expAck then none else some .nackMismatch := by
  obtain ⟨_, _, _, -, rfl⟩ := ret_cases (show ret { s with wok := s.wok && s.rxb == s.expAck } = .next t from h)
  by_cases hk : s.wok = false
  · simp [ackCause, hk, hw.mp hk]
  · have ht : ¬s.tu = 0#8 := fun h => hk (hw.mpr h)
    have hk : s.wok = true := by simpa using hk
    by_cases he : s.rxb = s.expAck <;> simp [ackCause, hk, ht, he]

end Sys2Proof.Machine
end

