-- ==== Sys2Proof/Laws/Runs.lean ====
section
/-! SUPPORT. What each procedure does from its first line to its return, said once for every operation that calls it. -/

namespace Sys2Proof.Machine

theorem inProgress_congr {i : Instr} {s t : State} (hp : InProgress i s) (hb : t.busy = s.busy) (h0 : t.opl = s.opl)
    (h1 : t.la = s.la) (h2 : t.lb = s.lb) (h3 : t.lc = s.lc) : InProgress i t := by
  unfold InProgress latchedInstr at *
  rw [hb, h0, h1, h2, h3]
  exact hp

/-! ### Each line of a procedure, in every operation that calls it -/

section lines

theorem line_s1 {i : Instr} (h : callsSendByte i = true) (b : Byte) (s : State) :
    lineStep i (.s1 b) s = .next ({ s with mode := .txInt }.goTo (.s2 b)) := by
  cases i <;> simp [callsSendByte] at h <;> rfl

theorem line_s2 {i : Instr} (h : callsSendByte i = true) (b : Byte) (s : State) :
    lineStep i (.s2 b) s = .next ((transmit b s).goTo .s3) := by
  cases i <;> simp [callsSendByte] at h <;> rfl

theorem line_s3 {i : Instr} (h : callsSendByte i = true) (s : State) :
    lineStep i .s3 s = .next ({ s with mode := .rxExt }.goTo .s4) := by
  cases i <;> simp [callsSendByte] at h <;> rfl

theorem line_s4 {i : Instr} (h : callsSendByte i = true) (s : State) :
    lineStep i .s4 s = ret { s with ifl := false } := by
  cases i <;> simp [callsSendByte] at h <;> rfl

theorem line_e1 {i : Instr} (h : callsEnableReceive i = true) (s : State) :
    lineStep i .e1 s = .next ({ s with mode := .rxExt }.goTo .e2) := by
  cases i <;> simp [callsEnableReceive] at h <;> rfl

theorem line_e2 {i : Instr} (h : callsEnableReceive i = true) (s : State) :
    lineStep i .e2 s = .next ({ s with iem := setLinkBit s.cfg s.iem }.goTo .e3) := by
  cases i <;> simp [callsEnableReceive] at h <;> rfl

theorem line_e3 {i : Instr} (h : callsEnableReceive i = true) (s : State) :
    lineStep i .e3 s = .next ({ s with ifl := false }.goTo .e4) := by
  cases i <;> simp [callsEnableReceive] at h <;> rfl

theorem line_e4 {i : Instr} (h : callsEnableReceive i = true) (s : State) :
    lineStep i .e4 s = ret { s with gie := true } := by
  cases i <;> simp [callsEnableReceive] at h <;> rfl

theorem line_b1 {i : Instr} (h : callsReadBlocking i = true) (s : State) :
    lineStep i .b1 s = .next ({ s with rxf := false }.goTo .b2) := by
  cases i <;> simp [callsReadBlocking] at h <;> rfl

theorem line_b2 {i : Instr} (h : callsReadBlocking i = true) (s : State) :
    lineStep i .b2 s = .next (s.call .e1 .b3) := by
  cases i <;> simp [callsReadBlocking] at h <;> rfl

theorem line_b3 {i : Instr} (h : callsReadBlocking i = true) (s : State) :
    lineStep i .b3 s = if s.rxf then ret s else .next (s.goTo .b3) := by
  cases i <;> simp [callsReadBlocking] at h <;> rfl

theorem line_w1 {i : Instr} (h : callsReadWithTimeout i = true) (u : Byte) (s : State) :
    lineStep i (.w1 u) s = .next ({ s with rxf := false }.goTo (.w2 u)) := by
  cases i <;> simp [callsReadWithTimeout] at h <;> rfl

theorem line_w2 {i : Instr} (h : callsReadWithTimeout i = true) (u : Byte) (s : State) :
    lineStep i (.w2 u) s = .next (s.call .e1 (.w3 u)) := by
  cases i <;> simp [callsReadWithTimeout] at h <;> rfl

theorem line_w3 {i : Instr} (h : callsReadWithTimeout i = true) (u : Byte) (s : State) :
    lineStep i (.w3 u) s = .next ({ s with tu := u, ts := s.cfg.subPerUnit }.goTo .w4) := by
  cases i <;> simp [callsReadWithTimeout] at h <;> rfl

theorem line_w4 {i : Instr} (h : callsReadWithTimeout i = true) (s : State) : lineStep i .w4 s = pollStep s := by
  cases i <;> simp [callsReadWithTimeout] at h <;> rfl

theorem line_a1 {i : Instr} (h : callsSendAndCheckAck i = true) (b u e : Byte) (s : State) :
    lineStep i (.a1 b u e) s = .next ({ s with expAck := e }.call (.s1 b) (.a2 u)) := by
  cases i <;> simp [callsSendAndCheckAck] at h <;> rfl

theorem line_a2 {i : Instr} (h : callsSendAndCheckAck i = true) (u : Byte) (s : State) :
    lineStep i (.a2 u) s = .next (s.call (.w1 u) .a3) := by
  cases i <;> simp [callsSendAndCheckAck] at h <;> rfl

theorem line_a3 {i : Instr} (h : callsSendAndCheckAck i = true) (s : State) :
    lineStep i .a3 s = ret { s with wok := s.wok && s.rxb == s.expAck } := by
  cases i <;> simp [callsSendAndCheckAck] at h <;> rfl

theorem calls_of_blocking {i : Instr} (h : callsReadBlocking i = true) : callsEnableReceive i = true := by
  cases i <;> simp [callsReadBlocking, callsEnableReceive] at *

theorem calls_of_timeout {i : Instr} (h : callsReadWithTimeout i = true) : callsEnableReceive i = true := by
  cases i <;> simp [callsReadWithTimeout, callsEnableReceive] at *

theorem calls_of_ack {i : Instr} (h : callsSendAndCheckAck i = true) :
    callsSendByte i = true ∧ callsReadWithTimeout i = true := by
  cases i <;> simp [callsSendAndCheckAck, callsSendByte, callsReadWithTimeout] at *

end lines

/-! ### The mask's bits -/

theorem linkOnly_getLsbD (c : Config) (k : Nat) (hk : k < 8) : (linkOnly c).getLsbD k = decide (k = c.linkBit.val) := by
  unfold linkOnly
  have h := c.linkBit.isLt
  revert h
  generalize c.linkBit.val = n
  intro h
  interval_cases n <;> interval_cases k <;> rfl

theorem setLinkBit_getLsbD (c : Config) (m : Byte) (k : Nat) (hk : k < 8) :
    (setLinkBit c m).getLsbD k = (m.getLsbD k || decide (k = c.linkBit.val)) := by
  rw [setLinkBit, BitVec.getLsbD_or, linkOnly_getLsbD c k hk]

theorem clearLinkBit_getLsbD (c : Config) (m : Byte) (k : Nat) (hk : k < 8) :
    (clearLinkBit c m).getLsbD k = (m.getLsbD k && !decide (k = c.linkBit.val)) := by
  rw [clearLinkBit, BitVec.getLsbD_and, BitVec.getLsbD_not, linkOnly_getLsbD c k hk]
  simp [hk]

/-- "arm" arms the link. -/
theorem armed_setLinkBit (c : Config) (m : Byte) : (setLinkBit c m).getLsbD c.linkBit.val = true := by
  rw [setLinkBit_getLsbD c m _ c.linkBit.isLt]
  simp

/-- "disable" disarms it. -/
theorem disarmed_clearLinkBit (c : Config) (m : Byte) : (clearLinkBit c m).getLsbD c.linkBit.val = false := by
  rw [clearLinkBit_getLsbD c m _ c.linkBit.isLt]
  simp

/-- The bits a mask has. -/
theorem maskBits_getLsbD (c : Config) (k : Nat) (hk : k < 8) : (maskBits c).getLsbD k = decide (k < c.iemWidth) := by
  rw [maskBits, BitVec.getLsbD_ofNat, Nat.testBit_two_pow_sub_one]
  simp [hk]

/-! ### Whole procedures -/

/-- sendByte from S1 to its return where no interrupt can come of the transmit: four steps, one byte on the wire. -/
theorem stepN_sendByte_quiet {i : Instr} {s : State} {b : Byte} {back : Label} {rets : List Label} {rest : List Turn}
    (hc : callsSendByte i = true) (hp : InProgress i s) (hq : irqEnabled s = false)
    (hx : ¬(armed s = true ∧ s.gie = true ∧ s.cfg.txSetsPending = true)) (hph : s.ph = .run (.s1 b) (back :: rets))
    (hag : s.agenda = seqTurns 4 ++ rest) :
    stepN 4 s = .next { s with agenda := rest, ph := .run back rets, mode := .rxExt, ifl := false
                               sdr := Config.freeByte s.draws, draws := s.draws + 1, txlog := s.txlog ++ [b] } := by
  have hq' : ((s.ifl || s.cfg.txSetsPending) && s.gie && armed s) = false := by
    simp only [irqEnabled] at hq
    revert hq hx
    cases s.ifl <;> cases s.gie <;> cases armed s <;> cases s.cfg.txSetsPending <;> simp
  refine stepN_line hp hq hph hag (line_s1 hc b _) ?_
  refine stepN_line (inProgress_congr hp rfl rfl rfl rfl rfl) (irqEnabled_congr hq rfl rfl rfl rfl) (by simp [hph]; rfl) rfl
    (line_s2 hc b _) ?_
  refine stepN_line (inProgress_congr hp rfl rfl rfl rfl rfl) (by simpa [irqEnabled, armed] using hq') rfl rfl (line_s3 hc _) ?_
  refine stepN_line (inProgress_congr hp rfl rfl rfl rfl rfl) (by simpa [irqEnabled, armed] using hq') rfl rfl
    ((line_s4 hc _).trans (ret_eq (here := .s4) (back := back) (rets := rets) (by simp [hph]))) ?_
  rfl

/-- sendByte from S1 to its return on an armed link whose transmit raises the interrupt: five steps, the spurious latch among them
(40_byte_transport.md R116 (a)). -/
theorem stepN_sendByte_spurious {i : Instr} {s : State} {b : Byte} {back : Label} {rets : List Label} {rest : List Turn}
    (hc : callsSendByte i = true) (hp : InProgress i s) (hq : irqEnabled s = false)
    (ha : armed s = true) (hg : s.gie = true) (ht : s.cfg.txSetsPending = true) (hph : s.ph = .run (.s1 b) (back :: rets))
    (hag : s.agenda = seqTurns 4 ++ rest) :
    stepN 5 s = .next { s with agenda := rest, ph := .run back rets, mode := .rxExt, ifl := false
                               sdr := Config.freeByte s.draws, draws := s.draws + 1, txlog := s.txlog ++ [b]
                               rxb := Config.freeByte s.draws, rxf := true, iem := clearLinkBit s.cfg s.iem } := by
  refine stepN_line hp hq hph hag (line_s1 hc b _) ?_
  refine stepN_line (inProgress_congr hp rfl rfl rfl rfl rfl) (irqEnabled_congr hq rfl rfl rfl rfl) (by simp [hph]; rfl) rfl
    (line_s2 hc b _) ?_
  refine (stepN_succ (step_irq (by simp [irqEnabled, armed, ht, hg] at ha ⊢; exact ha) (by simp))).trans ?_
  refine stepN_line (inProgress_congr hp rfl rfl rfl rfl rfl) (irqEnabled_of_ifl rfl) rfl rfl (line_s3 hc _) ?_
  refine stepN_line (inProgress_congr hp rfl rfl rfl rfl rfl) (irqEnabled_of_ifl rfl) rfl rfl
    ((line_s4 hc _).trans (ret_eq (here := .s4) (back := back) (rets := rets) (by simp [hph]))) ?_
  rfl

/-- sendByte from S1 to its return in either case: one byte on the wire, the link listening again with nothing pending; the mailbox and
the link's bit may show a spurious latch (70_reset_and_hazards.md R242), the other bits of the mask are kept. -/
theorem reaches_sendByte {i : Instr} {s : State} {b : Byte} {back : Label} {rets : List Label} {rest : List Turn}
    (hc : callsSendByte i = true) (hp : InProgress i s) (hq : irqEnabled s = false) (hph : s.ph = .run (.s1 b) (back :: rets))
    (hag : s.agenda = seqTurns 4 ++ rest) :
    ∃ m f x, (m = s.iem ∨ m = clearLinkBit s.cfg s.iem) ∧
      Reaches s { s with agenda := rest, ph := .run back rets, mode := .rxExt, ifl := false, sdr := Config.freeByte s.draws
                         draws := s.draws + 1, txlog := s.txlog ++ [b], iem := m, rxf := f, rxb := x } := by
  by_cases hx : armed s = true ∧ s.gie = true ∧ s.cfg.txSetsPending = true
  · exact ⟨_, _, _, .inr rfl, 5, stepN_sendByte_spurious hc hp hq hx.1 hx.2.1 hx.2.2 hph hag⟩
  · exact ⟨_, _, _, .inl rfl, 4, stepN_sendByte_quiet hc hp hq hx hph hag⟩

/-- enableReceive from E1 to its return, with no byte pending: four steps, the link armed and interrupts on. -/
theorem stepN_enableReceive {i : Instr} {s : State} {back : Label} {rets : List Label} {rest : List Turn}
    (hc : callsEnableReceive i = true) (hp : InProgress i s) (hq : s.ifl = false) (hph : s.ph = .run .e1 (back :: rets))
    (hag : s.agenda = seqTurns 4 ++ rest) :
    stepN 4 s = .next { s with agenda := rest, ph := .run back rets, mode := .rxExt, ifl := false, gie := true
                               iem := setLinkBit s.cfg s.iem } := by
  refine stepN_line hp (irqEnabled_of_ifl hq) hph hag (line_e1 hc _) ?_
  refine stepN_line (inProgress_congr hp rfl rfl rfl rfl rfl) (irqEnabled_of_ifl hq) rfl rfl (line_e2 hc _) ?_
  refine stepN_line (inProgress_congr hp rfl rfl rfl rfl rfl) (irqEnabled_of_ifl hq) rfl rfl (line_e3 hc _) ?_
  refine stepN_line (inProgress_congr hp rfl rfl rfl rfl rfl) (irqEnabled_of_ifl rfl) rfl rfl
    ((line_e4 hc _).trans (ret_eq (here := .e4) (back := back) (rets := rets) (by simp [hph]))) ?_
  rfl

/-- A delivery to an armed listening link with interrupts on: two steps, the byte latched and the link disarmed. -/
theorem stepN_delivered {s : State} {b : Byte} {rest : List Turn} (hm : s.mode = .rxExt) (hi : s.ifl = false)
    (ha : armed s = true) (hg : s.gie = true) (hag : s.agenda = .deliver b :: rest) (hr : ∀ l, rest ≠ .reset :: l) :
    stepN 2 s = .next { s with agenda := rest, sdr := b, rxlog := s.rxlog ++ [b], ifl := false, rxb := b, rxf := true
                               iem := clearLinkBit s.cfg s.iem } := by
  have h1 : step s = .next { s with agenda := rest, sdr := b, ifl := true, rxlog := s.rxlog ++ [b] } := by
    rw [step_turn (irqEnabled_of_ifl hi) hag]
    simp [turn, deliver, hm]
  refine stepN_succ h1 |>.trans ?_
  refine stepN_succ (step_irq (by simpa [irqEnabled, armed, hg] using ha) hr) |>.trans ?_
  rfl

/-- A well-timed blocking read from B1 to its return: the byte in `RXB`, the link disarmed (41_timeout_receive.md R135, R142). -/
theorem stepN_readBlocking {i : Instr} {s : State} {b : Byte} {back : Label} {rets : List Label} {rest : List Turn}
    (hc : callsReadBlocking i = true) (hp : InProgress i s) (hq : s.ifl = false) (hph : s.ph = .run .b1 (back :: rets))
    (hag : s.agenda = waitTurns 0 b ++ rest) :
    stepN 9 s = .next { s with agenda := rest, ph := .run back rets, mode := .rxExt, ifl := false, gie := true, rxf := true
                               rxb := b, sdr := b, rxlog := s.rxlog ++ [b]
                               iem := clearLinkBit s.cfg (setLinkBit s.cfg s.iem) } := by
  have hag : s.agenda = .seq :: .seq :: (seqTurns 4 ++ (.deliver b :: .seq :: rest)) := by simp [hag, waitTurns]
  refine stepN_line hp (irqEnabled_of_ifl hq) hph hag (line_b1 hc _) ?_
  refine stepN_line (inProgress_congr hp rfl rfl rfl rfl rfl) (irqEnabled_of_ifl hq) rfl rfl (line_b2 hc _) ?_
  refine stepN_trans (m := 4) (n := 3) (stepN_enableReceive (calls_of_blocking hc) (inProgress_congr hp rfl rfl rfl rfl rfl) hq rfl rfl) ?_
  refine stepN_trans (m := 2) (n := 1) (stepN_delivered rfl rfl (armed_setLinkBit _ _) rfl rfl (by simp)) ?_
  refine stepN_line (inProgress_congr hp rfl rfl rfl rfl rfl) (irqEnabled_of_ifl rfl) rfl rfl
    ((line_b3 hc _).trans ((if_pos rfl).trans (ret_eq (here := .b3) (back := back) (rets := rets) (by simp [hph])))) ?_
  rfl

/-- readWithTimeout from W1 to its poll, with no byte pending: seven steps, the link armed, the counters loaded. -/
theorem stepN_waitOpened {i : Instr} {s : State} {u : Byte} {rets : List Label} {rest : List Turn}
    (hc : callsReadWithTimeout i = true) (hp : InProgress i s) (hq : s.ifl = false) (hph : s.ph = .run (.w1 u) rets)
    (hag : s.agenda = seqTurns 7 ++ rest) :
    stepN 7 s = .next { s with agenda := rest, ph := .run .w4 rets, mode := .rxExt, ifl := false, gie := true, rxf := false
                               iem := setLinkBit s.cfg s.iem, tu := u, ts := s.cfg.subPerUnit } := by
  have hag : s.agenda = .seq :: .seq :: (seqTurns 4 ++ (.seq :: rest)) := by simp [hag]
  refine stepN_line hp (irqEnabled_of_ifl hq) hph hag (line_w1 hc _ _) ?_
  refine stepN_line (inProgress_congr hp rfl rfl rfl rfl rfl) (irqEnabled_of_ifl hq) rfl rfl (line_w2 hc _ _) ?_
  refine stepN_trans (m := 4) (n := 1) (stepN_enableReceive (calls_of_timeout hc) (inProgress_congr hp rfl rfl rfl rfl rfl) hq rfl rfl) ?_
  refine stepN_line (inProgress_congr hp rfl rfl rfl rfl rfl) (irqEnabled_of_ifl rfl) rfl rfl (line_w3 hc _ _) ?_
  simp [stepN, hph, State.goTo, State.call]

/-- A well-timed timed wait from W1 to its return: `WOK = 1`, the byte in `RXB`, the link disarmed (41_timeout_receive.md R137, R142). -/
theorem stepN_readWithTimeout {i : Instr} {s : State} {u b : Byte} {back : Label} {rets : List Label} {rest : List Turn}
    (hc : callsReadWithTimeout i = true) (hp : InProgress i s) (hq : s.ifl = false) (hu : u ≠ 0)
    (hph : s.ph = .run (.w1 u) (back :: rets)) (hag : s.agenda = waitTurns 1 b ++ rest) :
    stepN 10 s = .next { s with agenda := rest, ph := .run back rets, mode := .rxExt, ifl := false, gie := true, rxf := true
                                rxb := b, sdr := b, rxlog := s.rxlog ++ [b]
                                iem := clearLinkBit s.cfg (setLinkBit s.cfg s.iem)
                                tu := u, ts := s.cfg.subPerUnit, wok := true } := by
  have hag : s.agenda = .seq :: .seq :: (seqTurns 4 ++ (.deliver b :: .seq :: .seq :: rest)) := by simp [hag, waitTurns]
  refine stepN_line hp (irqEnabled_of_ifl hq) hph hag (line_w1 hc _ _) ?_
  refine stepN_line (inProgress_congr hp rfl rfl rfl rfl rfl) (irqEnabled_of_ifl hq) rfl rfl (line_w2 hc _ _) ?_
  refine stepN_trans (m := 4) (n := 4) (stepN_enableReceive (calls_of_timeout hc) (inProgress_congr hp rfl rfl rfl rfl rfl) hq rfl rfl) ?_
  refine stepN_trans (m := 2) (n := 2) (stepN_delivered rfl rfl (armed_setLinkBit _ _) rfl rfl (by simp)) ?_
  refine stepN_line (inProgress_congr hp rfl rfl rfl rfl rfl) (irqEnabled_of_ifl rfl) rfl rfl (line_w3 hc _ _) ?_
  refine stepN_line (inProgress_congr hp rfl rfl rfl rfl rfl) (irqEnabled_of_ifl rfl) rfl rfl
    ((line_w4 hc _).trans ((if_neg hu).trans ((if_pos rfl).trans
      (ret_eq (here := .w4) (back := back) (rets := rets) (by simp [hph]))))) ?_
  rfl

/-- A well-timed sendAndCheckAck from A1 to its return: one byte sent, one received, `WOK` their comparison with the expected one; the
mask's other bits are kept. -/
theorem reaches_sendAndCheckAck {i : Instr} {s : State} {b u e r : Byte} {back : Label} {rets : List Label} {rest : List Turn}
    (hc : callsSendAndCheckAck i = true) (hp : InProgress i s) (hq : irqEnabled s = false) (hu : u ≠ 0)
    (hph : s.ph = .run (.a1 b u e) (back :: rets)) (hag : s.agenda = ackTurns r ++ rest) :
    ∃ m d, Reaches s { s with agenda := rest, ph := .run back rets, mode := .rxExt, ifl := false, gie := true, rxf := true
                              rxb := r, sdr := r, rxlog := s.rxlog ++ [r], txlog := s.txlog ++ [b], iem := m
                              tu := u, ts := s.cfg.subPerUnit, wok := r == e, draws := d, expAck := e } := by
  have hag : s.agenda = .seq :: (seqTurns 4 ++ (.seq :: (waitTurns 1 r ++ (.seq :: rest)))) := by simp [hag, ackTurns]
  obtain ⟨hs, hw⟩ := calls_of_ack hc
  obtain ⟨m, f, x, -, h⟩ := reaches_sendByte (s := { s with agenda := seqTurns 4 ++ (.seq :: (waitTurns 1 r ++ (.seq :: rest)))
                                                            expAck := e, ph := .run (.s1 b) (.a2 u :: back :: rets) })
    hs (inProgress_congr hp rfl rfl rfl rfl rfl) (by simpa [irqEnabled, armed] using hq) rfl rfl
  refine ⟨clearLinkBit s.cfg (setLinkBit s.cfg m), s.draws + 1, ?_⟩
  refine Reaches.line hp hq hph hag (line_a1 hc _ _ _ _) ?_
  simp only [State.call, hph, rets_run]
  refine h.trans ?_
  refine Reaches.line (inProgress_congr hp rfl rfl rfl rfl rfl) (irqEnabled_of_ifl rfl) rfl rfl (line_a2 hc _ _) ?_
  refine Reaches.trans ⟨10, stepN_readWithTimeout hw (inProgress_congr hp rfl rfl rfl rfl rfl) rfl hu rfl rfl⟩ ?_
  refine Reaches.line (inProgress_congr hp rfl rfl rfl rfl rfl) (irqEnabled_of_ifl rfl) rfl rfl
    ((line_a3 hc _).trans (ret_eq (here := .a3) (back := back) (rets := rets) rfl)) ?_
  exact Reaches.refl _

/-- The polls of a wait in which nothing arrives, seen as one count-down: `k` sub-iterations left run out in `k` steps, and one more step
returns false. `k = (units remaining - 1) * SUB_PER_UNIT + sub-iterations remaining`. -/
theorem stepN_pollsRunOut {i : Instr} {back : Label} {rets : List Label} {rest : List Turn} (hc : callsReadWithTimeout i = true)
    (k : Nat) : ∀ s : State, InProgress i s → s.ifl = false → s.rxf = false → s.ph = .run .w4 (back :: rets) →
    1 ≤ s.cfg.subPerUnit → s.ts ≤ s.cfg.subPerUnit → (s.tu = 0 → s.ts = s.cfg.subPerUnit) → (s.tu ≠ 0 → 1 ≤ s.ts) →
    s.tu.toNat * s.cfg.subPerUnit + s.ts = k + s.cfg.subPerUnit → s.agenda = seqTurns (k + 1) ++ rest →
    stepN (k + 1) s = .next { s with agenda := rest, ph := .run back rets, wok := false, tu := 0, ts := s.cfg.subPerUnit } := by
  induction k with
  | zero =>
    intro s hp hq hf hph h1 hts h0 hne hk hag
    have htu : s.tu = 0 := by
      by_contra hu
      have hu' : 1 ≤ s.tu.toNat := by
        rcases Nat.eq_zero_or_pos s.tu.toNat with h | h
        · exact absurd (BitVec.eq_of_toNat_eq (by simpa using h)) hu
        · exact h
      have := hne hu
      have : s.cfg.subPerUnit ≤ s.tu.toNat * s.cfg.subPerUnit := Nat.le_mul_of_pos_left _ hu'
      omega
    refine stepN_line hp (irqEnabled_of_ifl hq) hph hag
      ((line_w4 hc _).trans ((if_pos htu).trans (ret_eq (here := .w4) (back := back) (rets := rets) hph))) ?_
    simp [stepN, htu, h0 htu]
  | succ k ih =>
    intro s hp hq hf hph h1 hts h0 hne hk hag
    have htu : s.tu ≠ 0 := by
      intro hu
      have := h0 hu
      simp [hu] at hk
      omega
    have hpos : 1 ≤ s.tu.toNat := by
      rcases Nat.eq_zero_or_pos s.tu.toNat with h | h
      · exact absurd (BitVec.eq_of_toNat_eq (by simpa using h)) htu
      · exact h
    have hag : s.agenda = .seq :: (seqTurns (k + 1) ++ rest) := hag
    have hts1 := hne htu
    by_cases hz : s.ts - 1 = 0
    · have hsub : (s.tu - 1).toNat = s.tu.toNat - 1 := by
        rw [BitVec.toNat_sub]
        have := s.tu.isLt
        simp
        omega
      have hmul : s.tu.toNat * s.cfg.subPerUnit = (s.tu.toNat - 1) * s.cfg.subPerUnit + s.cfg.subPerUnit := by
        conv_lhs => rw [← Nat.sub_add_cancel hpos, Nat.add_mul, Nat.one_mul]
      refine stepN_line hp (irqEnabled_of_ifl hq) hph hag
        ((line_w4 hc _).trans ((if_neg htu).trans ((if_neg (by simp [hf])).trans (if_pos hz)))) ?_
      refine (ih ({ s with agenda := seqTurns (k + 1) ++ rest, tu := s.tu - 1, ts := s.cfg.subPerUnit }.goTo .w4)
        (inProgress_congr hp rfl rfl rfl rfl rfl) hq hf (by simp [hph]) h1 (Nat.le_refl _) (fun _ => rfl) (fun _ => h1) ?_ rfl).trans ?_
      · simp only [goTo_tu, goTo_ts, goTo_cfg, hsub]
        omega
      · simp [State.goTo]
    · refine stepN_line hp (irqEnabled_of_ifl hq) hph hag
        ((line_w4 hc _).trans ((if_neg htu).trans ((if_neg (by simp [hf])).trans (if_neg hz)))) ?_
      refine (ih ({ s with agenda := seqTurns (k + 1) ++ rest, ts := s.ts - 1 }.goTo .w4)
        (inProgress_congr hp rfl rfl rfl rfl rfl) hq hf (by simp [hph]) h1 ?_ (fun h => absurd h htu) ?_ ?_ rfl).trans ?_
      · simp only [goTo_ts, goTo_cfg]
        omega
      · simp only [goTo_ts]
        omega
      · simp only [goTo_tu, goTo_ts, goTo_cfg]
        omega
      · simp [State.goTo]

/-- As long as sub-iterations are left, a poll that sees nothing spends one and the wait goes on. -/
theorem stepN_pollsGoOn {i : Instr} {rets : List Label} {rest : List Turn} (hc : callsReadWithTimeout i = true) (k : Nat) :
    ∀ s : State, InProgress i s → s.ifl = false → s.rxf = false → s.ph = .run .w4 rets → 1 ≤ s.cfg.subPerUnit →
    1 ≤ s.ts → s.ts ≤ s.cfg.subPerUnit → k + s.cfg.subPerUnit < s.tu.toNat * s.cfg.subPerUnit + s.ts →
    s.agenda = seqTurns k ++ rest →
    ∃ u n, stepN k s = .next { s with agenda := rest, tu := u, ts := n } ∧ u ≠ 0 := by
  induction k with
  | zero =>
    intro s hp hq hf hph h1 hts1 hts hk hag
    refine ⟨s.tu, s.ts, by simp [stepN, ← (show s.agenda = rest by simpa using hag)], fun hu => ?_⟩
    simp [hu] at hk
    omega
  | succ k ih =>
    intro s hp hq hf hph h1 hts1 hts hk hag
    have htu : s.tu ≠ 0 := fun hu => by
      simp [hu] at hk
      omega
    have hpos : 1 ≤ s.tu.toNat := by
      rcases Nat.eq_zero_or_pos s.tu.toNat with h | h
      · exact absurd (BitVec.eq_of_toNat_eq (by simpa using h)) htu
      · exact h
    have hag : s.agenda = .seq :: (seqTurns k ++ rest) := hag
    by_cases hz : s.ts - 1 = 0
    · have hsub : (s.tu - 1).toNat = s.tu.toNat - 1 := by
        rw [BitVec.toNat_sub]
        have := s.tu.isLt
        simp
        omega
      have hmul : s.tu.toNat * s.cfg.subPerUnit = (s.tu.toNat - 1) * s.cfg.subPerUnit + s.cfg.subPerUnit := by
        conv_lhs => rw [← Nat.sub_add_cancel hpos, Nat.add_mul, Nat.one_mul]
      have hstep := step_line hp (irqEnabled_of_ifl hq) hph hag
      rw [line_w4 hc, pollStep, if_neg htu, if_neg (by simp [hf]), if_pos hz] at hstep
      obtain ⟨u, n, h, hu⟩ := ih ({ s with agenda := seqTurns k ++ rest, tu := s.tu - 1, ts := s.cfg.subPerUnit }.goTo .w4)
        (inProgress_congr hp rfl rfl rfl rfl rfl) hq hf (by simp [hph]) h1 h1 (Nat.le_refl _)
        (by simp only [goTo_tu, goTo_ts, goTo_cfg, hsub]; omega) rfl
      exact ⟨u, n, by rw [stepN_succ hstep, h]; simp [State.goTo, hph], hu⟩
    · have hstep := step_line hp (irqEnabled_of_ifl hq) hph hag
      rw [line_w4 hc, pollStep, if_neg htu, if_neg (by simp [hf]), if_neg hz] at hstep
      obtain ⟨u, n, h, hu⟩ := ih ({ s with agenda := seqTurns k ++ rest, ts := s.ts - 1 }.goTo .w4)
        (inProgress_congr hp rfl rfl rfl rfl rfl) hq hf (by simp [hph]) h1
        (by simp only [goTo_ts]; omega) (by simp only [goTo_ts, goTo_cfg]; omega)
        (by simp only [goTo_tu, goTo_ts, goTo_cfg]; omega) rfl
      exact ⟨u, n, by rw [stepN_succ hstep, h]; simp [State.goTo, hph], hu⟩

end Sys2Proof.Machine
end

