-- ==== Sys2Proof/Laws/Control.lean ====
section
/-! SUPPORT. Where control goes: what a line of a procedure does to the position in the pseudocode, said once per procedure. -/

namespace Sys2Proof.Machine

/-- The lines between S1 and the end of S3, where the link is in output mode (40_byte_transport.md R116). -/
def sending (here : Label) : Prop := (∃ b, here = .s2 b) ∨ here = .s3

/-- A line of a procedure moves control to a position of the same operation, under the same line of the operation itself, leaves the
link in output mode only inside sendByte, and keeps what steers the loops. -/
structure Walk (opl : Byte) (here : Label) (rets : List Label) (s t : State) : Prop where
  pos : ∃ here' rets', t.ph = .run here' rets' ∧ positionOf opl here' rets' = true ∧ rootOf here' rets' = rootOf here rets ∧
    (t.mode = .txInt → sending here')
  keep : t.busy = s.busy ∧ t.idx = s.idx ∧ t.cnt = s.cnt ∧ t.rxlen = s.rxlen

/-- A position in a procedure has a return point, which follows a call of it and is a position itself. -/
theorem pos_proc {opl : Byte} {here : Label} {rets : List Label} {p : Procedure} (h : here.procedure = some p)
    (hp : positionOf opl here rets = true) (ho : here.operation = none) :
    ∃ back r, rets = back :: r ∧ returnsTo p back = true ∧ positionOf opl back r = true := by
  cases rets with
  | nil => simp [positionOf, ho] at hp
  | cons b r => simp [positionOf, h] at hp; exact ⟨b, r, rfl, hp⟩

/-- A line of a procedure under a return point that follows a call of it is a position. -/
theorem pos_cons {opl : Byte} {here back : Label} {p : Procedure} {r : List Label} (h : here.procedure = some p)
    (h1 : returnsTo p back = true) (h2 : positionOf opl back r = true) : positionOf opl here (back :: r) = true := by
  simp [positionOf, h, h1, h2]

/-- The lines of sendByte. -/
theorem walk_send {opl : Byte} {here : Label} {rets : List Label} {s t : State} (hph : s.ph = .run here rets)
    (hp : positionOf opl here rets = true) (hm : s.mode = .txInt → sending here)
        (h : sendByteStep here s = .next t) : Walk opl here rets s t := by
  cases here <;> simp only [sendByteStep, Host.Outcome.next.injEq, reduceCtorEq] at h
  case s1 b =>
    obtain ⟨back, r, rfl, h1, h2⟩ := pos_proc (p := .sendByte) rfl hp rfl
    subst h
    exact ⟨⟨.s2 b, back :: r, by simp [hph], pos_cons (p := .sendByte) rfl h1 h2, rfl, fun _ => .inl ⟨_, rfl⟩⟩, rfl, rfl, rfl, rfl⟩
  case s2 b =>
    obtain ⟨back, r, rfl, h1, h2⟩ := pos_proc (p := .sendByte) rfl hp rfl
    subst h
    exact ⟨⟨.s3, back :: r, by simp [hph], pos_cons (p := .sendByte) rfl h1 h2, rfl, fun _ => .inr rfl⟩, rfl, rfl, rfl, rfl⟩
  case s3 =>
    obtain ⟨back, r, rfl, h1, h2⟩ := pos_proc (p := .sendByte) rfl hp rfl
    subst h
    exact ⟨⟨.s4, back :: r, by simp [hph], pos_cons (p := .sendByte) rfl h1 h2, rfl, fun h => by simp at h⟩, rfl, rfl, rfl, rfl⟩
  case s4 =>
    obtain ⟨back, r, rfl, h1, h2⟩ := pos_proc (p := .sendByte) rfl hp rfl
    rw [ret_eq (here := .s4) (back := back) (rets := r) (by simp [hph])] at h
    simp only [Host.Outcome.next.injEq] at h
    subst h
    exact ⟨⟨_, _, rfl, h2, rfl, fun h => by simpa [sending] using hm h⟩, rfl, rfl, rfl, rfl⟩

/-- The lines of enableReceive. -/
theorem walk_enable {opl : Byte} {here : Label} {rets : List Label} {s t : State} (hph : s.ph = .run here rets)
    (hp : positionOf opl here rets = true) (hm : s.mode = .txInt → sending here)
        (h : enableReceiveStep here s = .next t) : Walk opl here rets s t := by
  cases here <;> simp only [enableReceiveStep, Host.Outcome.next.injEq, reduceCtorEq] at h
  case e1 =>
    obtain ⟨back, r, rfl, h1, h2⟩ := pos_proc (p := .enableReceive) rfl hp rfl
    subst h
    exact ⟨⟨.e2, back :: r, by simp [hph], pos_cons (p := .enableReceive) rfl h1 h2, rfl, fun h => by simp at h⟩, rfl, rfl, rfl, rfl⟩
  case e2 =>
    obtain ⟨back, r, rfl, h1, h2⟩ := pos_proc (p := .enableReceive) rfl hp rfl
    subst h
    exact ⟨⟨.e3, back :: r, by simp [hph], pos_cons (p := .enableReceive) rfl h1 h2, rfl, fun h => by simpa [sending] using hm h⟩, rfl,
        rfl, rfl, rfl⟩
  case e3 =>
    obtain ⟨back, r, rfl, h1, h2⟩ := pos_proc (p := .enableReceive) rfl hp rfl
    subst h
    exact ⟨⟨.e4, back :: r, by simp [hph], pos_cons (p := .enableReceive) rfl h1 h2, rfl, fun h => by simpa [sending] using hm h⟩, rfl,
        rfl, rfl, rfl⟩
  case e4 =>
    obtain ⟨back, r, rfl, h1, h2⟩ := pos_proc (p := .enableReceive) rfl hp rfl
    rw [ret_eq (here := .e4) (back := back) (rets := r) (by simp [hph])] at h
    simp only [Host.Outcome.next.injEq] at h
    subst h
    exact ⟨⟨_, _, rfl, h2, rfl, fun h => by simpa [sending] using hm h⟩, rfl, rfl, rfl, rfl⟩

/-- A return from a line that is not sending. -/
theorem walk_ret {opl : Byte} {here back : Label} {r : List Label} {s u t : State} (h : ret u = .next t)
    (hph : u.ph = .run here (back :: r)) (h2 : positionOf opl back r = true) (hm : s.mode = .txInt → sending here) (hs : ¬ sending here)
    (k : u.mode = s.mode ∧ u.busy = s.busy ∧ u.idx = s.idx ∧ u.cnt = s.cnt ∧ u.rxlen = s.rxlen) : Walk opl here (back :: r) s t := by
  rw [ret_eq hph] at h
  simp only [Host.Outcome.next.injEq] at h
  subst h
  exact ⟨⟨_, _, rfl, h2, rfl, fun h => absurd (hm (k.1 ▸ h)) hs⟩, k.2⟩

/-- A move from a line that is not sending. -/
theorem walk_go {opl : Byte} {here : Label} {rets : List Label} {s t : State} (here' : Label) (rets' : List Label)
    (hph : t.ph = .run here' rets') (hp : positionOf opl here' rets' = true) (hr : rootOf here' rets' = rootOf here rets)
    (hm : s.mode = .txInt → sending here) (hs : ¬ sending here)
    (k : t.mode = s.mode ∧ t.busy = s.busy ∧ t.idx = s.idx ∧ t.cnt = s.cnt ∧ t.rxlen = s.rxlen) : Walk opl here rets s t :=
  ⟨⟨here', rets', hph, hp, hr, fun h => absurd (hm (k.1 ▸ h)) hs⟩, k.2⟩

/-- The lines of readBlocking and of the procedure it calls. -/
theorem walk_blocking {opl : Byte} {here : Label} {rets : List Label} {s t : State} (hph : s.ph = .run here rets)
    (hp : positionOf opl here rets = true) (hm : s.mode = .txInt → sending here)
        (h : readBlockingStep here s = .next t) : Walk opl here rets s t := by
  cases here
  case b1 =>
    obtain ⟨back, r, rfl, h1, h2⟩ := pos_proc (p := .readBlocking) rfl hp rfl
    simp only [readBlockingStep, Host.Outcome.next.injEq] at h
    subst h
    exact walk_go .b2 (back :: r) (by simp [hph]) (pos_cons (p := .readBlocking) rfl h1 h2) rfl hm (by simp [sending]) ⟨rfl, rfl, rfl,
        rfl, rfl⟩
  case b2 =>
    obtain ⟨back, r, rfl, h1, h2⟩ := pos_proc (p := .readBlocking) rfl hp rfl
    simp only [readBlockingStep, Host.Outcome.next.injEq] at h
    subst h
    exact walk_go .e1 (.b3 :: back :: r) (by simp [hph]) (pos_cons (p := .enableReceive) rfl rfl (pos_cons (p := .readBlocking) rfl h1 h2)) rfl hm (by simp [sending]) ⟨rfl, rfl, rfl, rfl, rfl⟩
  case b3 =>
    obtain ⟨back, r, rfl, h1, h2⟩ := pos_proc (p := .readBlocking) rfl hp rfl
    simp only [readBlockingStep] at h
    split at h
    · exact walk_ret h hph h2 hm (by simp [sending]) ⟨rfl, rfl, rfl, rfl, rfl⟩
    · simp only [Host.Outcome.next.injEq] at h
      subst h
      exact walk_go .b3 (back :: r) (by simp [hph]) (pos_cons (p := .readBlocking) rfl h1 h2) rfl hm (by simp [sending]) ⟨rfl, rfl,
          rfl, rfl, rfl⟩
  all_goals exact walk_enable hph hp hm h

/-- The lines of readWithTimeout and of the procedure it calls. -/
theorem walk_timeout {opl : Byte} {here : Label} {rets : List Label} {s t : State} (hph : s.ph = .run here rets)
    (hp : positionOf opl here rets = true) (hm : s.mode = .txInt → sending here)
        (h : readWithTimeoutStep here s = .next t) : Walk opl here rets s t := by
  cases here
  case w1 u =>
    obtain ⟨back, r, rfl, h1, h2⟩ := pos_proc (p := .readWithTimeout) rfl hp rfl
    simp only [readWithTimeoutStep, Host.Outcome.next.injEq] at h
    subst h
    exact walk_go (.w2 u) (back :: r) (by simp [hph]) (pos_cons (p := .readWithTimeout) rfl h1 h2) rfl hm (by simp [sending]) ⟨rfl,
        rfl, rfl, rfl, rfl⟩
  case w2 u =>
    obtain ⟨back, r, rfl, h1, h2⟩ := pos_proc (p := .readWithTimeout) rfl hp rfl
    simp only [readWithTimeoutStep, Host.Outcome.next.injEq] at h
    subst h
    exact walk_go .e1 (.w3 u :: back :: r) (by simp [hph]) (pos_cons (p := .enableReceive) rfl rfl (pos_cons (p := .readWithTimeout) rfl h1 h2)) rfl hm (by simp [sending]) ⟨rfl, rfl, rfl, rfl, rfl⟩
  case w3 u =>
    obtain ⟨back, r, rfl, h1, h2⟩ := pos_proc (p := .readWithTimeout) rfl hp rfl
    simp only [readWithTimeoutStep, Host.Outcome.next.injEq] at h
    subst h
    exact walk_go .w4 (back :: r) (by simp [hph]) (pos_cons (p := .readWithTimeout) rfl h1 h2) rfl hm (by simp [sending]) ⟨rfl, rfl,
        rfl, rfl, rfl⟩
  case w4 =>
    obtain ⟨back, r, rfl, h1, h2⟩ := pos_proc (p := .readWithTimeout) rfl hp rfl
    simp only [readWithTimeoutStep, pollStep] at h
    have hs : ¬ sending .w4 := by simp [sending]
    split at h
    · exact walk_ret h (by simp [hph]) h2 hm hs ⟨rfl, rfl, rfl, rfl, rfl⟩
    · split at h
      · exact walk_ret h (by simp [hph]) h2 hm hs ⟨rfl, rfl, rfl, rfl, rfl⟩
      · split at h <;> simp only [Host.Outcome.next.injEq] at h <;> subst h <;>
          exact walk_go .w4 (back :: r) (by simp [hph]) (pos_cons (p := .readWithTimeout) rfl h1 h2) rfl hm hs ⟨rfl, rfl, rfl, rfl, rfl⟩
  all_goals exact walk_enable hph hp hm h

/-- The lines of sendAndCheckAck and of the procedures it calls. -/
theorem walk_ack {opl : Byte} {here : Label} {rets : List Label} {s t : State} (hph : s.ph = .run here rets)
    (hp : positionOf opl here rets = true) (hm : s.mode = .txInt → sending here)
        (h : sendAndCheckAckStep here s = .next t) : Walk opl here rets s t := by
  cases here
  case a1 b u e =>
    obtain ⟨back, r, rfl, h1, h2⟩ := pos_proc (p := .sendAndCheckAck) rfl hp rfl
    simp only [sendAndCheckAckStep, Host.Outcome.next.injEq] at h
    subst h
    exact walk_go (.s1 b) (.a2 u :: back :: r) (by simp [hph])
        (pos_cons (p := .sendByte) rfl rfl (pos_cons (p := .sendAndCheckAck) rfl h1 h2)) rfl hm (by simp [sending]) ⟨rfl, rfl, rfl,
        rfl, rfl⟩
  case a2 u =>
    obtain ⟨back, r, rfl, h1, h2⟩ := pos_proc (p := .sendAndCheckAck) rfl hp rfl
    simp only [sendAndCheckAckStep, Host.Outcome.next.injEq] at h
    subst h
    exact walk_go (.w1 u) (.a3 :: back :: r) (by simp [hph])
        (pos_cons (p := .readWithTimeout) rfl rfl (pos_cons (p := .sendAndCheckAck) rfl h1 h2)) rfl hm (by simp [sending]) ⟨rfl, rfl,
        rfl, rfl, rfl⟩
  case a3 =>
    obtain ⟨back, r, rfl, h1, h2⟩ := pos_proc (p := .sendAndCheckAck) rfl hp rfl
    exact walk_ret (show ret { s with wok := s.wok && s.rxb == s.expAck } = .next t from h)
        (by simp [hph]) h2 hm (by simp [sending]) ⟨rfl, rfl, rfl, rfl, rfl⟩
  all_goals first | exact walk_send hph hp hm h | exact walk_timeout hph hp hm h

/-- Arming a restricted mask leaves it restricted. -/
theorem mask_set (c : Config) (m : Byte) (h : m &&& ~~~(linkOnly c) = 0) : setLinkBit c m &&& ~~~(linkOnly c) = 0 := by
  unfold setLinkBit
  generalize linkOnly c = x at *
  apply BitVec.eq_of_getLsbD_eq
  intro k hk
  have := congrArg (fun v => v.getLsbD k) h
  simp [hk] at this ⊢
  intro h
  rcases h with h | h
  · exact this h
  · exact h

/-- Setting the link's bit keeps a mask inside its width, since `LINK_BIT < IEM_W`. -/
theorem width_setLinkBit {c : Config} {m : Byte} (hc : c.maskOk = true) (h : m &&& ~~~(maskBits c) = 0) :
    setLinkBit c m &&& ~~~(maskBits c) = 0 := by
  have hl : c.linkBit.val < c.iemWidth := by
    unfold Config.maskOk at hc
    simp at hc
    exact hc.1
  apply BitVec.eq_of_getLsbD_eq
  intro k hk
  have hb := congrArg (fun v => v.getLsbD k) h
  simp only [BitVec.getLsbD_and, BitVec.getLsbD_not, setLinkBit_getLsbD c m k hk, maskBits_getLsbD c k hk, hk] at hb ⊢
  by_cases he : k = c.linkBit.val
  · subst he
    simp [hl]
  · simpa [he] using hb

/-- So does clearing it. -/
theorem width_clearLinkBit {c : Config} {m : Byte} (h : m &&& ~~~(maskBits c) = 0) : clearLinkBit c m &&& ~~~(maskBits c) = 0 := by
  unfold clearLinkBit
  rw [BitVec.and_assoc, BitVec.and_comm (~~~linkOnly c), ← BitVec.and_assoc, h]
  exact BitVec.zero_and

/-- The restricted mask is inside its width. -/
theorem width_linkOnly {c : Config} (hc : c.maskOk = true) : linkOnly c &&& ~~~(maskBits c) = 0 := by
  have := width_setLinkBit (m := 0) hc (by simp)
  simpa [setLinkBit] using this

/-- A mask the host writes is inside its width. -/
theorem width_written (c : Config) (v : Byte) : v &&& maskBits c &&& ~~~(maskBits c) = 0 := by
  rw [BitVec.and_assoc]
  simp

/-- Disarming a restricted mask leaves it restricted. -/
theorem mask_clear (c : Config) (m : Byte) (h : m &&& ~~~(linkOnly c) = 0) : clearLinkBit c m &&& ~~~(linkOnly c) = 0 := by
  unfold clearLinkBit
  rw [BitVec.and_assoc, BitVec.and_self, h]

end Sys2Proof.Machine
end

