-- ==== Sys2Proof/Laws/PerInstr.lean ====
section
/-! SUPPORT. A statement about every operation as syntax, made operation by operation: the code its encoding carries. -/

namespace Sys2Proof.Laws.EncodedOpcode

/-- The encoding of an operation is a well-formed word that carries the operation's own code in bits 31:24 (30_encoding.md R85, R86). -/
def Statement (i : Instr) : Prop :=
  opcField (encode i) = i.opcode ∧ validOpcode i.opcode = true ∧ wfWord (encode i).toNat = true

/-- The code of a concatenation is its first byte, whatever the operands. -/
theorem opcField_opWord (opc a b c : Byte) : opcField (opWord opc a b c) = opc := by
  apply BitVec.eq_of_getLsbD_eq
  intro k hk
  simp only [opcField, opWord, BitVec.getLsbD_extractLsb', hk, decide_true, Bool.true_and]
  rw [BitVec.getLsbD_append, if_neg (by omega), BitVec.getLsbD_append, if_neg (by omega), BitVec.getLsbD_append, if_neg (by omega)]
  congr 1
  omega

/-- The word check reads the code only. -/
theorem wfWord_toNat (w : OpWord) : wfWord w.toNat = validOpcode (opcField w) := by
  have h : BitVec.ofNat 8 (w.toNat / 2 ^ 24) = opcField w := by
    apply BitVec.eq_of_toNat_eq
    simp [opcField, BitVec.extractLsb'_toNat, Nat.shiftRight_eq_div_pow]
  unfold wfWord
  rw [h]
  have := w.isLt
  simp [this]

theorem of_word {i : Instr} (a b c : Byte) (h : encode i = opWord i.opcode a b c) (hv : validOpcode i.opcode = true) :
    Statement i :=
  ⟨by rw [h, opcField_opWord], hv, by rw [wfWord_toNat, h, opcField_opWord, hv]⟩

theorem sendb (b : Byte) : Statement (.sendb b) := of_word b 0x00 0x00 rfl rfl

theorem enrx : Statement .enrx := of_word 0x00 0x00 0x00 rfl rfl

theorem rdblk : Statement .rdblk := of_word 0x00 0x00 0x00 rfl rfl

theorem rdto (units : Byte) : Statement (.rdto units) := of_word units 0x00 0x00 rfl rfl

theorem sndack (byte units expected : Byte) : Statement (.sndack byte units expected) := of_word byte units expected rfl rfl

theorem psend (command : Byte) : Statement (.psend command) := of_word command 0x00 0x00 rfl rfl

theorem precv (command : Byte) : Statement (.precv command) := of_word command 0x00 0x00 rfl rfl

theorem boot : Statement .boot := of_word 0x00 0x00 0x00 rfl rfl

end Sys2Proof.Laws.EncodedOpcode
end

