-- ==== Sys2Proof/Laws/Encoding.lean ====
section
/-! SUPPORT. The fields of a concatenation, and which codes decode. -/

namespace Sys2Proof.Laws

open EncodedOpcode

theorem aField_opWord (opc a b c : Byte) : aField (opWord opc a b c) = a := by
  apply BitVec.eq_of_getLsbD_eq
  intro k hk
  simp only [aField, opWord, BitVec.getLsbD_extractLsb', hk, decide_true, Bool.true_and]
  rw [BitVec.getLsbD_append, if_neg (by omega), BitVec.getLsbD_append, if_neg (by omega), BitVec.getLsbD_append, if_pos (by omega)]
  congr 1
  omega

theorem bField_opWord (opc a b c : Byte) : bField (opWord opc a b c) = b := by
  apply BitVec.eq_of_getLsbD_eq
  intro k hk
  simp only [bField, opWord, BitVec.getLsbD_extractLsb', hk, decide_true, Bool.true_and]
  rw [BitVec.getLsbD_append, if_neg (by omega), BitVec.getLsbD_append, if_pos (by omega)]
  congr 1
  omega

theorem cField_opWord (opc a b c : Byte) : cField (opWord opc a b c) = c := by
  apply BitVec.eq_of_getLsbD_eq
  intro k hk
  simp only [cField, opWord, BitVec.getLsbD_extractLsb', hk, decide_true, Bool.true_and]
  rw [BitVec.getLsbD_append, if_pos (by omega)]
  congr 1
  omega

/-- The decoder on a concatenation is the decoder on its fields (30_encoding.md R85). -/
theorem decodeWord_opWord (opc a b c : Byte) : decodeWord (opWord opc a b c) = decodeFields opc a b c := by
  rw [decodeWord, opcField_opWord, aField_opWord, bField_opWord, cField_opWord]

/-- Which codes decode (R86, R90). -/
theorem decodeFields_ok_iff (opc a b c : Byte) : (∃ i, decodeFields opc a b c = .ok i) ↔ 1 ≤ opc.toNat ∧ opc.toNat ≤ 8 := by
  generalize hn : opc.toNat = n
  constructor
  · rintro ⟨i, h⟩
    unfold decodeFields at h
    rw [hn] at h
    split at h <;> first | omega | simp at h
  · rintro ⟨h1, h2⟩
    unfold decodeFields
    rw [hn]
    interval_cases n <;> exact ⟨_, rfl⟩

end Sys2Proof.Laws
end

