-- ==== Sys2Proof/Laws/Lines.lean ====
section
/-! SUPPORT. What a line of an operation can do, said once for every operation and every line, so that no rule over all steps unfolds the
pseudocode again. -/

namespace Sys2Proof.Machine

/-- What a line `here` that takes `s` to `t` can have done. -/
structure LineEffect (here : Label) (s t : State) : Prop where
  cfg : t.cfg = s.cfg
  agenda : t.agenda = s.agenda
  host : t.txbuf = s.txbuf ∧ t.txlen = s.txlen ∧ t.opc = s.opc ∧ t.argA = s.argA ∧ t.argB = s.argB ∧ t.argC = s.argC
  latches : t.opl = s.opl ∧ t.la = s.la ∧ t.lb = s.lb ∧ t.lc = s.lc
  rxb : t.rxb = s.rxb
  rxlog : t.rxlog = s.rxlog
  rxf : t.rxf = s.rxf ∨ t.rxf = false
  gie : t.gie = s.gie ∨ t.gie = true
  txlog : t.txlog = s.txlog ∨ ∃ b, here = .s2 b ∧ t.txlog = s.txlog ++ [b]
  saved : t.saved = s.saved ∨ t.saved = s.iem ∧ (here = .p1 ∨ here = .v1 ∨ here = .h1)
  iem : t.iem = s.iem ∨ (here = .e2 ∧ t.iem = setLinkBit s.cfg s.iem) ∨
    ((here = .p2 ∨ here = .v2 ∨ here = .h2) ∧ t.iem = linkOnly s.cfg) ∨
    ((here = .p11 ∨ here = .v11 ∨ here = .h14) ∧ t.iem = s.saved)
  rxbuf : t.rxbuf = s.rxbuf ∧ (t.rxlen = s.rxlen ∨ here = .v3 ∧ t.rxlen = 0) ∨
    here = .v7 ∧ s.wok = true ∧ s.rxlen.toNat < Config.rxCap ∧ t.rxbuf = s.rxbuf.write s.rxlen.toNat s.rxb ∧ t.rxlen = s.rxlen + 1
  mode : t.mode = s.mode ∨ (∃ b, here = .s1 b) ∨ t.mode = .rxExt
  busy : t.busy = s.busy ∨ t.busy = false ∧ t.ph = .idle

theorem LineEffect.of_ret {here : Label} {s t u : State} (h : ret t = .next u)
    (hf : ∀ p, LineEffect here s { t with ph := p }) : LineEffect here s u := by
  obtain ⟨_, back, rets, -, rfl⟩ := ret_cases h
  exact hf _

/-! ### The procedures -/

theorem sendByteStep_effect {here : Label} {s t : State} (h : sendByteStep here s = .next t) : LineEffect here s t := by
  cases here <;> simp only [sendByteStep, Host.Outcome.next.injEq, reduceCtorEq] at h
  case s4 => exact LineEffect.of_ret h fun p => by constructor <;> simp
  all_goals (subst h; constructor <;> simp)

theorem enableReceiveStep_effect {here : Label} {s t : State} (h : enableReceiveStep here s = .next t) : LineEffect here s t := by
  cases here <;> simp only [enableReceiveStep, Host.Outcome.next.injEq, reduceCtorEq] at h
  case e4 => exact LineEffect.of_ret h fun p => by constructor <;> simp
  all_goals (subst h; constructor <;> simp)

theorem readBlockingStep_effect {here : Label} {s t : State} (h : readBlockingStep here s = .next t) : LineEffect here s t := by
  cases here
  case b1 | b2 =>
    simp only [readBlockingStep, Host.Outcome.next.injEq] at h
    subst h
    constructor <;> simp
  case b3 =>
    simp only [readBlockingStep] at h
    split at h
    · exact LineEffect.of_ret h fun p => by constructor <;> simp
    · simp only [Host.Outcome.next.injEq] at h
      subst h
      constructor <;> simp
  all_goals exact enableReceiveStep_effect h

theorem pollStep_effect {s t : State} (h : pollStep s = .next t) : LineEffect .w4 s t := by
  unfold pollStep at h
  split at h
  · exact LineEffect.of_ret h fun p => by constructor <;> simp
  · split at h
    · exact LineEffect.of_ret h fun p => by constructor <;> simp
    · split at h <;> simp only [Host.Outcome.next.injEq] at h <;> subst h <;> constructor <;> simp

theorem readWithTimeoutStep_effect {here : Label} {s t : State} (h : readWithTimeoutStep here s = .next t) :
    LineEffect here s t := by
  cases here
  case w1 | w2 | w3 =>
    simp only [readWithTimeoutStep, Host.Outcome.next.injEq] at h
    subst h
    constructor <;> simp
  case w4 => exact pollStep_effect h
  all_goals exact enableReceiveStep_effect h

theorem checkAckStep_effect {here : Label} {s t : State} (h : checkAckStep here s = .next t) : LineEffect here s t := by
  cases here
  case a3 => exact LineEffect.of_ret h fun p => by constructor <;> simp
  all_goals first | exact sendByteStep_effect h | exact readWithTimeoutStep_effect h

theorem sendAndCheckAckStep_effect {here : Label} {s t : State} (h : sendAndCheckAckStep here s = .next t) :
    LineEffect here s t := by
  cases here
  case a1 | a2 =>
    simp only [sendAndCheckAckStep, Host.Outcome.next.injEq] at h
    subst h
    constructor <;> simp
  all_goals exact checkAckStep_effect h

/-! ### The operations -/

theorem psendStep_effect {here : Label} {s t : State} (h : psendStep here s = .next t) : LineEffect here s t := by
  cases here
  case p4 | p5 | p6 | p8 =>
    simp only [psendStep] at h
    split at h <;> simp only [Host.Outcome.next.injEq] at h <;> subst h <;> constructor <;> simp
  case p7 =>
    simp only [psendStep, sendPayloadByte] at h
    split at h
    · simp only [Host.Outcome.next.injEq] at h
      subst h
      constructor <;> simp
    · simp at h
  case p1 | p2 | p3 | p9 | p10 | p11 | p12 =>
    simp only [psendStep, Host.Outcome.next.injEq] at h
    subst h
    constructor <;> simp
  all_goals exact sendAndCheckAckStep_effect h

theorem precvStep_effect {here : Label} {s t : State} (h : precvStep here s = .next t) : LineEffect here s t := by
  cases here
  case v5 =>
    simp only [precvStep, checkLength, Host.Outcome.next.injEq] at h
    subst h
    (repeat' split) <;> constructor <;> simp
  case v6 =>
    simp only [precvStep] at h
    split at h <;> simp only [Host.Outcome.next.injEq] at h <;> subst h <;> constructor <;> simp
  case v7 =>
    simp only [precvStep, frameByte] at h
    split at h
    · rename_i hw
      split at h
      · rename_i hl
        simp only [Host.Outcome.next.injEq] at h
        subst h
        constructor <;> simp [hw, hl]
      · simp at h
    · simp only [Host.Outcome.next.injEq] at h
      subst h
      constructor <;> simp
  case v1 | v2 | v3 | v4 | v8 | v9 | v10 | v11 | v12 =>
    simp only [precvStep, Host.Outcome.next.injEq] at h
    subst h
    constructor <;> simp
  all_goals first | exact sendByteStep_effect h | exact readWithTimeoutStep_effect h

theorem bootStep_effect {here : Label} {s t : State} (h : bootStep here s = .next t) : LineEffect here s t := by
  cases here
  case h11 =>
    simp only [bootStep, countdownCheck, Host.Outcome.next.injEq] at h
    subst h
    (repeat' split) <;> constructor <;> simp
  case h1 | h2 | h3 | h4 | h5 | h6 | h7 | h8 | h9 | h10 | h12 | h13 | h14 | h15 =>
    simp only [bootStep, Host.Outcome.next.injEq] at h
    subst h
    constructor <;> simp [verdict]
  all_goals first | exact sendByteStep_effect h | exact readBlockingStep_effect h

/-- What any line of any operation can have done. -/
theorem lineStep_effect {i : Instr} {here : Label} {s t : State} (h : lineStep i here s = .next t) : LineEffect here s t := by
  cases i with
  | sendb b =>
    cases here
    case t1 | t2 =>
      simp only [lineStep, sendbStep, Host.Outcome.next.injEq] at h
      subst h
      constructor <;> simp
    all_goals exact sendByteStep_effect h
  | enrx =>
    cases here
    case n1 | n2 =>
      simp only [lineStep, enrxStep, Host.Outcome.next.injEq] at h
      subst h
      constructor <;> simp
    all_goals exact enableReceiveStep_effect h
  | rdblk =>
    cases here
    case k1 | k2 =>
      simp only [lineStep, rdblkStep, Host.Outcome.next.injEq] at h
      subst h
      constructor <;> simp
    all_goals exact readBlockingStep_effect h
  | rdto units =>
    cases here
    case o1 | o2 =>
      simp only [lineStep, rdtoStep, Host.Outcome.next.injEq] at h
      subst h
      constructor <;> simp
    all_goals exact readWithTimeoutStep_effect h
  | sndack byte units expected =>
    cases here
    case q1 | q2 =>
      simp only [lineStep, sndackStep, Host.Outcome.next.injEq] at h
      subst h
      constructor <;> simp
    all_goals exact sendAndCheckAckStep_effect h
  | psend command => exact psendStep_effect h
  | precv command => exact precvStep_effect h
  | boot => exact bootStep_effect h

/-- What an issue changes: the registers of the issue and `PH`, nothing of the link, the buffers or the working registers. -/
theorem issueState_frame (i : Instr) (s : State) :
    ∃ o p a b c x d r e f, issueState i s =
      { s with opc := o, opl := p, la := a, lb := b, lc := c, busy := x, done := d, res := r, err := e, ph := f } := by
  cases i <;> try exact ⟨_, _, _, _, _, _, _, _, _, _, rfl⟩
  unfold issueState issuePsend
  simp only
  split <;> exact ⟨_, _, _, _, _, _, _, _, _, _, rfl⟩

/-- What a turn of PEER does. -/
theorem deliver_cases (b : Byte) (s : State) :
    s.mode = .rxExt ∧ deliver b s = { s with sdr := b, ifl := true, rxlog := s.rxlog ++ [b] } ∨
    s.mode = .txInt ∧ deliver b s = s := by
  unfold deliver
  split <;> simp [*]

/-- What an idle store of HOST does: nothing, or one of the registers marked W (20_memory.md R66). -/
theorem hostStore_cases (off : Offset) (v : Byte) (s : State) :
    hostStore off v s = s ∨
    (∃ a b c, hostStore off v s = { s with argA := a, argB := b, argC := c }) ∨
    (off = 0x05 ∧ hostStore off v s = { s with rxf := v.getLsbD 0, gie := v.getLsbD 2 }) ∨
    (off = 0x06 ∧ hostStore off v s = { s with iem := v &&& maskBits s.cfg }) ∨
    (off = 0x0A ∧ hostStore off v s = { s with txlen := v }) ∨
    ∃ k, k < s.cfg.txCap ∧ off.toNat = 0x20 + k ∧ hostStore off v s = { s with txbuf := s.txbuf.write k v } := by
  unfold hostStore
  split
  · exact .inr (.inl ⟨_, _, _, rfl⟩)
  · exact .inr (.inl ⟨_, _, _, rfl⟩)
  · exact .inr (.inl ⟨_, _, _, rfl⟩)
  · exact .inr (.inr (.inl ⟨BitVec.eq_of_toNat_eq ‹_›, rfl⟩))
  · exact .inr (.inr (.inr (.inl ⟨BitVec.eq_of_toNat_eq ‹_›, rfl⟩)))
  · exact .inr (.inr (.inr (.inr (.inl ⟨BitVec.eq_of_toNat_eq ‹_›, rfl⟩))))
  · split
    · exact .inr (.inr (.inr (.inr (.inr ⟨off.toNat - 0x20, by omega, by omega, rfl⟩))))
    · exact .inl rfl

end Sys2Proof.Machine
end

