-- ==== Sys2Proof/Laws/Memory.lean ====
section
/-! SUPPORT. The laws of a buffer: read after write, a write leaves every other index alone, and a write keeps the canonical form and
the capacity. -/

namespace Sys2Proof.Machine

@[simp] theorem read_nil (a : Nat) : Memory.read [] a = unlistedByte := rfl

@[simp] theorem wf_nil : Memory.wf [] = true := rfl

@[simp] theorem within_nil (cap : Nat) : Memory.within cap [] = true := rfl

theorem wf_cons (k : Nat) (x : Byte) (rest : Memory) :
    Memory.wf ((k, x) :: rest) = true ↔ x ≠ unlistedByte ∧ (∀ c ∈ rest, k < c.1) ∧ Memory.wf rest = true := by
  simp [Memory.wf, and_assoc]

/-- An index below every listed one reads as unlisted. -/
theorem read_below (m : Memory) (a : Nat) (h : ∀ c ∈ m, a < c.1) : Memory.read m a = unlistedByte := by
  induction m with
  | nil => rfl
  | cons c rest ih =>
    obtain ⟨k, x⟩ := c
    have hk : a < k := h (k, x) (by simp)
    have hr : ∀ c ∈ rest, a < c.1 := fun c hc => h c (by simp [hc])
    simp [Memory.read, Nat.ne_of_gt hk, ih hr]

/-- In a canonical buffer, the byte written is the byte read. -/
theorem read_write_same (m : Memory) (a : Nat) (v : Byte) (h : m.wf = true) : (m.write a v).read a = v := by
  induction m with
  | nil => by_cases hv : v = unlistedByte <;> simp [Memory.write, Memory.read, hv]
  | cons c rest ih =>
    obtain ⟨k, x⟩ := c
    obtain ⟨-, hlt, hwf⟩ := (wf_cons k x rest).mp h
    have below : ∀ n, n ≤ k → Memory.read rest n = unlistedByte :=
      fun n hn => read_below rest n fun c hc => Nat.lt_of_le_of_lt hn (hlt c hc)
    rcases Nat.lt_trichotomy a k with hak | rfl | hka
    · have hka : k ≠ a := by omega
      by_cases hv : v = unlistedByte <;> simp [Memory.write, Memory.read, hak, hv, hka, below a (by omega)]
    · by_cases hv : v = unlistedByte <;> simp [Memory.write, Memory.read, hv, below a (by omega)]
    · have h1 : ¬ a < k := by omega
      have h2 : a ≠ k := by omega
      simp [Memory.write, Memory.read, h1, h2, h2.symm, ih hwf]

/-- A write leaves every other index as it was. -/
theorem read_write_other (m : Memory) (a b : Nat) (v : Byte) (hab : b ≠ a) : (m.write a v).read b = m.read b := by
  induction m with
  | nil => by_cases hv : v = unlistedByte <;> simp [Memory.write, Memory.read, hv, hab.symm]
  | cons c rest ih =>
    obtain ⟨k, x⟩ := c
    rcases Nat.lt_trichotomy a k with hak | rfl | hka
    · by_cases hv : v = unlistedByte <;> simp [Memory.write, Memory.read, hak, hv, hab.symm]
    · by_cases hv : v = unlistedByte <;> simp [Memory.write, Memory.read, hv, hab.symm]
    · have h1 : ¬ a < k := by omega
      have h2 : a ≠ k := by omega
      simp [Memory.write, Memory.read, h1, h2, ih]

/-- Every entry after a write was there before, or is the byte written. -/
theorem mem_write (m : Memory) (a : Nat) (v : Byte) (c : Host.Cell) (h : c ∈ m.write a v) : c ∈ m ∨ c.1 = a := by
  induction m with
  | nil =>
    by_cases hv : v = unlistedByte
    · simp [Memory.write, hv] at h
    · simp [Memory.write, hv] at h; simp [h]
  | cons d rest ih =>
    obtain ⟨k, x⟩ := d
    unfold Memory.write at h
    split at h
    · split at h
      · exact .inl h
      · rcases List.mem_cons.mp h with rfl | h
        · exact .inr rfl
        · exact .inl h
    · split at h
      · split at h
        · exact .inl (List.mem_cons_of_mem _ h)
        · rcases List.mem_cons.mp h with rfl | h
          · exact .inr rfl
          · exact .inl (List.mem_cons_of_mem _ h)
      · rcases List.mem_cons.mp h with rfl | h
        · exact .inl (by simp)
        · rcases ih h with h | h
          · exact .inl (List.mem_cons_of_mem _ h)
          · exact .inr h

/-- A write keeps the canonical form. -/
theorem wf_write (m : Memory) (a : Nat) (v : Byte) (h : m.wf = true) : (m.write a v).wf = true := by
  induction m with
  | nil => by_cases hv : v = unlistedByte <;> simp [Memory.write, Memory.wf, hv]
  | cons c rest ih =>
    obtain ⟨k, x⟩ := c
    obtain ⟨hx, hlt, hwf⟩ := (wf_cons k x rest).mp h
    unfold Memory.write
    split
    · rename_i hak
      split
      · exact h
      · rename_i hv
        refine (wf_cons _ _ _).mpr ⟨hv, fun c hc => ?_, h⟩
        rcases List.mem_cons.mp hc with rfl | hc
        · exact hak
        · exact Nat.lt_trans hak (hlt c hc)
    · split
      · rename_i hak
        subst hak
        split
        · exact hwf
        · rename_i hv
          exact (wf_cons _ _ _).mpr ⟨hv, hlt, hwf⟩
      · refine (wf_cons _ _ _).mpr ⟨hx, fun c hc => ?_, ih hwf⟩
        rcases mem_write rest a v c hc with hc | hc
        · exact hlt c hc
        · omega

/-- A write at an index below the capacity stays inside it. -/
theorem within_write (cap : Nat) (m : Memory) (a : Nat) (v : Byte) (ha : a < cap) (h : m.within cap = true) :
    (m.write a v).within cap = true := by
  simp only [Memory.within, List.all_eq_true, decide_eq_true_eq] at h ⊢
  intro c hc
  rcases mem_write m a v c hc with hc | hc
  · exact h c hc
  · omega

/-- Two canonical buffers that read alike everywhere are the same data. -/
theorem eq_of_read_eq (m n : Memory) (hm : m.wf = true) (hn : n.wf = true) (h : ∀ a, m.read a = n.read a) : m = n := by
  induction m generalizing n with
  | nil =>
    cases n with
    | nil => rfl
    | cons c rest =>
      obtain ⟨k, x⟩ := c
      obtain ⟨hx, -, -⟩ := (wf_cons k x rest).mp hn
      have := h k
      simp [Memory.read] at this
      exact absurd this.symm hx
  | cons c rest ih =>
    obtain ⟨k, x⟩ := c
    obtain ⟨hx, hlt, hwf⟩ := (wf_cons k x rest).mp hm
    cases n with
    | nil =>
      have := h k
      simp [Memory.read] at this
      exact absurd this hx
    | cons d rest' =>
      obtain ⟨k', x'⟩ := d
      obtain ⟨hx', hlt', hwf'⟩ := (wf_cons k' x' rest').mp hn
      have hk : k = k' := by
        rcases Nat.lt_trichotomy k k' with hl | he | hg
        · have h1 := h k
          have h2 := read_below rest' k fun c hc => Nat.lt_trans hl (hlt' c hc)
          simp [Memory.read, Nat.ne_of_gt hl, h2] at h1
          exact absurd h1 hx
        · exact he
        · have h1 := h k'
          have h2 := read_below rest k' fun c hc => Nat.lt_trans hg (hlt c hc)
          simp [Memory.read, Nat.ne_of_gt hg, h2] at h1
          exact absurd h1.symm hx'
      subst hk
      have hxx : x = x' := by simpa [Memory.read] using h k
      subst hxx
      rw [ih rest' hwf hwf' fun a => ?_]
      by_cases hka : k = a
      · subst hka
        rw [read_below rest k hlt, read_below rest' k hlt']
      · simpa [Memory.read, hka] using h a

/-- The buffers after reset have the canonical form. -/
theorem reset_buffers_wf : State.reset.rxbuf.wf = true ∧ State.reset.txbuf.wf = true := ⟨rfl, rfl⟩

end Sys2Proof.Machine
end

