-- ==== Sys2Proof/Laws/Loops.lean ====
section
/-! SUPPORT. The loops of PSEND, PRECV and BOOT, each induction done once: from the loop's head, with a well-timed peer, to its end. -/

namespace Sys2Proof.Machine

/-- The payload bytes PSEND has still to send from an index on. -/
def payloadFrom (m : Memory) (k n : Nat) : List Byte := (List.range' k n).map m.read

/-- PSEND's payload loop from P6, with a peer that acknowledges each byte (42_packet_protocol.md R156). -/
theorem reaches_payload {c : Byte} {rest : List Turn} (n : Nat) : ∀ s : State, InProgress (.psend c) s → s.ifl = false →
    s.ph = .run .p6 [] → s.txlen.toNat ≤ s.cfg.txMaxPayload → s.idx.toNat + n = s.txlen.toNat →
    s.agenda = payloadTurns (List.replicate n s.cfg.codes.ok) ++ rest →
    ∃ t, Reaches s t ∧ t = { s with
      agenda := rest, idx := s.txlen, acc := s.acc + byteSum (payloadFrom s.txbuf s.idx.toNat n)
      txlog := s.txlog ++ payloadFrom s.txbuf s.idx.toNat n, rxlog := s.rxlog ++ List.replicate n s.cfg.codes.ok
      mode := t.mode, gie := t.gie, rxf := t.rxf, rxb := t.rxb, sdr := t.sdr, iem := t.iem, tu := t.tu, ts := t.ts
      wok := t.wok, draws := t.draws, expAck := t.expAck } := by
  induction n with
  | zero =>
    intro s hp hq hph hl hidx hag
    refine ⟨s, Reaches.refl s, ?_⟩
    have h0 : s.idx = s.txlen := BitVec.eq_of_toNat_eq (by omega)
    have h1 : s.agenda = rest := by simpa [payloadTurns] using hag
    subst h1
    cases s
    simpa [payloadFrom, byteSum] using h0
  | succ n ih =>
    intro s hp hq hph hl hidx hag
    have hag : s.agenda = .seq :: .seq :: (ackTurns s.cfg.codes.ok ++ (.seq :: (payloadTurns (List.replicate n s.cfg.codes.ok) ++ rest))) := by
      simp [hag, payloadTurns, List.replicate_succ]
    have hne : s.idx ≠ s.txlen := fun h => by rw [h] at hidx; omega
    have hlt : s.idx.toNat < s.cfg.txCap := by
      unfold Config.txMaxPayload at hl
      omega
    obtain ⟨m, d, h⟩ := reaches_sendAndCheckAck (i := .psend c)
      (s := { s with agenda := ackTurns s.cfg.codes.ok ++ (.seq :: (payloadTurns (List.replicate n s.cfg.codes.ok) ++ rest))
                     acc := s.acc + txElement s, ph := .run (.a1 (txElement s) Config.tSend s.cfg.codes.ok) [.p8] })
      rfl hp (irqEnabled_of_ifl hq) (by decide) rfl rfl
    have hidx' : (s.idx + 1).toNat = s.idx.toNat + 1 := by simp; omega
    obtain ⟨t, ht, he⟩ := ih { s with
        agenda := payloadTurns (List.replicate n s.cfg.codes.ok) ++ rest, ph := .run .p6 [], mode := .rxExt, ifl := false, gie := true
        rxf := true, rxb := s.cfg.codes.ok, sdr := s.cfg.codes.ok, rxlog := s.rxlog ++ [s.cfg.codes.ok]
        txlog := s.txlog ++ [txElement s], iem := m, tu := Config.tSend, ts := s.cfg.subPerUnit, wok := true, draws := d
        expAck := s.cfg.codes.ok, acc := s.acc + txElement s, idx := s.idx + 1 } hp rfl rfl hl (by show (s.idx + 1).toNat + n = s.txlen.toNat; omega) rfl
    refine ⟨t, ?_, he.trans ?_⟩
    · refine Reaches.line hp (irqEnabled_of_ifl hq) hph hag (by simp only [lineStep, psendStep]; rw [if_neg hne]) ?_
      refine Reaches.line (i := .psend c) hp (irqEnabled_of_ifl hq) rfl rfl (by simp only [lineStep, psendStep, sendPayloadByte]; exact if_pos hlt) ?_
      refine Reaches.trans (by simpa [State.call, State.goTo, hph, txElement] using h) ?_
      refine Reaches.line (i := .psend c) hp (irqEnabled_of_ifl rfl) rfl rfl (by simp only [lineStep, psendStep]; exact if_pos (by simp)) ?_
      simpa [State.goTo, txElement] using ht
    · have e : payloadFrom s.txbuf s.idx.toNat (n + 1) = txElement s :: payloadFrom s.txbuf (s.idx + 1).toNat n := by
        rw [hidx']; simp [payloadFrom, List.range'_succ, txElement]
      simp [e, byteSum, BitVec.add_assoc, List.replicate_succ, hph, hq]

/-- A run that begins with the IRQ step. -/
theorem Reaches.irq {s u : State} (hq : irqEnabled s = true) (hr : ∀ rest, s.agenda ≠ .reset :: rest) (h : Reaches (irqStep s) u) :
    Reaches s u :=
  Reaches.head (step_irq hq hr) h

/-- A run continued. -/
theorem Reaches.via {s u : State} {P : State → Prop} (h : Reaches s u) (h' : ∃ t, Reaches u t ∧ P t) : ∃ t, Reaches s t ∧ P t := by
  obtain ⟨t, a, b⟩ := h'; exact ⟨t, h.trans a, b⟩

/-- A run whose first step is a line of the operation in progress. -/
theorem Reaches.lineVia {i : Instr} {s t : State} {P : State → Prop} {here : Label} {rets : List Label} {rest : List Turn}
    (hp : InProgress i s)
    (hq : irqEnabled s = false) (hph : s.ph = .run here rets) (hag : s.agenda = .seq :: rest)
    (hl : lineStep i here { s with agenda := rest } = .next t) (h : ∃ u, Reaches t u ∧ P u) : ∃ u, Reaches s u ∧ P u := by
  obtain ⟨u, a, b⟩ := h; exact ⟨u, Reaches.line hp hq hph hag hl a, b⟩

/-- All of the payload. -/
theorem payloadFrom_zero (s : State) : payloadFrom s.txbuf 0 s.txlen.toNat = payloadOf s := by
  simp [payloadFrom, payloadOf, List.range_eq_range']

/-- A protocol operation opens: save, restrict, and the interrupt that may follow (42_packet_protocol.md R155). -/
theorem reaches_opened {i : Instr} {s : State} {l1 l2 l3 : Label} {rest : List Turn} (hp : InProgress i s) (hq : irqEnabled s = false)
    (hph : s.ph = .run l1 [])
   (h1 : ∀ s, lineStep i l1 s = .next ((saveMask s).goTo l2)) (h2 : ∀ s, lineStep i l2 s = .next ((restrictMask s).goTo l3))
    (hag : s.agenda = .seq :: .seq :: rest) (hr : ∀ l, rest ≠ .reset :: l) :
   ∃ (m : Byte) (f : Bool × Bool) (x : Byte), Reaches s { s with agenda := rest, ph := .run l3 [], saved := s.iem, iem := m, ifl := f.1, rxf := f.2, rxb := x } ∧ (f.1 && s.gie && m.getLsbD s.cfg.linkBit.val) = false := by
  have a : Reaches s { s with agenda := rest, ph := .run l3 [], saved := s.iem, iem := linkOnly s.cfg } := by
    refine Reaches.line hp hq hph hag (h1 _) ?_
    refine Reaches.line (inProgress_congr hp rfl rfl rfl rfl rfl) (irqEnabled_congr hq rfl rfl rfl rfl) rfl rfl (h2 _) ?_
    simpa [State.goTo, saveMask, restrictMask, hph] using Reaches.refl _
  by_cases hi : irqEnabled { s with agenda := rest, ph := .run l3 [], saved := s.iem, iem := linkOnly s.cfg } = true
  · refine ⟨clearLinkBit s.cfg (linkOnly s.cfg), (false, true), s.sdr, a.trans (Reaches.irq hi hr ?_), by simp⟩
    exact Reaches.refl _
  · refine ⟨linkOnly s.cfg, (s.ifl, s.rxf), s.rxb, a, ?_⟩
    simpa [irqEnabled, armed] using hi

/-- The buffer with bytes appended from an index on. -/
def appendAll (m : Memory) (k : Nat) : List Byte → Memory
  | [] => m
  | b :: bs => appendAll (m.write k b) (k + 1) bs

/-- Elements outside those appended are kept. -/
theorem appendAll_low (bs : List Byte) : ∀ (m : Memory) (k a : Nat), a < k ∨ k + bs.length ≤ a → (appendAll m k bs).read a = m.read a := by
  induction bs with
  | nil => intros; rfl
  | cons b bs ih =>
    intro m k a h
    simp only [appendAll]
    rw [ih _ _ _ (by simp at h; omega), read_write_other _ _ _ _ (by simp at h; omega)]

/-- The elements appended. -/
theorem appendAll_read (bs : List Byte) : ∀ (m : Memory) (k : Nat), m.wf = true → ∀ (j : Nat)
    (h : j < bs.length), (appendAll m k bs).read (k + j) = bs[j] := by
  induction bs with
  | nil => intro m k _ j h; simp at h
  | cons b bs ih =>
    intro m k hm j h
    simp only [appendAll]
    cases j with
    | zero => rw [appendAll_low _ _ _ _ (by omega), Nat.add_zero, read_write_same _ _ _ hm]; rfl
    | succ j =>
      have := ih (m.write k b) (k + 1) (wf_write _ _ _ hm) j (by simp at h; omega)
      rw [show k + (j + 1) = k + 1 + j by omega, this]; rfl

/-- PRECV's loop from V6, with a peer that sends each byte in time (R159). -/
theorem reaches_frame {c : Byte} {rest : List Turn} (bs : List Byte) : ∀ s : State, InProgress (.precv c) s → s.ifl = false →
    s.ph = .run .v6 [] → s.cnt.toNat = bs.length → s.rxlen.toNat + bs.length ≤ 13 →
    s.agenda = frameTurns bs ++ rest →
    ∃ t, Reaches s t ∧ (s.gie = true → t.gie = true) ∧ t = { s with
      agenda := rest, acc := s.acc + byteSum bs, cnt := 0, rxlen := s.rxlen + BitVec.ofNat 8 bs.length, rxbuf := appendAll s.rxbuf s.rxlen.toNat bs
      rxlog := s.rxlog ++ bs
      mode := t.mode, gie := t.gie, rxf := t.rxf, rxb := t.rxb, sdr := t.sdr, iem := t.iem, tu := t.tu, ts := t.ts
      wok := t.wok, draws := t.draws } := by
  induction bs with
  | nil =>
    intro s hp hq hph hc hl hag
    refine ⟨s, Reaches.refl s, id, ?_⟩
    have h0 : s.cnt = 0 := BitVec.eq_of_toNat_eq (by simpa using hc)
    have h1 : s.agenda = rest := by simpa [frameTurns] using hag
    subst h1
    cases s
    simpa [byteSum, appendAll] using h0
  | cons b bs ih =>
    intro s hp hq hph hc hl hag
    have hag : s.agenda = .seq :: (waitTurns 1 b ++ (.seq :: (frameTurns bs ++ rest))) := by
      simp [hag, frameTurns]
    have hne : s.cnt ≠ 0 := fun h => by rw [h] at hc; simp at hc
    have hlt : s.rxlen.toNat < Config.rxCap := by simp at hl; simp [Config.rxCap]; omega
    have h := stepN_readWithTimeout (i := .precv c) (u := Config.tRecv) (b := b) (back := .v7) (rets := []) (rest := .seq :: (frameTurns bs ++ rest))
      (s := { s with agenda := waitTurns 1 b ++ (.seq :: (frameTurns bs ++ rest)), ph := .run (.w1 Config.tRecv) [.v7] })
      rfl hp hq (by decide) rfl rfl
    have hr1 : (s.rxlen + 1).toNat = s.rxlen.toNat + 1 := by simp at hl ⊢; omega
    have hc1 : (s.cnt - 1).toNat = bs.length := by
      simp at hc; rw [BitVec.toNat_sub]; simp; have := s.cnt.isLt; omega
    obtain ⟨t, ht, hg, he⟩ := ih { s with
        agenda := frameTurns bs ++ rest, ph := .run .v6 [], mode := .rxExt, ifl := false, gie := true, rxf := true
        rxb := b, sdr := b, rxlog := s.rxlog ++ [b], iem := clearLinkBit s.cfg (setLinkBit s.cfg s.iem)
        tu := Config.tRecv, ts := s.cfg.subPerUnit, wok := true
        rxbuf := s.rxbuf.write s.rxlen.toNat b, rxlen := s.rxlen + 1, acc := s.acc + b, cnt := s.cnt - 1 } hp rfl rfl hc1 (by show (s.rxlen + 1).toNat + _ ≤ _; simp at hl; omega) rfl
    refine ⟨t, ?_, fun _ => hg rfl, he.trans ?_⟩
    · refine Reaches.line hp (irqEnabled_of_ifl hq) hph hag (by simp only [lineStep, precvStep]; rw [if_neg hne]) ?_
      refine Reaches.trans (by simpa [State.call, hph] using ⟨10, h⟩) ?_
      refine Reaches.line (i := .precv c) hp (irqEnabled_of_ifl rfl) rfl rfl (by simp only [lineStep, precvStep, frameByte]; exact if_pos hlt) ?_
      simpa [State.goTo, appendByte] using ht
    · have hr2 : s.rxlen.toNat + 1 < 256 := by simp at hl; omega
      simp [byteSum, appendAll, BitVec.add_assoc, hph, hq, Nat.mod_eq_of_lt hr2]
      rw [BitVec.add_comm 1#8]
      have := BitVec.ofNat_add (n := 8) bs.length 1
      simp [this]

/-- H5 before the wrap. -/
theorem line_h5_more {u : State} (h : ¬ (u.cnt + 1 = 0)) : lineStep .boot .h5 u = .next ({ u with cnt := u.cnt + 1 }.goTo .h4) := by
  simp only [lineStep, bootStep]
  rw [if_neg h]

/-- H5 at the wrap. -/
theorem line_h5_done {u : State} (h : u.cnt + 1 = 0) : lineStep .boot .h5 u = .next ({ u with cnt := 0 }.goTo .h6) := by
  simp only [lineStep, bootStep]
  rw [if_pos h, h]

/-- H12 before the wrap. -/
theorem line_h12_more {u : State} (h : ¬ (u.expv - 1 = 255)) : lineStep .boot .h12 u = .next ({ u with expv := u.expv - 1 }.goTo .h10) := by
  simp only [lineStep, bootStep]
  rw [if_neg h]

/-- H12 at the wrap. -/
theorem line_h12_done {u : State} (h : u.expv - 1 = 255) : lineStep .boot .h12 u = .next ({ u with expv := 255 }.goTo .h13) := by
  simp only [lineStep, bootStep]
  rw [if_pos h, h]

/-- `n` bytes of the count-up from `k` on. -/
def upFrom (k n : Nat) : List Byte := (List.range' k n).map (fun j => BitVec.ofNat 8 j)

/-- `n` bytes of the countdown from `e` on. -/
def downFrom (e n : Nat) : List Byte := (List.range n).map (fun j => BitVec.ofNat 8 (e - j))

/-- BOOT's count-up from H4 (43_boot_handshake.md R185). -/
theorem reaches_countUp {rest : List Turn} (n : Nat) : ∀ s : State, InProgress .boot s → irqEnabled s = false →
    s.ph = .run .h4 [] → s.cnt.toNat + (n + 1) = 256 → s.agenda = seqTurns (6 * (n + 1)) ++ rest →
    ∃ t, Reaches s t ∧ t = { s with
      agenda := rest, ph := .run .h6 [], cnt := 0, ifl := false, mode := .rxExt, txlog := s.txlog ++ upFrom s.cnt.toNat (n + 1)
      rxf := t.rxf, rxb := t.rxb, sdr := t.sdr, iem := t.iem, draws := t.draws } := by
  induction n with
  | zero =>
    intro s hp hq hph hc hag
    have hag : s.agenda = .seq :: (seqTurns 4 ++ (.seq :: rest)) := by simp [hag]
    have hcn : s.cnt + 1 = 0 := BitVec.eq_of_toNat_eq (by simp; omega)
    obtain ⟨m, f, x, -, h⟩ := reaches_sendByte (i := .boot) (back := .h5) (rets := []) (b := s.cnt) (s := ({ s with agenda := seqTurns 4 ++ (.seq :: rest) } : State).call (.s1 s.cnt) .h5) rfl hp (irqEnabled_congr hq rfl rfl rfl rfl) (by simp [hph]) rfl
    refine ⟨_, Reaches.line hp hq hph hag rfl (Reaches.trans h (Reaches.line (i := .boot) hp (irqEnabled_of_ifl rfl) rfl rfl (line_h5_done hcn) (Reaches.refl _))), ?_⟩
    simp [State.goTo, upFrom]
  | succ n ih =>
    intro s hp hq hph hc hag
    have hag : s.agenda = .seq :: (seqTurns 4 ++ (.seq :: (seqTurns (6 * (n + 1)) ++ rest))) := by
      rw [hag, show 6 * (n + 1 + 1) = 1 + (4 + (1 + 6 * (n + 1))) by omega]; simp only [seqTurns_add]; simp
    have hcn : ¬ (s.cnt + 1 = 0) := fun h => by have := congrArg BitVec.toNat h; simp at this; omega
    have hc1 : (s.cnt + 1).toNat = s.cnt.toNat + 1 := by simp; omega
    obtain ⟨m, f, x, -, h⟩ := reaches_sendByte (i := .boot) (back := .h5) (rets := []) (b := s.cnt) (s := ({ s with agenda := seqTurns 4 ++ (.seq :: (seqTurns (6 * (n + 1)) ++ rest)) } : State).call (.s1 s.cnt) .h5) rfl hp (irqEnabled_congr hq rfl rfl rfl rfl) (by simp [hph]) rfl
    obtain ⟨t, ht, he⟩ := ih { s with agenda := seqTurns (6 * (n + 1)) ++ rest, ph := .run .h4 [], cnt := s.cnt + 1, mode := .rxExt, ifl := false, sdr := Config.freeByte s.draws, draws := s.draws + 1, txlog := s.txlog ++ [s.cnt], iem := m, rxf := f, rxb := x } hp (irqEnabled_of_ifl rfl) rfl (by show (s.cnt + 1).toNat + _ = _; omega) rfl
    refine ⟨t, Reaches.line hp hq hph hag rfl (Reaches.trans h (Reaches.line (i := .boot) hp (irqEnabled_of_ifl rfl) rfl rfl (line_h5_more hcn) ?_)), he.trans ?_⟩
    · exact ht
    · simp only [hc1]
      have : upFrom s.cnt.toNat (n + 1 + 1) = s.cnt :: upFrom (s.cnt.toNat + 1) (n + 1) := by
        simp [upFrom, List.range'_succ]
      rw [this]; simp

/-- One countdown byte up to H11. -/
theorem reaches_countdownByte {s : State} {b : Byte} {rest : List Turn} (hp : InProgress .boot s) (hq : s.ifl = false)
    (hph : s.ph = .run .h10 [])
    (hag : s.agenda = seqTurns 1 ++ (waitTurns 0 b ++ rest)) :
    Reaches s { s with agenda := rest, ph := .run .h11 [], mode := .rxExt, ifl := false, gie := true, rxf := true, rxb := b, sdr := b, rxlog := s.rxlog ++ [b], iem := clearLinkBit s.cfg (setLinkBit s.cfg s.iem) } := by
  refine Reaches.line hp (irqEnabled_of_ifl hq) hph hag rfl ?_
  refine Reaches.trans ⟨9, stepN_readBlocking (i := .boot) (b := b) (back := .h11) (rets := []) (rest := rest) rfl (s := ({ s with agenda := waitTurns 0 b ++ rest } : State).call .b1 .h11) hp hq (by simp [hph]) rfl⟩ ?_
  exact Reaches.refl _

/-- The first bytes of the countdown, all as expected, under either value of `HS_STOP_ON_MISMATCH` (R189). -/
theorem reaches_prefix {rest : List Turn} (k : Nat) : ∀ s : State, InProgress .boot s → s.ifl = false →
    s.ph = .run .h10 [] → k ≤ s.expv.toNat → s.agenda = countdownTurns (downFrom s.expv.toNat k) ++ rest →
    ∃ t, Reaches s t ∧ t = { s with
      agenda := rest, expv := BitVec.ofNat 8 (s.expv.toNat - k), rxlog := s.rxlog ++ downFrom s.expv.toNat k
      mode := t.mode, gie := t.gie, rxf := t.rxf, rxb := t.rxb, sdr := t.sdr, iem := t.iem } := by
  induction k with
  | zero =>
    intro s hp hq hph hk hag
    refine ⟨s, Reaches.refl _, ?_⟩
    have h1 : s.agenda = rest := by simpa [countdownTurns, downFrom] using hag
    subst h1; cases s; simp [downFrom]
  | succ k ih =>
    intro s hp hq hph hk hag
    have e : downFrom s.expv.toNat (k + 1) = s.expv :: downFrom (s.expv.toNat - 1) k := by
      simp [downFrom, List.range_succ_eq_map, Function.comp_def]
      intro a _; rw [Nat.add_comm a 1, Nat.sub_sub]
    have hag : s.agenda = seqTurns 1 ++ (waitTurns 0 s.expv ++ (.seq :: .seq :: (countdownTurns (downFrom (s.expv.toNat - 1) k) ++ rest))) := by
      rw [hag, e]; simp [countdownTurns]
    have he1 : (s.expv - 1).toNat = s.expv.toNat - 1 := by rw [BitVec.toNat_sub]; simp; have := s.expv.isLt; omega
    have hne : ¬ (s.expv - 1 = 255) := fun h => by have := congrArg BitVec.toNat h; rw [he1] at this; simp at this; have := s.expv.isLt; omega
    have h := reaches_countdownByte hp hq hph hag
    obtain ⟨t, ht, he⟩ := ih { s with agenda := countdownTurns (downFrom (s.expv.toNat - 1) k) ++ rest, ph := .run .h10 [], mode := .rxExt, ifl := false, gie := true, rxf := true, rxb := s.expv, sdr := s.expv, rxlog := s.rxlog ++ [s.expv], iem := clearLinkBit s.cfg (setLinkBit s.cfg s.iem), expv := s.expv - 1 } hp rfl rfl
        (by show k ≤ (s.expv - 1).toNat; omega) (by show countdownTurns (downFrom (s.expv.toNat - 1) k) ++ rest = countdownTurns (downFrom (s.expv - 1).toNat k) ++ rest; rw [he1])
    refine ⟨t, h.trans (Reaches.line (i := .boot) hp (irqEnabled_of_ifl rfl) rfl rfl (by simp only [lineStep, bootStep, countdownCheck]; rfl) ?_), he.trans ?_⟩
    · simp only [if_true]
      exact Reaches.line (i := .boot) hp (irqEnabled_of_ifl rfl) rfl rfl (line_h12_more hne) ht
    · simp only [he1]
      rw [e]; simp [hph, hq, Nat.sub_sub, Nat.add_comm]

/-- One countdown byte up to H12 where it does not end the loop. -/
theorem reaches_compared {s : State} {b : Byte} {rest : List Turn} (hp : InProgress .boot s) (hq : s.ifl = false)
    (hstop : s.cfg.hsStopOnMismatch = false ∨ b = s.expv) (hph : s.ph = .run .h10 [])
    (hag : s.agenda = seqTurns 1 ++ (waitTurns 0 b ++ (.seq :: rest))) :
    Reaches s { s with
      agenda := rest, ph := .run .h12 [], mode := .rxExt, ifl := false, gie := true, rxf := true, rxb := b, sdr := b
      rxlog := s.rxlog ++ [b], iem := clearLinkBit s.cfg (setLinkBit s.cfg s.iem), failf := s.failf || decide (b ≠ s.expv) } := by
  refine (reaches_countdownByte hp hq hph hag).trans ?_
  refine Reaches.line (i := .boot) (inProgress_congr hp rfl rfl rfl rfl rfl) (irqEnabled_of_ifl rfl) rfl rfl (t := { s with
      agenda := rest, ph := .run .h12 [], mode := .rxExt, ifl := false, gie := true, rxf := true, rxb := b, sdr := b
      rxlog := s.rxlog ++ [b], iem := clearLinkBit s.cfg (setLinkBit s.cfg s.iem), failf := s.failf || decide (b ≠ s.expv) }) ?_ (Reaches.refl _)
  simp only [lineStep, bootStep, countdownCheck]
  by_cases hh : b = s.expv
  · simp [hh, State.goTo]
  · simp [hh, State.goTo, hstop.resolve_right hh]

/-- One round of the countdown before the last. -/
theorem reaches_roundMore {s : State} {b : Byte} {rest : List Turn} (hp : InProgress .boot s) (hq : s.ifl = false)
    (hstop : s.cfg.hsStopOnMismatch = false ∨ b = s.expv) (hph : s.ph = .run .h10 [])
    (hne : ¬ (s.expv - 1 = 255)) (hag : s.agenda = seqTurns 1 ++ (waitTurns 0 b ++ (.seq :: .seq :: rest))) :
    Reaches s { s with
      agenda := rest, ph := .run .h10 [], mode := .rxExt, ifl := false, gie := true, rxf := true, rxb := b, sdr := b
      rxlog := s.rxlog ++ [b], iem := clearLinkBit s.cfg (setLinkBit s.cfg s.iem), failf := s.failf || decide (b ≠ s.expv), expv := s.expv - 1 } := by
  refine (reaches_compared hp hq hstop hph hag).trans ?_
  refine Reaches.line (i := .boot) (inProgress_congr hp rfl rfl rfl rfl rfl) (irqEnabled_of_ifl rfl) rfl rfl (line_h12_more hne) ?_
  exact Reaches.refl _

/-- The last round of the countdown. -/
theorem reaches_roundDone {s : State} {b : Byte} {rest : List Turn} (hp : InProgress .boot s) (hq : s.ifl = false)
    (hstop : s.cfg.hsStopOnMismatch = false ∨ b = s.expv) (hph : s.ph = .run .h10 [])
    (hne : s.expv - 1 = 255) (hag : s.agenda = seqTurns 1 ++ (waitTurns 0 b ++ (.seq :: .seq :: rest))) :
    Reaches s { s with
      agenda := rest, ph := .run .h13 [], mode := .rxExt, ifl := false, gie := true, rxf := true, rxb := b, sdr := b
      rxlog := s.rxlog ++ [b], iem := clearLinkBit s.cfg (setLinkBit s.cfg s.iem), failf := s.failf || decide (b ≠ s.expv), expv := 255 } := by
  refine (reaches_compared hp hq hstop hph hag).trans ?_
  refine Reaches.line (i := .boot) (inProgress_congr hp rfl rfl rfl rfl rfl) (irqEnabled_of_ifl rfl) rfl rfl (line_h12_done hne) ?_
  exact Reaches.refl _

/-- BOOT's countdown from H10: whatever bytes come under the default reading (R189), the right bytes under either (R190). -/
theorem reaches_countdown {rest : List Turn} (bs : List Byte) :
    ∀ s : State, InProgress .boot s → s.ifl = false → (s.cfg.hsStopOnMismatch = false ∨ bs = downFrom s.expv.toNat bs.length) →
    s.ph = .run .h10 [] → bs.length = s.expv.toNat + 1 → s.agenda = countdownTurns bs ++ rest →
    ∃ t, Reaches s t ∧ t.gie = true ∧ t = { s with
      agenda := rest, ph := .run .h13 [], expv := 255, rxlog := s.rxlog ++ bs, failf := s.failf || decide (bs ≠ downFrom s.expv.toNat bs.length)
      mode := t.mode, gie := t.gie, rxf := t.rxf, rxb := t.rxb, sdr := t.sdr, iem := t.iem } := by
  induction bs with
  | nil => intro s _ _ _ _ h; simp at h
  | cons b bs ih =>
    intro s hp hq hstop hph hl hag
    have hag : s.agenda = seqTurns 1 ++ (waitTurns 0 b ++ (.seq :: .seq :: (countdownTurns bs ++ rest))) := by
      rw [hag]; simp [countdownTurns]
    have hl' : bs.length = s.expv.toNat := by simpa using hl
    have e : downFrom s.expv.toNat (b :: bs).length = s.expv :: downFrom (s.expv.toNat - 1) bs.length := by
      simp [downFrom, List.range_succ_eq_map, Function.comp_def]
      intro a _; rw [Nat.add_comm a 1, Nat.sub_sub]
    rw [e] at hstop
    have hb : s.cfg.hsStopOnMismatch = false ∨ b = s.expv := hstop.imp_right fun h => (List.cons.inj h).1
    by_cases h0 : s.expv = 0
    · have hbs : bs = [] := by rw [h0] at hl'; simpa using hl'
      subst hbs
      have hr := reaches_roundDone hp hq hb hph (by rw [h0]; rfl) hag
      refine ⟨_, hr, rfl, ?_⟩
      rw [e]; simp [countdownTurns, downFrom, hq]
    · have h0' : s.expv.toNat ≠ 0 := fun h => h0 (BitVec.eq_of_toNat_eq h)
      have he1 : (s.expv - 1).toNat = s.expv.toNat - 1 := by rw [BitVec.toNat_sub]; simp; have := s.expv.isLt; omega
      have hne : ¬ (s.expv - 1 = 255) := fun h => by have := congrArg BitVec.toNat h; rw [he1] at this; simp at this; have := s.expv.isLt; omega
      have hr := reaches_roundMore hp hq hb hph hne hag
      obtain ⟨t, ht, hg, he⟩ := ih { s with
          agenda := countdownTurns bs ++ rest, ph := .run .h10 [], mode := .rxExt, ifl := false, gie := true, rxf := true, rxb := b, sdr := b
          rxlog := s.rxlog ++ [b], iem := clearLinkBit s.cfg (setLinkBit s.cfg s.iem), failf := s.failf || decide (b ≠ s.expv), expv := s.expv - 1 }
        (inProgress_congr hp rfl rfl rfl rfl rfl) rfl
        (hstop.imp_right fun h => by
          rw [show (s.expv - 1).toNat = s.expv.toNat - 1 from he1]
          exact (List.cons.inj h).2) rfl
        (show bs.length = (s.expv - 1).toNat + 1 by omega) rfl
      refine ⟨t, hr.trans ht, hg, he.trans ?_⟩
      simp only [he1]
      rw [e]; simp [hq, Bool.or_assoc]

/-- The whole count-up. -/
theorem upFrom_all : upFrom 0 256 = countUpBytes := by
  simp [upFrom, countUpBytes, Config.hsCount, List.range_eq_range']

/-- The whole countdown. -/
theorem downFrom_all : downFrom 255 256 = countdownBytes := rfl

end Sys2Proof.Machine
end

