-- ==== Sys2Proof/Tests/Slice0.lean ====
section
/-! SUPPORT. Tests of single steps, with results taken from 95_test_vectors.md and the rules named beside them, and for every statement
with hypotheses a witness that meets them. -/

namespace Sys2Proof.Tests

open Sys2Proof Sys2Proof.Machine

/-! ### Helpers -/

/-- The state after reset with the parameters of 95_test_vectors.md. -/
def base : State := State.resetWith Config.example

/-- The operands of an operation, unused ones zero. -/
def operandsOf : Instr → Byte × Byte × Byte
  | .sendb b => (b, 0, 0)
  | .enrx => (0, 0, 0)
  | .rdblk => (0, 0, 0)
  | .rdto units => (units, 0, 0)
  | .sndack byte units expected => (byte, units, expected)
  | .psend command => (command, 0, 0)
  | .precv command => (command, 0, 0)
  | .boot => (0, 0, 0)

/-- `base` with the operation `i` in progress, latched as it was issued, control at `here`. -/
def inOp (i : Instr) (here : Label) (rets : List Label) : State :=
  { base with busy := true, opc := i.opcode, opl := i.opcode
              la := (operandsOf i).1, lb := (operandsOf i).2.1, lc := (operandsOf i).2.2, ph := .run here rets }

/-- A field of the next state, if there is one. -/
def field {α : Type} (f : State → α) : Result → Option α
  | .next t => some (f t)
  | _ => none

/-- The host's view of `STATUS`, `LSTAT`, `IEM` and `RXB` after a step. -/
def seen (t : State) : Byte × Byte × Byte × Byte := (hostRead 0x04 t, hostRead 0x05 t, hostRead 0x06 t, hostRead 0x07 t)

/-! ### Decoding: words written out from 30_encoding.md R85, R86 and the operation words of 95_test_vectors.md -/

theorem test_decode_sendb : decodeTableWord 32 0b00000001010000010000000000000000 = some (.sendb 0x41) := by decide

theorem test_decode_enrx : decodeTableWord 32 0b00000010000000000000000000000000 = some .enrx := by decide

theorem test_decode_rdblk : decodeTableWord 32 0b00000011000000000000000000000000 = some .rdblk := by decide

theorem test_decode_rdto : decodeTableWord 32 0b00000100011001000000000000000000 = some (.rdto 100) := by decide

theorem test_decode_sndack : decodeTableWord 32 0b00000101000010101100100000000001 = some (.sndack 0x0A 200 0x01) := by decide

theorem test_decode_psend : decodeTableWord 32 0b00000110000010110000000000000000 = some (.psend 0x0B) := by decide

theorem test_decode_precv : decodeTableWord 32 0b00000111000011000000000000000000 = some (.precv 0x0C) := by decide

theorem test_decode_boot : decodeTableWord 32 0b00001000000000000000000000000000 = some .boot := by decide

/-- Unused operand fields are ignored (R87). -/
theorem test_decode_ignores_unused : decodeWord 0x02FFFFFF#32 = .ok .enrx ∧ decodeWord 0x0141FFFF#32 = .ok (.sendb 0x41) := by decide

/-- The reserved codes are rejected by name (R90). -/
theorem test_decode_reserved :
    decodeWord 0x00000000#32 = .error (.reservedCode 0x00) ∧ decodeWord 0x09000000#32 = .error (.reservedCode 0x09) ∧
    decodeWord 0xFF000000#32 = .error (.reservedCode 0xFF) := by decide

/-- There is one length, four bytes (R85). -/
theorem test_decode_truncated : decodeBytes [0x01, 0x41, 0x00] = .error .truncated := by decide

/-- The encodings, against the operation words of 95_test_vectors.md. -/
theorem test_encode :
    encode (.sendb 0x41) = 0x01410000#32 ∧ encode .enrx = 0x02000000#32 ∧ encode .rdblk = 0x03000000#32 ∧
    encode (.rdto 100) = 0x04640000#32 ∧ encode (.sndack 0x0A 200 0x01) = 0x050AC801#32 ∧
    encode (.psend 0x0B) = 0x060B0000#32 ∧ encode (.precv 0x0C) = 0x070C0000#32 ∧ encode .boot = 0x08000000#32 := by decide

/-! ### The well-formedness smoke test: each check refuses an ill-formed term -/

theorem test_wfWord_refuses_reserved : wfWord 0x00000000 = false ∧ wfWord 0x09000000 = false ∧ wfWord 0xFF000000 = false := by decide

theorem test_wfWord_refuses_long : wfWord 0x101410000 = false ∧ wfWord 0x01410000 = true := by decide

theorem test_cfg_refuses_no_polls : Config.wf { Config.example with subPerUnit := 0 } = false := by decide

/-- `TX_CAP` without room for a length and a checksum byte or past the register space, `LINK_BIT` outside the mask, a mask above 8 bits. -/
theorem test_cfg_refuses_sizes :
    Config.wf { Config.example with txCap := 1 } = false ∧ Config.wf { Config.example with txCap := 33 } = false ∧
    Config.wf { Config.example with iemWidth := 3 } = false ∧ Config.wf { Config.example with iemWidth := 9 } = false ∧
    Config.wf { Config.example with txCap := 32, iemWidth := 4 } = true := by decide

theorem test_cfg_refuses_equal_codes :
    Config.wf { Config.example with codes := { Codes.example with cksumOk := 0x01 } } = false ∧
    Config.wf { Config.example with codes := { Codes.example with abort := 0x01 } } = false ∧ Config.example.wf = true := by decide

/-! ### One step of each operation -/

/-- T1, S2: the byte is on the wire. -/
theorem test_sendb_transmits : field State.txlog (exec (.sendb 0x41) (inOp (.sendb 0x41) (.s2 0x41) [.t2])) = some [0x41] := by decide

/-- T1: `STATUS = 06` on completion. -/
theorem test_sendb_completes : field statusByte (exec (.sendb 0x41) (inOp (.sendb 0x41) .t2 [])) = some 0x06 := by decide

/-- E2 sets the link's bit and keeps the others (R118). -/
theorem test_enrx_arms : field State.iem (exec .enrx { inOp .enrx .e2 [.n2] with iem := 0x05 }) = some 0x0D := by decide

/-- T6: E3 loses the early byte, `SDR` still holds it. -/
theorem test_enrx_loses_early :
    field (fun t => (t.ifl, t.sdr)) (exec .enrx { inOp .enrx .e3 [.n2] with ifl := true, sdr := 0x5A }) = some (false, 0x5A) := by decide

/-- W2: the poll of a blocking read repeats. -/
theorem test_rdblk_polls : field State.ph (exec .rdblk (inOp .rdblk .b3 [.k2])) = some (.run .b3 [.k2]) := by decide

/-- W1: a byte ends the poll. -/
theorem test_rdblk_returns : field State.ph (exec .rdblk { inOp .rdblk .b3 [.k2] with rxf := true }) = some (.run .k2 []) := by decide

/-- W3: the last sub-iteration of the last unit, and then the exhausted exit. -/
theorem test_rdto_last_poll :
    field (fun t => (t.tu, t.ph)) (exec (.rdto 100) { inOp (.rdto 100) .w4 [.o2] with tu := 1, ts := 1 }) =
      some (0, .run .w4 [.o2]) := by decide

/-- W6: no unit left, the wait fails whatever the flag says (R137). -/
theorem test_rdto_exhausted :
    field (fun t => (t.wok, t.ph)) (exec (.rdto 0) { inOp (.rdto 0) .w4 [.o2] with tu := 0, rxf := true, wok := true }) =
      some (false, .run .o2 []) := by decide

/-- W9: a reply that is not the expected byte. -/
theorem test_sndack_mismatch :
    field State.wok (exec (.sndack 0x0A 200 0x01)
      { inOp (.sndack 0x0A 200 0x01) .a3 [.q2] with wok := true, rxb := 0x04, expAck := 0x01 }) = some false := by decide

/-- W8: `STATUS = 06` when the acknowledgement was right. -/
theorem test_sndack_completes :
    field statusByte (exec (.sndack 0x0A 200 0x01) { inOp (.sndack 0x0A 200 0x01) .q2 [] with wok := true }) = some 0x06 := by decide

/-- PS1: the checksum of the frame 04 10 20 is CC. -/
theorem test_psend_checksum :
    field (fun t => (t.cks, t.ph)) (exec (.psend 0x0B) { inOp (.psend 0x0B) .p9 [] with acc := 0x34 }) =
      some (0xCC, .run (.a1 0xCC 200 0x03) [.p10]) := by decide

/-- PS12: thirteen bytes are refused at issue, `STATUS = 0A`, `IEM` untouched. -/
theorem test_psend_refused : field seen (exec (.psend 0x0B) { base with txlen := 13, iem := 0x05 }) = some (0x0A, 0x00, 0x05, 0x00) := by
  decide

/-- PR5: a length byte of 0F goes to the verdict with nothing appended. -/
theorem test_precv_overlength :
    field (fun t => (t.ph, t.rxbuf)) (exec (.precv 0x00) { inOp (.precv 0x00) .v5 [] with wok := true, rxb := 0x0F }) =
      some (.run .v10 [], []) := by decide

/-- PR10: the thirteenth byte is appended at index 12. -/
theorem test_precv_appends :
    field (fun t => (t.rxbuf, t.rxlen, t.acc, t.cnt))
      (exec (.precv 0x00) { inOp (.precv 0x00) .v7 [] with wok := true, rxb := 0xA4, rxlen := 12, acc := 0x5C, cnt := 1 }) =
      some ([(12, 0xA4)], 13, 0x00, 0) := by decide

/-- HB1: the count-up is over after the byte FF. -/
theorem test_boot_count_up :
    field (fun t => (t.cnt, t.ph)) (exec .boot { inOp .boot .h5 [] with cnt := 255 }) = some (0, .run .h6 []) ∧
    field (fun t => (t.cnt, t.ph)) (exec .boot { inOp .boot .h5 [] with cnt := 254 }) = some (255, .run .h4 []) := by decide

/-- HB1, HB2: `STATUS = 26` on success, `32` on failure. -/
theorem test_boot_verdict :
    field statusByte (exec .boot { inOp .boot .h15 [] with hs := .running }) = some 0x26 ∧
    field statusByte (exec .boot { inOp .boot .h15 [] with hs := .running, failf := true }) = some 0x32 := by decide

/-! ### One step of the other agents -/

/-- X1, X3: a reserved code is refused, `HS` kept. -/
theorem test_reserved_refused :
    field statusByte (step { base with agenda := [.write 0x00 0x00] }) = some 0x0A ∧
    field statusByte (step { base with agenda := [.write 0x00 0x09], done := true, res := true, hs := .success }) = some 0x2A := by decide

/-- X4: writes while `BUSY = 1` are ignored. -/
theorem test_busy_write_ignored :
    field (fun t => (t.txlen, t.opl)) (step { inOp .rdblk .b3 [.k2] with agenda := [.write 0x0A 5] }) = some (0, 0x03) ∧
    field (fun t => (t.opc, t.opl)) (step { inOp .rdblk .b3 [.k2] with agenda := [.write 0x00 0x01] }) = some (0x03, 0x03) := by decide

/-- X5, X6: `IEM` reads back FF, `LSTAT` 05. -/
theorem test_idle_writes :
    field (hostRead 0x06) (step { base with agenda := [.write 0x06 0xFF] }) = some 0xFF ∧
    field (hostRead 0x05) (step { base with agenda := [.write 0x05 0xFF] }) = some 0x05 := by decide

/-- R12, R21: a mask of 5 bits takes 5 bits of what the host writes. -/
theorem test_mask_width :
    field (hostRead 0x06) (step { base with cfg := { Config.example with iemWidth := 5 }, agenda := [.write 0x06 0xFF] }) = some 0x1F := by
  decide

/-- R30, R157: with `TX_CAP = 16` the buffer ends at offset 0x2F, and PSEND takes 14 payload bytes and refuses 15. -/
theorem test_tx_capacity :
    let s : State := { base with cfg := { Config.example with txCap := 16 } }
    field (hostRead 0x2F) (step { s with agenda := [.write 0x2F 0x55] }) = some 0x55 ∧
    field (hostRead 0x30) (step { s with agenda := [.write 0x30 0x55] }) = some 0x00 ∧
    field statusByte (exec (.psend 0x0B) { s with txlen := 14 }) = some 0x01 ∧
    field statusByte (exec (.psend 0x0B) { s with txlen := 15 }) = some 0x0A := by decide

/-- X7: a reserved offset. -/
theorem test_reserved_offset : field (hostRead 0x0B) (step { base with agenda := [.write 0x0B 0x55] }) = some 0x00 := by decide

/-- T5: a delivery that no one waits for. -/
theorem test_delivery :
    field (fun t => (t.sdr, lstatByte t)) (step { base with agenda := [.deliver 0x5A] }) = some (0x5A, 0x02) := by decide

/-- T4: the IRQ step goes first, and what it leaves. -/
theorem test_interrupt :
    field seen (step { base with ifl := true, gie := true, iem := 0x08, sdr := 0x5A, agenda := [.write 0x06 0xFF] }) =
      some (0x00, 0x05, 0x00, 0x5A) := by decide

/-- X11: a reset in the middle of PSEND. -/
theorem test_reset_anywhere :
    field (fun t => (seen t, t.ph, t.txlog, t.txlen))
      (step { inOp (.psend 0x0B) .p7 [] with txlen := 2, txlog := [0x0B, 0x04], iem := 0x08, gie := true, agenda := [.reset] }) =
      some ((0x00, 0x00, 0x00, 0x00), .idle, [], 0) := by decide

/-- The very next step of `withFetchWord` issues the operation (log 14). -/
theorem test_fetch_word :
    field (fun t => (t.ph, t.opl, t.la, t.lb, t.lc, statusByte t)) (step (base.withFetchWord 32 0x050AC801)) =
      some (.run .q1 [], 0x05, 0x0A, 200, 0x01, 0x01) := by decide

/-- S2: `neg8` at the source's instances. -/
theorem test_neg8 : neg8 0x00 = 0x00 ∧ neg8 0x34 = 0xCC ∧ neg8 0x80 = 0x80 ∧ neg8 0x8C = 0x74 ∧ neg8 0x8D = 0x73 ∧ neg8 0xFF = 0x01 := by
  decide

/-- S6: the source's frame sums to 8C, the corrected one (PR1) to 0. -/
theorem test_sums : byteSum [0x03, 0x04, 0x85] = 0x8C ∧ byteSum [0x04, 0x04, 0x85, 0x73] = 0x00 := by decide

/-- PS8, PS9 (R214): at P8 a wrong byte is NackMismatch; at P5 no byte in time is Timeout, also when a late one has set the flag. -/
theorem test_ack_causes :
    seqCause { inOp (.psend 0x0B) .p8 [] with tu := 200, rxf := true, rxb := 0x04, expAck := 0x01 } = some .nackMismatch ∧
    seqCause { inOp (.psend 0x0B) .p5 [] with tu := 0, rxf := true, rxb := 0x01, expAck := 0x01 } = some .timeout := by decide

/-- PR11, PR12 (R214, R216): a timeout inside the frame is raised at V7, labelled at V8, and V9 with the forced `0xFF` raises
ChecksumInvalid, but the operation reports Timeout. -/
theorem test_frame_causes :
    let v7 : State := inOp (.precv 0x00) .v7 []
    let v8 : State := inOp (.precv 0x00) .v8 []
    let v9 : State := { inOp (.precv 0x00) .v9 [] with acc := 0xFF }
    seqCause v7 = some .timeout ∧ seqCause v8 = some .timeout ∧ seqCause v9 = some .checksumInvalid ∧
    reportedCause [v7, v8, v9] = some .timeout ∧ seqCause { v9 with wok := true, acc := 0x01 } = some .checksumInvalid := by decide

/-! ### Witnesses: hypotheses that can be met -/

theorem witness_encode : (Instr.sndack 0xFF 0x00 0x80).wf = true := by decide

theorem witness_codes_agree : (0x02000000#32 : OpWord) ≠ 0x02FFFFFF#32 ∧ (0x02000000#32 : OpWord) >>> 24 = 0x02FFFFFF#32 >>> 24 := by decide

/-- StepIssuesDecodedOperation. -/
theorem witness_step_issues :
    let s : State := { base with argA := 0x0A, argB := 200, argC := 0x01, agenda := [.write 0x00 0x05, .seq] }
    irqEnabled s = false ∧ s.busy = false ∧ s.agenda = .write 0x00 0x05 :: [.seq] ∧
    decodeWord (opWord 0x05 s.argA s.argB s.argC) = .ok (.sndack 0x0A 200 0x01) := by decide

/-- StepRunsLatchedOperation, with SEQ's turn and with an empty agenda. -/
theorem witness_step_runs :
    (let s : State := { inOp (.psend 0x0B) (.w2 200) [.a3, .p8] with agenda := [.seq] }
     irqEnabled s = false ∧ s.ph = .run (.w2 200) [.a3, .p8] ∧ s.agenda = .seq :: [] ∧
     decodeWord (opWord s.opl s.la s.lb s.lc) = .ok (.psend 0x0B)) ∧
    (let s : State := inOp .boot .h1 []
     irqEnabled s = false ∧ s.ph = .run .h1 [] ∧ s.agenda = [] ∧ decodeWord (opWord s.opl s.la s.lb s.lc) = .ok .boot) := by decide

/-- IssueRule: the refused codes at their bounds and PSEND of 13 bytes, the accepted issue with PSEND of 12, a busy block. -/
theorem witness_issue :
    (base.busy = false ∧ ((0x00 : Byte).toNat = 0 ∧ 9 ≤ (0x09 : Byte).toNat ∧ 9 ≤ (0xFF : Byte).toNat)) ∧
    base.cfg.txCap - 2 < ({ base with txlen := 13 } : State).txlen.toNat ∧
    (let s : State := { base with txlen := 12 }
     s.busy = false ∧ decodeWord (opWord 0x06 s.argA s.argB s.argC) = .ok (.psend 0x00) ∧
       ¬((0x06 : Byte) = 0x06 ∧ s.cfg.txCap - 2 < s.txlen.toNat)) ∧
    (decodeWord (opWord 0x08 base.argA base.argB base.argC) = .ok .boot ∧ ¬((0x08 : Byte) = 0x06 ∧ base.cfg.txCap - 2 < base.txlen.toNat)) ∧
    (inOp .rdblk .b3 [.k2]).busy = true := by decide

/-- PsendOverlengthRefused. -/
theorem witness_overlength : ({ base with txlen := 13 } : State).busy = false ∧
    base.cfg.txCap - 2 < ({ base with txlen := 13 } : State).txlen.toNat := by decide

/-- ReservedCodeRefused, at the codes 0x00, 0x09 and 0xFF. -/
theorem witness_reserved :
    ((0x00 : Byte).toNat = 0 ∧ 9 ≤ (0x09 : Byte).toNat ∧ 9 ≤ (0xFF : Byte).toNat) ∧
    (let s : State := { base with agenda := [.write 0x00 0x09] }
     irqEnabled s = false ∧ s.busy = false ∧ s.agenda = .write 0x00 0x09 :: []) := by decide

/-- IssueAnswersNext, PSEND's clause at its bound. -/
theorem witness_issue_next : ({ base with txlen := 12 } : State).busy = false ∧
    ({ base with txlen := 12 } : State).txlen.toNat ≤ base.cfg.txCap - 2 := by decide

/-- InProgress: every operation can be in progress, with every operand (the line statements of all eight operations). -/
theorem witness_in_progress (b u e : Byte) :
    InProgress (.sendb b) (inOp (.sendb b) .t2 []) ∧ InProgress .enrx (inOp .enrx .n2 []) ∧ InProgress .rdblk (inOp .rdblk .k2 []) ∧
    InProgress (.rdto u) (inOp (.rdto u) .o2 []) ∧ InProgress (.sndack b u e) (inOp (.sndack b u e) .q2 []) ∧
    InProgress (.psend b) (inOp (.psend b) .p12 []) ∧ InProgress (.precv b) (inOp (.precv b) .v12 []) ∧
    InProgress .boot (inOp .boot .h15 []) := by
  refine ⟨⟨rfl, rfl⟩, ⟨rfl, rfl⟩, ⟨rfl, rfl⟩, ⟨rfl, rfl⟩, ⟨rfl, rfl⟩, ⟨rfl, rfl⟩, ⟨rfl, rfl⟩, ⟨rfl, rfl⟩⟩

/-- SendByteLines, in each operation it names. -/
theorem witness_sendByte :
    (callsSendByte (.sendb 0x41) = true ∧ InProgress (.sendb 0x41) (inOp (.sendb 0x41) .t1 [])) ∧
    (callsSendByte (.sndack 1 2 3) = true ∧ InProgress (.sndack 1 2 3) (inOp (.sndack 1 2 3) .q1 [])) ∧
    (callsSendByte (.psend 0x0B) = true ∧ InProgress (.psend 0x0B) (inOp (.psend 0x0B) .p1 [])) ∧
    (callsSendByte (.precv 0x00) = true ∧ InProgress (.precv 0x00) (inOp (.precv 0x00) .v1 [])) ∧
    (callsSendByte .boot = true ∧ InProgress .boot (inOp .boot .h1 [])) :=
  ⟨⟨rfl, rfl, rfl⟩, ⟨rfl, rfl, rfl⟩, ⟨rfl, rfl, rfl⟩, ⟨rfl, rfl, rfl⟩, ⟨rfl, rfl, rfl⟩⟩

/-- EnableReceiveLines. -/
theorem witness_enableReceive :
    (callsEnableReceive .enrx = true ∧ InProgress .enrx (inOp .enrx .n1 [])) ∧
    (callsEnableReceive .boot = true ∧ InProgress .boot (inOp .boot .e1 [.b3, .h7])) := ⟨⟨rfl, rfl, rfl⟩, ⟨rfl, rfl, rfl⟩⟩

/-- ReadBlockingLines, with and without the flag. -/
theorem witness_readBlocking :
    (callsReadBlocking .rdblk = true ∧ InProgress .rdblk (inOp .rdblk .b3 [.k2]) ∧ (inOp .rdblk .b3 [.k2]).rxf = false) ∧
    (let s : State := { inOp .boot .b3 [.h11] with rxf := true }
     callsReadBlocking .boot = true ∧ InProgress .boot s ∧ s.rxf = true) := ⟨⟨rfl, ⟨rfl, rfl⟩, rfl⟩, rfl, ⟨rfl, rfl⟩, rfl⟩

/-- ReadWithTimeoutLines, the four clauses of the poll at their bounds. -/
theorem witness_readWithTimeout :
    let s : State := inOp (.rdto 100) .w4 [.o2]
    callsReadWithTimeout (.rdto 100) = true ∧ InProgress (.rdto 100) s ∧ s.tu = 0 ∧
    (let t : State := { s with tu := 1, rxf := true }
     InProgress (.rdto 100) t ∧ t.tu ≠ 0 ∧ t.rxf = true) ∧
    (let t : State := { s with tu := 255, ts := 2 }
     InProgress (.rdto 100) t ∧ t.tu ≠ 0 ∧ t.rxf = false ∧ 2 ≤ t.ts) ∧
    (let t : State := { s with tu := 1, ts := 1 }
     InProgress (.rdto 100) t ∧ t.tu ≠ 0 ∧ t.rxf = false ∧ t.ts = 1) :=
  ⟨rfl, ⟨rfl, rfl⟩, rfl, ⟨⟨rfl, rfl⟩, by decide, rfl⟩, ⟨⟨rfl, rfl⟩, by decide, rfl, by decide⟩, ⟨⟨rfl, rfl⟩, by decide, rfl, rfl⟩⟩

/-- SendAndCheckAckLines, the right reply and the wrong one. -/
theorem witness_sendAndCheckAck :
    let s : State := { inOp (.sndack 0x0A 200 0x01) .a3 [.q2] with wok := true, rxb := 0x04, expAck := 0x01 }
    callsSendAndCheckAck (.sndack 0x0A 200 0x01) = true ∧ InProgress (.sndack 0x0A 200 0x01) s ∧ ¬(s.wok = true ∧ s.rxb = s.expAck) ∧
    InProgress (.sndack 0x0A 200 0x01) { s with rxb := 0x01 } ∧
    (({ s with rxb := 0x01 } : State).wok = true ∧ ({ s with rxb := 0x01 } : State).rxb = ({ s with rxb := 0x01 } : State).expAck) :=
  ⟨rfl, ⟨rfl, rfl⟩, by decide, ⟨rfl, rfl⟩, rfl, rfl⟩

/-- PsendLines: both results of an acknowledgement, the last element of the buffer. -/
theorem witness_psend_lines :
    let s : State := { inOp (.psend 0x0B) .p7 [] with idx := 13 }
    InProgress (.psend 0x0B) s ∧ s.idx.toNat < s.cfg.txCap ∧ s.wok = false ∧ ({ s with wok := true } : State).wok = true ∧
    InProgress (.psend 0x0B) { s with wok := true } := ⟨⟨rfl, rfl⟩, by decide, rfl, rfl, rfl, rfl⟩

/-- PrecvLines: the length bytes 0, 1, 14 and 15, the last index of the buffer, the end of the frame. -/
theorem witness_precv_lines :
    let s : State := inOp (.precv 0x00) .v5 []
    InProgress (.precv 0x00) s ∧ s.wok = false ∧ s.rxb = 0 ∧ s.cnt = 0 ∧ s.resv = false ∧
    (let t : State := { s with wok := true, rxb := 15 }
     InProgress (.precv 0x00) t ∧ 14 < t.rxb.toNat) ∧
    (let t : State := { s with wok := true, rxb := 14, rxlen := 13, cnt := 1, resv := true }
     InProgress (.precv 0x00) t ∧ t.wok = true ∧ 1 ≤ t.rxb.toNat ∧ t.rxb.toNat ≤ 14 ∧ t.rxlen.toNat < 14 ∧ t.cnt ≠ 0 ∧ t.resv = true) ∧
    (let t : State := { s with wok := true, rxb := 1 }
     InProgress (.precv 0x00) t ∧ t.wok = true ∧ 1 ≤ t.rxb.toNat ∧ t.rxb.toNat ≤ 14) :=
  ⟨⟨rfl, rfl⟩, rfl, rfl, rfl, rfl, ⟨⟨rfl, rfl⟩, by decide⟩,
    ⟨⟨rfl, rfl⟩, rfl, by decide, by decide, by decide, by decide, rfl⟩, ⟨⟨rfl, rfl⟩, rfl, by decide, by decide⟩⟩

/-- BootLines: the right and the wrong reply, the right and the wrong countdown byte under both parameter values, both verdicts. -/
theorem witness_boot_lines :
    let s : State := { inOp .boot .h7 [] with rxb := 0x01, expv := 0x01 }
    InProgress .boot s ∧ s.rxb = s.cfg.codes.bootOk ∧ s.rxb = s.expv ∧ s.failf = false ∧
    (let t : State := { s with rxb := 0x02, failf := true }
     InProgress .boot t ∧ t.rxb ≠ t.cfg.codes.bootOk ∧ t.rxb ≠ t.expv ∧ t.cfg.hsStopOnMismatch = false ∧ t.failf = true) ∧
    (let t : State := { s with rxb := 0x02, cfg := { Config.example with hsStopOnMismatch := true } }
     InProgress .boot t ∧ t.rxb ≠ t.expv ∧ t.cfg.hsStopOnMismatch = true) :=
  ⟨⟨rfl, rfl⟩, rfl, rfl, rfl, ⟨⟨rfl, rfl⟩, by decide, by decide, rfl, rfl⟩, ⟨⟨rfl, rfl⟩, by decide, rfl⟩⟩

/-- The six frames: each operation answers a next state, at a line of its own. -/
theorem witness_frames :
    (∃ t, exec (.sendb 0x41) (inOp (.sendb 0x41) (.s2 0x41) [.t2]) = .next t) ∧
    (∃ t, exec .enrx (inOp .enrx .e2 [.n2]) = .next t) ∧ (∃ t, exec .rdblk (inOp .rdblk .b1 [.k2]) = .next t) ∧
    (∃ t, exec (.rdto 100) (inOp (.rdto 100) (.w3 100) [.o2]) = .next t) ∧
    (∃ t, exec (.sndack 0x0A 200 0x01) (inOp (.sndack 0x0A 200 0x01) (.a1 0x0A 200 0x01) [.q2]) = .next t) ∧
    (∃ t, exec (.psend 0x0B) (inOp (.psend 0x0B) .p3 []) = .next t) ∧
    (∃ t, exec (.precv 0x00) { inOp (.precv 0x00) .v7 [] with wok := true, rxb := 0xA4, rxlen := 12 } = .next t) ∧
    (∃ t, exec .boot (inOp .boot .h11 []) = .next t) :=
  ⟨⟨_, rfl⟩, ⟨_, rfl⟩, ⟨_, rfl⟩, ⟨_, rfl⟩, ⟨_, rfl⟩, ⟨_, rfl⟩, ⟨_, rfl⟩, ⟨_, rfl⟩⟩

/-- InterruptGoesFirst. -/
theorem witness_interrupt_first :
    let s : State := { base with ifl := true, gie := true, iem := 0x08, agenda := [.write 0x06 0x00] }
    s.ifl = true ∧ s.iem.getLsbD s.cfg.linkBit.val = true ∧ s.gie = true ∧ (∀ rest, s.agenda ≠ .reset :: rest) := by
  refine ⟨rfl, by decide, rfl, fun rest h => ?_⟩
  cases h

/-- OnlyTheseStepsArm: the three ways. -/
theorem witness_arms :
    (∃ t, step { inOp .enrx .e2 [.n2] with agenda := [.seq] } = .next t ∧ armed t = true) ∧
    (∃ t, step { inOp (.psend 0x0B) .p11 [] with saved := 0x08, agenda := [.seq] } = .next t ∧ armed t = true) ∧
    (∃ t, step { base with agenda := [.write 0x06 0x08] } = .next t ∧ armed t = true) ∧
    armed (inOp .enrx .e2 [.n2]) = false ∧ armed (inOp (.psend 0x0B) .p11 []) = false ∧ armed base = false :=
  ⟨⟨_, rfl, by decide⟩, ⟨_, rfl, by decide⟩, ⟨_, rfl, by decide⟩, by decide, by decide, by decide⟩

/-- DeliveryEffect, in both modes. -/
theorem witness_delivery :
    let s : State := { base with agenda := [.deliver 0x5A] }
    irqEnabled s = false ∧ s.agenda = .deliver 0x5A :: [] ∧ s.mode = .rxExt ∧
    irqEnabled { s with mode := .txInt } = false ∧ ({ s with mode := .txInt } : State).mode = .txInt := by decide

/-- HostReadMap: the last element of a buffer, also of the largest, the reserved offsets at their bounds, and a read on the agenda. -/
theorem witness_host_read :
    (13 < 14 ∧ 13 < base.cfg.txCap ∧ 13 < 32) ∧
    (31 < ({ base with cfg := { Config.example with txCap := 32 } } : State).cfg.txCap ∧ 31 < 32) ∧
    ((0x0B ≤ (0x0B : Offset).toNat ∧ (0x0F : Offset).toNat ≤ 0x0F) ∧ (0x1E : Offset).toNat = 0x1E ∧ (0x1F : Offset).toNat = 0x1F ∧
      0x20 + base.cfg.txCap ≤ (0x2E : Offset).toNat ∧ 0x20 + base.cfg.txCap ≤ (0x3F : Offset).toNat) ∧
    irqEnabled { base with agenda := [.read 0x04] } = false ∧ ({ base with agenda := [.read 0x04] } : State).agenda = .read 0x04 :: [] :=
  ⟨by decide, by decide, by decide, by decide, rfl⟩

/-- LstatReadAndWrite and HostWriteRule: idle and busy, the last element, the ignored offsets at their bounds, a write on the agenda. -/
theorem witness_host_write :
    base.busy = false ∧ base.txbuf.wf = true ∧ (inOp .rdblk .b3 [.k2]).busy = true ∧ (13 < base.cfg.txCap ∧ 13 < 32) ∧ 7 < 8 ∧
    (0x04 : Offset).toNat = 0x04 ∧ (0x07 ≤ (0x07 : Offset).toNat ∧ (0x09 : Offset).toNat ≤ 0x09) ∧
    (0x0B ≤ (0x0B : Offset).toNat ∧ (0x1F : Offset).toNat ≤ 0x1F) ∧ 0x20 + base.cfg.txCap ≤ (0x2E : Offset).toNat ∧
    0x20 + base.cfg.txCap ≤ (0x3F : Offset).toNat ∧
    irqEnabled { base with agenda := [.write 0x2D 0x55] } = false ∧
    ({ base with agenda := [.write 0x2D 0x55] } : State).agenda = .write 0x2D 0x55 :: [] := by decide

/-- ReservedOffsets, at their bounds. -/
theorem witness_reserved_offsets :
    (0x0B ≤ (0x0B : Offset).toNat ∧ (0x0F : Offset).toNat ≤ 0x0F) ∧ (0x1E : Offset).toNat = 0x1E ∧ (0x1F : Offset).toNat = 0x1F ∧
    0x20 + base.cfg.txCap ≤ (0x2E : Offset).toNat ∧ 0x20 + base.cfg.txCap ≤ (0x3F : Offset).toNat := by decide

/-- SequencerHiddenFromHost: two states that differ in the sequencer's registers only. -/
theorem witness_hidden :
    let s : State := inOp (.precv 0x00) .v6 []
    let t : State := { s with ph := .idle, opl := 0x08, la := 1, lb := 2, lc := 3, acc := 4, cnt := 5, idx := 6, expv := 7, plen := 8
                              cks := 9, saved := 10, failf := true, tu := 11, ts := 12, wok := true, resv := true, expAck := 13 }
    s ≠ t ∧ s.cfg = t.cfg ∧ s.iem = t.iem ∧ s.rxf = t.rxf ∧ s.rxb = t.rxb ∧ s.ifl = t.ifl ∧ s.gie = t.gie ∧ s.mode = t.mode ∧ s.sdr = t.sdr ∧
    s.rxbuf = t.rxbuf ∧ s.rxlen = t.rxlen ∧ s.txbuf = t.txbuf ∧ s.txlen = t.txlen ∧ s.opc = t.opc ∧ s.argA = t.argA ∧
    s.argB = t.argB ∧ s.argC = t.argC ∧ s.busy = t.busy ∧ s.done = t.done ∧ s.res = t.res ∧ s.err = t.err ∧ s.hs = t.hs := by decide

/-- ResetValues: a reset in the middle of an operation. -/
theorem witness_reset :
    ({ inOp (.psend 0x0B) .p7 [] with agenda := [.reset, .seq] } : State).agenda = .reset :: [.seq] ∧
    base = State.resetWith Config.example := ⟨rfl, rfl⟩

/-- MailboxHasOneProducer: the interrupt writes the byte and sets the flag; a host write sets the flag. -/
theorem witness_mailbox :
    (∃ t, step { base with ifl := true, gie := true, iem := 0x08, sdr := 0x5A } = .next t ∧ t.rxb ≠ base.rxb ∧ t.rxf = true) ∧
    (∃ t, step { base with agenda := [.write 0x05 0x01] } = .next t ∧ t.rxf = true) ∧ base.rxf = false :=
  ⟨⟨_, rfl, by decide, rfl⟩, ⟨_, rfl, by decide⟩, rfl⟩

/-- GieNeverClearedByBlock: the two ways it is cleared. -/
theorem witness_gie :
    (∃ t, step { base with gie := true, agenda := [.write 0x05 0xFB] } = .next t ∧ t.gie = false) ∧
    (∃ t, step { base with gie := true, agenda := [.reset] } = .next t ∧ t.gie = false) := ⟨⟨_, rfl, by decide⟩, ⟨_, rfl, rfl⟩⟩

/-- WireTracesGrowByteByByte: a transmit and a delivery. -/
theorem witness_wire :
    (∃ t, step { inOp (.sendb 0x41) (.s2 0x41) [.t2] with agenda := [.seq] } = .next t ∧ t.txlog = [0x41]) ∧
    (∃ t, step { base with agenda := [.deliver 0x5A] } = .next t ∧ t.rxlog = [0x5A]) ∧
    (∀ rest, ({ base with agenda := [.deliver 0x5A] } : State).agenda ≠ .reset :: rest) ∧
    (∀ rest, ({ inOp (.sendb 0x41) (.s2 0x41) [.t2] with agenda := [.seq] } : State).agenda ≠ .reset :: rest) := by
  refine ⟨⟨_, rfl, rfl⟩, ⟨_, rfl, rfl⟩, fun rest h => ?_, fun rest h => ?_⟩ <;> cases h

/-- TransmitBufferIsTheHosts: a host write while busy, and a turn of SEQ. -/
theorem witness_tx_buffer :
    (let s : State := { inOp .rdblk .b3 [.k2] with agenda := [.write 0x20 0x55] }
     (∃ t, step s = .next t) ∧ (∀ rest, s.agenda ≠ .reset :: rest) ∧ s.busy = true) ∧
    (let s : State := { base with agenda := [.deliver 0x5A] }
     (∃ t, step s = .next t) ∧ (∀ rest, s.agenda ≠ .reset :: rest) ∧ ∀ off v rest, s.agenda ≠ .write off v :: rest) := by
  refine ⟨⟨⟨_, rfl⟩, fun rest h => ?_, rfl⟩, ⟨_, rfl⟩, fun rest h => ?_, fun off v rest h => ?_⟩ <;> cases h

/-- ParametersNeverChange: a reset. -/
theorem witness_parameters : ∃ t, step { inOp .boot .h11 [] with agenda := [.reset] } = .next t := ⟨_, rfl⟩

/-- SavedMaskIsKept: the save at P1. -/
theorem witness_saved :
    let s : State := { inOp (.psend 0x0B) .p1 [] with iem := 0x05, agenda := [.seq] }
    (∃ t, step s = .next t ∧ t.saved ≠ s.saved) ∧ (∀ rest, s.agenda ≠ .reset :: rest) := by
  refine ⟨⟨_, rfl, by decide⟩, fun rest h => ?_⟩
  cases h

/-- StepKeepsBuffersCanonical: an append at the last index PRECV uses, and a host write that empties an element. -/
theorem witness_buffers :
    (let s : State := { inOp (.precv 0x00) .v7 [] with wok := true, rxb := 0xA4, rxlen := 12, rxbuf := [(0, 1), (13, 2)], txbuf := [(3, 4)] }
     s.rxbuf.wf = true ∧ s.rxbuf.within Config.rxCap = true ∧ s.txbuf.wf = true ∧ s.txbuf.within s.cfg.txCap = true ∧
       ∃ t, step s = .next t ∧ t.rxbuf = [(0, 1), (12, 0xA4), (13, 2)]) ∧
    (let s : State := { base with txbuf := [(3, 4)], agenda := [.write 0x23 0x00] }
     s.txbuf.wf = true ∧ s.txbuf.within s.cfg.txCap = true ∧ ∃ t, step s = .next t ∧ t.txbuf = []) :=
  ⟨⟨by decide, by decide, by decide, by decide, _, rfl, by decide⟩, by decide, by decide, _, rfl, by decide⟩

/-- ResetMeetsInvariant. -/
theorem witness_config : Config.example.wf = true := by decide

/-- PSEND in the poll of its last payload byte's acknowledgement. -/
def midSend : State :=
  { inOp (.psend 0x0B) .w4 [.a3, .p8] with
      txlen := 12, txbuf := [(11, 0x0B)], idx := 11, tu := 200, ts := 1, iem := 0x08, gie := true, agenda := [.seq] }

/-- StepKeepsInvariant and MachineNeverStops: the invariant holds in the middle of an operation, and the step answers. -/
theorem witness_inv : Inv midSend ∧ ∃ t, step midSend = .next t := by
  refine ⟨⟨by decide, ⟨by decide, fun here rets h => ?_, fun _ _ => by decide, fun root h => ?_⟩,
    ⟨by decide, by decide, by decide, by decide, by decide⟩, ⟨fun h => ?_, fun root h _ => by decide⟩,
    ⟨by decide, by decide⟩⟩, _, rfl⟩
  · cases h
    decide
  · cases h
    decide
  · cases h

/-- ChecksumClosesFrame: PS1's frame. -/
theorem witness_checksum : byteSum ((0x04 : Byte) :: [0x10, 0x20] ++ [0xCC]) = 0 := by decide

/-- SendbRun, without and with the spurious latch. -/
theorem witness_sendb_run :
    (let s : State := { base with argA := 0x41, agenda := .write 0x00 0x01 :: seqTurns 6 ++ [] }
     irqEnabled s = false ∧ s.busy = false ∧ ¬(armed s = true ∧ s.gie = true ∧ s.cfg.txSetsPending = true)) ∧
    (let s : State := { base with argA := 0x41, iem := 0x08, gie := true, agenda := .write 0x00 0x01 :: seqTurns 6 ++ [] }
     irqEnabled s = false ∧ s.busy = false ∧ armed s = true ∧ s.gie = true ∧ s.cfg.txSetsPending = true) := by decide

/-- EnrxRun, without and with an early byte that is kept. -/
theorem witness_enrx_run :
    (let s : State := { base with ifl := true, agenda := .write 0x00 0x02 :: seqTurns 6 ++ [] }
     irqEnabled s = false ∧ s.busy = false ∧ s.gie = false) ∧
    (let s : State := { base with ifl := true, gie := true, agenda := .write 0x00 0x02 :: seqTurns 6 ++ [] }
     irqEnabled s = false ∧ s.busy = false ∧ s.ifl = true ∧ s.gie = true) := by decide

/-- RdblkReturnsByte, RdtoTimesOut, RdtoReturnsAtArrival (at its last poll), with operands at a bound. -/
theorem witness_read_runs :
    base.cfg.wf = true ∧ base.busy = false ∧ base.ifl = false ∧
    (let s : State := { base with agenda := .write 0x00 0x03 :: (seqTurns 1 ++ waitTurns 0 0x5A ++ seqTurns 1 ++ []) }
     s.busy = false ∧ s.ifl = false) ∧
    (let s : State := { base with argA := 0, agenda := .write 0x00 0x04 :: seqTurns 10 ++ [] }
     s.agenda = .write 0x00 0x04 :: seqTurns (10 + s.argA.toNat * s.cfg.subPerUnit) ++ []) ∧
    (let s : State := { base with argA := 2, agenda := .write 0x00 0x04 :: (seqTurns (8 + 1) ++ [.deliver 0x04] ++ seqTurns 2 ++ []) }
     1 < s.argA.toNat * s.cfg.subPerUnit) := by decide

/-- BlockingReadNeverEndsAlone: SEQ and HOST go on. -/
theorem witness_blocking :
    let s : State := { inOp .rdblk .b3 [.k2] with agenda := [.seq, .write 0x00 0x01, .read 0x04] }
    callsReadBlocking .rdblk = true ∧ InProgress .rdblk s ∧ s.ph = .run .b3 [.k2] ∧ s.rxf = false ∧ s.ifl = false ∧
    ∀ e ∈ s.agenda, e.disturbs = false := ⟨rfl, ⟨rfl, rfl⟩, rfl, rfl, rfl, by decide⟩

/-- SndackRoundTrip, and SndackLosesEarlyReply with the link not armed, armed with `GIE = 0`, and armed with `GIE = 1` under both values
of `TX_SETS_PENDING`. -/
theorem witness_sndack_runs :
    (let s : State := { base with argA := 0x0A, argB := 1, argC := 0x01
                                  agenda := .write 0x00 0x05 :: (seqTurns 1 ++ ackTurns 0x01 ++ seqTurns 1 ++ []) }
     irqEnabled s = false ∧ s.cfg.wf = true ∧ s.busy = false ∧ s.argB ≠ 0 ∧ armed s = false) ∧
    (let s : State := { base with argA := 0x0A, argB := 0, argC := 0x01, agenda := .write 0x00 0x05 :: (seqTurns 17 ++ []) }
     irqEnabled s = false ∧ s.cfg.wf = true ∧ s.busy = false ∧
       s.agenda = .write 0x00 0x05 :: (seqTurns (17 + s.argB.toNat * s.cfg.subPerUnit) ++ [])) ∧
    (let s : State := { base with argA := 0x0A, argB := 5, argC := 0x01
                                  agenda := .write 0x00 0x05 :: (seqTurns 5 ++ [.deliver 0x01] ++ seqTurns 17 ++ []) }
     irqEnabled s = false ∧ s.cfg.wf = true ∧ s.busy = false ∧ armed s = false ∧
       s.agenda = .write 0x00 0x05 :: (seqTurns 5 ++ [.deliver 0x01] ++ seqTurns (12 + s.argB.toNat * s.cfg.subPerUnit) ++ []) ∧
       (let t : State := { s with iem := 0x08 }
        irqEnabled t = false ∧ armed t = true ∧ t.gie = false) ∧
       (let t : State := { s with iem := 0x08, gie := true }
        irqEnabled t = false ∧ armed t = true ∧ t.gie = true ∧ t.cfg.txSetsPending = true) ∧
       (let t : State := { s with iem := 0x08, gie := true, cfg := { Config.example with txSetsPending := false } }
        irqEnabled t = false ∧ t.cfg.wf = true ∧ armed t = true ∧ t.gie = true ∧ t.cfg.txSetsPending = false)) := by decide

/-- PsendDialogue, at the longest payload. -/
theorem witness_psend_dialogue :
    let s : State := { base with txlen := 12, agenda := .write 0x00 0x06 :: (psendTurns Codes.example 12 ++ []) }
    irqEnabled s = false ∧ s.cfg.wf = true ∧ s.busy = false ∧ s.txlen.toNat ≤ s.cfg.txCap - 2 ∧
    s.agenda = .write 0x00 0x06 :: (psendTurns s.cfg.codes s.txlen.toNat ++ []) := ⟨by decide, by decide, rfl, by decide, rfl⟩

/-- PsendStopsAtFailure, at each test. -/
theorem witness_psend_stops (test : Label) (h : test = .p4 ∨ test = .p5 ∨ test = .p8 ∨ test = .p10) :
    let s : State := { inOp (.psend 0x0B) test [] with saved := 0x05, agenda := seqTurns 3 ++ [] }
    InProgress (.psend 0x0B) s ∧ (test = .p4 ∨ test = .p5 ∨ test = .p8 ∨ test = .p10) ∧ s.ph = .run test [] ∧ s.wok = false ∧
    s.resv = false ∧ s.ifl = false ∧ s.agenda = seqTurns 3 ++ [] := ⟨⟨rfl, rfl⟩, h, rfl, rfl, rfl, rfl, rfl⟩

/-- PrecvDialogue, at the shortest and the longest frame. -/
theorem witness_precv_dialogue (len : Byte) (h : len = 1 ∨ len = 14) :
    let s : State := { base with agenda := .write 0x00 0x07 :: (precvTurns len (List.replicate (len.toNat - 1) 0x55) ++ []) }
    irqEnabled s = false ∧ s.cfg.wf = true ∧ s.busy = false ∧ s.rxbuf.wf = true ∧ 1 ≤ len.toNat ∧ len.toNat ≤ 14 ∧
    (List.replicate (len.toNat - 1) (0x55 : Byte)).length + 1 = len.toNat := by
  obtain rfl | rfl := h <;> decide

/-- PrecvRejectsLength: nothing came, the length bytes 15 and 0, a timeout inside the frame. -/
theorem witness_precv_rejects :
    (let s : State := { inOp (.precv 0x00) .v5 [] with agenda := seqTurns 8 ++ [] }
     InProgress (.precv 0x00) s ∧ s.ph = .run .v5 [] ∧ irqEnabled s = false ∧ s.resv = false ∧ s.wok = false) ∧
    (let s : State := { inOp (.precv 0x00) .v5 [] with wok := true, rxb := 15, agenda := seqTurns 8 ++ [] }
     InProgress (.precv 0x00) s ∧ s.ph = .run .v5 [] ∧ irqEnabled s = false ∧ s.resv = false ∧ 14 < s.rxb.toNat) ∧
    (let s : State := { inOp (.precv 0x00) .v5 [] with wok := true, rxb := 0, agenda := seqTurns 8 ++ [] }
     InProgress (.precv 0x00) s ∧ s.ph = .run .v5 [] ∧ irqEnabled s = false ∧ s.resv = false ∧ s.rxb = 0) ∧
    (let s : State := { inOp (.precv 0x00) .v7 [] with rxlen := 2, rxbuf := [(0, 0x04), (1, 0x85)], cnt := 1, agenda := seqTurns 10 ++ [] }
     InProgress (.precv 0x00) s ∧ s.ph = .run .v7 [] ∧ irqEnabled s = false ∧ s.resv = false ∧ s.wok = false) :=
  ⟨⟨⟨rfl, rfl⟩, rfl, rfl, rfl, rfl⟩, ⟨⟨rfl, rfl⟩, rfl, rfl, rfl, by decide⟩, ⟨⟨rfl, rfl⟩, rfl, rfl, rfl, rfl⟩,
    ⟨⟨rfl, rfl⟩, rfl, rfl, rfl, rfl⟩⟩

/-- BootDialogue (under both values of the parameter) and BootStopsAtMismatch (the first and the last byte), with any agenda that begins as they say. -/
theorem witness_boot_runs :
    (let s : State := { base with agenda := .write 0x00 0x08 ::
      (bootOpeningTurns 0x01 ++ countdownTurns countdownBytes ++ bootClosingTurns ++ []) }
     irqEnabled s = false ∧ s.cfg.wf = true ∧ s.busy = false ∧ s.cfg.hsStopOnMismatch = false ∧ countdownBytes.length = 256) ∧
    (let s : State := { base with
      cfg := { Config.example with hsStopOnMismatch := true }
      agenda := .write 0x00 0x08 :: (bootOpeningTurns 0x02 ++ countdownTurns countdownBytes ++ bootClosingTurns ++ []) }
     irqEnabled s = false ∧ s.cfg.wf = true ∧ s.busy = false ∧ s.cfg.hsStopOnMismatch = true) ∧
    (let s : State := { base with
      cfg := { Config.example with hsStopOnMismatch := true }
      agenda := .write 0x00 0x08 :: (bootOpeningTurns 0x01 ++ countdownTurns (countdownBytes.take 0) ++
        (seqTurns 1 ++ waitTurns 0 0xFE ++ seqTurns 1) ++ bootClosingTurns ++ []) }
     irqEnabled s = false ∧ s.cfg.wf = true ∧ s.busy = false ∧ s.cfg.hsStopOnMismatch = true) ∧
    (0 < 256 ∧ (0xFE : Byte).toNat ≠ 255 - 0) ∧ (255 < 256 ∧ (0x01 : Byte).toNat ≠ 255 - 255) := by
  refine ⟨⟨rfl, by decide, rfl, rfl, by simp [countdownBytes, Config.hsCount]⟩, ⟨rfl, by decide, rfl, rfl⟩, ⟨rfl, by decide, rfl, rfl⟩, by decide, by decide⟩

end Sys2Proof.Tests
end

section
/-! The turn of SEQ (00_scope.md R18): the step runs the operation in progress. -/

namespace Sys2Proof.Machine

/-- SEQ's turn with control at a line runs the latched operation (10_state.md R36, R40). -/
theorem seqTurn_latched {s : State} {here : Label} {rets : List Label} {i : Instr} (hph : s.ph = .run here rets)
    (hi : latchedInstr s = .ok i) : seqTurn s = exec i s := by
  simp only [seqTurn, hph, hi]

/-- With an empty agenda and no interrupt enabled SEQ goes on alone (log 21). -/
theorem step_empty {s : State} (hq : irqEnabled s = false) (hag : s.agenda = []) : step s = seqTurn s := by
  unfold step agentStep
  simp [hag, hq]

/-- Settles O5: the turn, named by the agenda or taken alone, is SEQ's, and the latches decode to the operation. -/
theorem stepRunsLatchedOperation : Obligations.StepRunsLatchedOperation := by
  unfold Obligations.StepRunsLatchedOperation
  intro s here rets i hq hph hi
  rw [Laws.decodeWord_opWord] at hi
  constructor
  · intro rest hag
    rw [step_turn hq hag]
    exact seqTurn_latched hph hi
  · intro hag
    rw [step_empty hq hag]
    exact seqTurn_latched hph hi

end Sys2Proof.Machine
end

section
/-! What every step keeps (10_state.md R34, R40, R46). The invariant's clauses about control are gathered in `At` (control at a line) and
`AtRest` (no operation in progress); a line of a procedure leads from `At` to `At` by its `Walk`, a line of an operation's own by
`At.toLine`, `At.toCall` or completion. -/

namespace Sys2Proof.Machine

/-- Control is soundly at the line `here` under the return points `rets`: what the invariant says of such a state's control and link. -/
structure At (here : Label) (rets : List Label) (s : State) : Prop where
  ph : s.ph = .run here rets
  busy : s.busy = true
  code : validOpcode s.opl = true
  fits : s.opl = 0x06 → s.txlen.toNat ≤ s.cfg.txMaxPayload
  position : positionOf s.opl here rets = true
  output : s.mode = .txInt → sending here
  indices : indicesBounded (rootOf here rets) s = true
  mask : restricted (rootOf here rets) = true → s.iem &&& ~~~(linkOnly s.cfg) = 0

/-- No operation is in progress, and the link listens. -/
structure AtRest (s : State) : Prop where
  ph : s.ph = .idle
  busy : s.busy = false
  mode : s.mode = .rxExt

/-- What the invariant says of the control and the link, in one of the two forms. -/
def ControlSound (s : State) : Prop := AtRest s ∨ ∃ here rets, At here rets s

/-! ### The two forms and the invariant -/

theorem Inv.toAt {s : State} {here : Label} {rets : List Label} (h : Inv s) (hph : s.ph = .run here rets) : At here rets s := by
  have hroot : rootLabel s.ph = some (rootOf here rets) := by simp [hph, rootLabel]
  have hb : s.busy = true := h.control.busy_iff.mpr (by simp [hph])
  obtain ⟨hcode, hpos⟩ := h.control.position here rets hph
  refine ⟨hph, hb, hcode, h.control.send_length hb, hpos, fun hm => ?_, h.control.indices _ hroot, h.link.mask_restricted _ hroot⟩
  obtain ⟨here', rets', hph', hs⟩ := h.link.output_only_in_send hm
  obtain ⟨rfl, rfl⟩ : here = here' ∧ rets = rets' := by simpa [hph] using hph'
  exact hs

theorem Inv.atRest {s : State} (h : Inv s) (hb : s.busy = false) : AtRest s := by
  have hph : s.ph = .idle := by
    by_contra hne
    simp [h.control.busy_iff.mpr hne] at hb
  refine ⟨hph, hb, ?_⟩
  cases hm : s.mode with
  | rxExt => rfl
  | txInt =>
    obtain ⟨here, rets, hrun, -⟩ := h.link.output_only_in_send hm
    simp [hph] at hrun

theorem AtRest.control {s : State} (h : AtRest s) : ControlInv s := by
  constructor <;> simp [h.ph, h.busy, rootLabel]

theorem AtRest.link {s : State} (h : AtRest s) : LinkInv s := by
  constructor <;> simp [h.ph, h.mode, rootLabel]

theorem At.control {s : State} {here : Label} {rets : List Label} (h : At here rets s) : ControlInv s := by
  refine ⟨by simp [h.ph, h.busy], fun here' rets' hph => ?_, fun _ => h.fits, fun root hroot => ?_⟩
  · obtain ⟨rfl, rfl⟩ : here = here' ∧ rets = rets' := by simpa [h.ph] using hph
    exact ⟨h.code, h.position⟩
  · obtain rfl : rootOf here rets = root := by simpa [h.ph, rootLabel] using hroot
    exact h.indices

theorem At.link {s : State} {here : Label} {rets : List Label} (h : At here rets s) : LinkInv s := by
  refine ⟨fun hm => ⟨here, rets, h.ph, h.output hm⟩, fun root hroot => ?_⟩
  obtain rfl : rootOf here rets = root := by simpa [h.ph, rootLabel] using hroot
  exact h.mask

theorem Inv.of_controlSound {s : State} (hc : s.cfg.wf = true) (h : ControlSound s) (hb : BufferInv s) (hm : MaskInv s) : Inv s := by
  obtain hr | ⟨here, rets, ha⟩ := h
  · exact ⟨hc, hr.control, hb, hr.link, hm⟩
  · exact ⟨hc, ha.control, hb, ha.link, hm⟩

/-- The parameter check includes the mask's (00_scope.md R12). -/
theorem Inv.maskOk {s : State} (h : Inv s) : s.cfg.maskOk = true := by
  have := h.cfg_wf
  simp only [Config.wf, Bool.and_eq_true] at this
  exact this.2

/-- The registers the invariant does not read may hold anything. -/
theorem Inv.of_unread {s : State} (h : Inv s) (agenda : List Turn) (opc argA argB argC rxb sdr : Byte)
    (done res err rxf ifl gie : Bool) (rxlog : List Byte) :
    Inv { s with agenda := agenda, opc := opc, argA := argA, argB := argB, argC := argC, rxb := rxb, sdr := sdr, done := done
                 res := res, err := err, rxf := rxf, ifl := ifl, gie := gie, rxlog := rxlog } := by
  obtain ⟨hc, ⟨h1, h2, h3, h4⟩, ⟨b1, b2, b3, b4, b5⟩, ⟨l1, l2⟩, ⟨m1, m2⟩⟩ := h
  exact ⟨hc, ⟨h1, h2, h3, h4⟩, ⟨b1, b2, b3, b4, b5⟩, ⟨l1, l2⟩, ⟨m1, m2⟩⟩

/-! ### Lines of procedures -/

/-- A line of an operation's own is no line of a procedure. -/
theorem procedure_of_operation {here : Label} {o : Byte} (h : here.operation = some o) : here.procedure = none := by
  cases here
  case s1 | s2 | s3 | s4 | e1 | e2 | e3 | e4 | b1 | b2 | b3 | w1 | w2 | w3 | w4 | a1 | a2 | a3 => nomatch h
  all_goals rfl

/-- At a line of an operation's own there is no return point, and the operation is the latched one. -/
theorem At.own {s : State} {here : Label} {rets : List Label} {o : Byte} (h : At here rets s) (ho : here.operation = some o) :
    rets = [] ∧ o = s.opl := by
  have hp := h.position
  cases rets with
  | nil => simpa [positionOf, ho] using hp
  | cons back rets => simp [positionOf, procedure_of_operation ho] at hp

/-- Every line of a procedure is a walk, in whichever operation it stands. -/
theorem At.walk {i : Instr} {s t : State} {here : Label} {rets : List Label} (h : At here rets s) (ho : here.operation = none)
    (hl : lineStep i here s = .next t) : Walk s.opl here rets s t := by
  cases i with
  | sendb b =>
    cases here
    case t1 | t2 => nomatch ho
    all_goals exact walk_send h.ph h.position h.output hl
  | enrx =>
    cases here
    case n1 | n2 => nomatch ho
    all_goals exact walk_enable h.ph h.position h.output hl
  | rdblk =>
    cases here
    case k1 | k2 => nomatch ho
    all_goals exact walk_blocking h.ph h.position h.output hl
  | rdto units =>
    cases here
    case o1 | o2 => nomatch ho
    all_goals exact walk_timeout h.ph h.position h.output hl
  | sndack byte units expected =>
    cases here
    case q1 | q2 => nomatch ho
    all_goals exact walk_ack h.ph h.position h.output hl
  | psend command =>
    cases here
    case p1 | p2 | p3 | p4 | p5 | p6 | p7 | p8 | p9 | p10 | p11 | p12 => nomatch ho
    all_goals exact walk_ack h.ph h.position h.output hl
  | precv command =>
    cases here
    case v1 | v2 | v3 | v4 | v5 | v6 | v7 | v8 | v9 | v10 | v11 | v12 => nomatch ho
    case s1 | s2 | s3 | s4 => exact walk_send h.ph h.position h.output hl
    all_goals exact walk_timeout h.ph h.position h.output hl
  | boot =>
    cases here
    case h1 | h2 | h3 | h4 | h5 | h6 | h7 | h8 | h9 | h10 | h11 | h12 | h13 | h14 | h15 => nomatch ho
    case s1 | s2 | s3 | s4 => exact walk_send h.ph h.position h.output hl
    all_goals exact walk_blocking h.ph h.position h.output hl

/-- What bounds the indices reads four registers. -/
theorem indicesBounded_congr {root : Label} {s t : State} (h0 : t.idx = s.idx) (h1 : t.cnt = s.cnt) (h2 : t.rxlen = s.rxlen)
    (h3 : t.txlen = s.txlen) : indicesBounded root t = indicesBounded root s := by
  unfold indicesBounded
  rw [h0, h1, h2, h3]

/-- A line of a procedure writes the mask only at E2, which keeps it restricted (R118). -/
theorem LineEffect.mask_procedure {here : Label} {s t : State} (e : LineEffect here s t) (ho : here.operation = none)
    (h : s.iem &&& ~~~(linkOnly s.cfg) = 0) : t.iem &&& ~~~(linkOnly t.cfg) = 0 := by
  rw [e.cfg]
  obtain h0 | ⟨-, h0⟩ | ⟨-, h0⟩ | ⟨hh, -⟩ := e.iem
  · rw [h0, h]
  · rw [h0, mask_set _ _ h]
  · rw [h0, BitVec.and_not_self]
  · obtain rfl | rfl | rfl := hh <;> nomatch ho

/-- A line of a procedure leads to a line under the same line of the operation itself. -/
theorem At.procedureLine {i : Instr} {s t : State} {here : Label} {rets : List Label} (h : At here rets s)
    (ho : here.operation = none) (hl : lineStep i here s = .next t) : ControlSound t := by
  have e := lineStep_effect hl
  obtain ⟨⟨here', rets', hph, hpos, hroot, hout⟩, hbusy, hidx, hcnt, hrxlen⟩ := h.walk ho hl
  obtain ⟨-, htxlen, -⟩ := e.host
  obtain ⟨hopl, -⟩ := e.latches
  refine .inr ⟨here', rets', ⟨hph, hbusy ▸ h.busy, ?_, ?_, ?_, hout, ?_, ?_⟩⟩
  · rw [hopl, h.code]
  · rw [hopl, htxlen, e.cfg]
    exact h.fits
  · rw [hopl, hpos]
  · rw [hroot, indicesBounded_congr hidx hcnt hrxlen htxlen, h.indices]
  · rw [hroot]
    exact fun hr => e.mask_procedure ho (h.mask hr)

/-! ### Lines of an operation's own -/

/-- At a line of an operation's own the link listens (40_byte_transport.md R116). -/
theorem At.listens {s : State} {here : Label} (h : At here [] s) : s.mode = .rxExt := by
  cases hm : s.mode with
  | rxExt => rfl
  | txInt =>
    have hp := h.position
    obtain ⟨b, rfl⟩ | rfl := h.output hm <;> nomatch hp

/-- A line of an operation's own leads soundly to a position, where what the invariant asks under the position's own line holds. -/
theorem At.toPosition {s t : State} {here here' : Label} {rets' : List Label} (h : At here [] s) (e : LineEffect here s t)
    (hph : t.ph = .run here' rets') (hpos : positionOf s.opl here' rets' = true)
    (hi : indicesBounded (rootOf here' rets') t = true)
    (hm : restricted (rootOf here' rets') = true → t.iem &&& ~~~(linkOnly t.cfg) = 0) : ControlSound t := by
  obtain ⟨-, htxlen, -⟩ := e.host
  obtain ⟨hopl, -⟩ := e.latches
  have hbusy : t.busy = true := by
    obtain hb | ⟨-, hidle⟩ := e.busy
    · rw [hb, h.busy]
    · simp [hph] at hidle
  have hmode : t.mode = .rxExt := by
    obtain hk | ⟨b, rfl⟩ | hk := e.mode
    · rw [hk, h.listens]
    · nomatch h.position
    · exact hk
  refine .inr ⟨here', rets', ⟨hph, hbusy, ?_, ?_, ?_, fun ht => by simp [hmode] at ht, hi, hm⟩⟩
  · rw [hopl, h.code]
  · rw [hopl, htxlen, e.cfg]
    exact h.fits
  · rw [hopl, hpos]

/-- `goto`, or falling through to another line of the operation. -/
theorem At.toLine {s u : State} {here l : Label} (h : At here [] s) (e : LineEffect here s (u.goTo l)) (hph : u.ph = s.ph)
    (hl : l.operation = here.operation) (hi : indicesBounded l (u.goTo l) = true)
    (hm : restricted l = true → u.iem &&& ~~~(linkOnly u.cfg) = 0) : ControlSound (u.goTo l) :=
  have hpos : positionOf s.opl l [] = true := by
    rw [← h.position]
    simp only [positionOf, hl]
  h.toPosition (rets' := []) e (by simp [hph, h.ph]) hpos hi hm

/-- `call P`, with the return point at another line of the operation. -/
theorem At.toCall {s u : State} {here entry back : Label} {p : Procedure} (h : At here [] s)
    (e : LineEffect here s (u.call entry back)) (hph : u.ph = s.ph) (hp : entry.procedure = some p) (hr : returnsTo p back = true)
    (hl : back.operation = here.operation) (hi : indicesBounded back (u.call entry back) = true)
    (hm : restricted back = true → u.iem &&& ~~~(linkOnly u.cfg) = 0) : ControlSound (u.call entry back) :=
  have hpos : positionOf s.opl back [] = true := by
    rw [← h.position]
    simp only [positionOf, hl]
  h.toPosition e (by simp [hph, h.ph]) (pos_cons hp hr hpos) hi hm

/-- Completion, from a line of an operation's own. -/
theorem At.toRest {s t : State} {here : Label} (h : At here [] s) (hph : t.ph = .idle) (hb : t.busy = false) (hm : t.mode = s.mode) :
    ControlSound t :=
  .inl ⟨hph, hb, hm.trans h.listens⟩

/-- The own lines of PSEND (42_packet_protocol.md R156): the index runs from 0 to `TXLEN`. -/
theorem At.psendLine {s t : State} {here : Label} (h : At here [] s) (ho : here.operation = some 0x06)
    (hl : psendStep here s = .next t) : ControlSound t := by
  have e := psendStep_effect hl
  cases here
  case p1 | p10 =>
    cases hl
    exact h.toLine e rfl rfl rfl h.mask
  case p2 =>
    cases hl
    exact h.toLine e rfl rfl rfl fun _ => BitVec.and_not_self _
  case p3 =>
    cases hl
    exact h.toCall e rfl rfl rfl rfl (by simp [indicesBounded]) h.mask
  case p4 =>
    simp only [psendStep] at hl
    split at hl <;> cases hl
    · exact h.toCall e rfl rfl rfl rfl h.indices h.mask
    · exact h.toLine e rfl rfl rfl h.mask
  case p5 =>
    simp only [psendStep] at hl
    split at hl <;> cases hl
    · exact h.toLine e rfl rfl h.indices h.mask
    · exact h.toLine e rfl rfl rfl h.mask
  case p6 =>
    have hle : s.idx.toNat ≤ s.txlen.toNat := of_decide_eq_true h.indices
    simp only [psendStep] at hl
    split at hl <;> cases hl
    · exact h.toLine e rfl rfl rfl h.mask
    · have hlt : s.idx.toNat < s.txlen.toNat := by bv_omega
      exact h.toLine e rfl rfl (decide_eq_true hlt) h.mask
  case p7 =>
    simp only [psendStep, sendPayloadByte] at hl
    split at hl <;> cases hl
    exact h.toCall e rfl rfl rfl rfl h.indices h.mask
  case p8 =>
    have hlt : s.idx.toNat < s.txlen.toNat := of_decide_eq_true h.indices
    simp only [psendStep] at hl
    split at hl <;> cases hl
    · have hle : (s.idx + 1).toNat ≤ s.txlen.toNat := by bv_omega
      exact h.toLine e rfl rfl (decide_eq_true hle) h.mask
    · exact h.toLine e rfl rfl rfl h.mask
  case p9 =>
    cases hl
    exact h.toCall e rfl rfl rfl rfl rfl h.mask
  case p11 =>
    cases hl
    exact h.toLine e rfl rfl rfl nofun
  case p12 =>
    cases hl
    exact h.toRest rfl rfl rfl
  all_goals nomatch ho

/-- V5 goes to the verdict, or takes a length byte of 1 to 14 into the loop (42_packet_protocol.md R159, R160). -/
theorem checkLength_cases (s : State) :
    checkLength s = s.goTo .v10 ∨
    1 ≤ s.rxb.toNat ∧ s.rxb.toNat ≤ 14 ∧ checkLength s = { s with acc := s.rxb, cnt := s.rxb - 1 }.goTo .v6 := by
  unfold checkLength
  split
  · exact .inl rfl
  · split
    · exact .inl rfl
    · rename_i hmax
      have hmax : s.rxb.toNat ≤ 14 := Nat.le_of_not_lt hmax
      split
      · exact .inl rfl
      · exact .inr ⟨by bv_omega, hmax, rfl⟩

/-- The own lines of PRECV (42_packet_protocol.md R159): `RXLEN + CNT` stays within 13 (20_memory.md R72). -/
theorem At.precvLine {s t : State} {here : Label} (h : At here [] s) (ho : here.operation = some 0x07)
    (hl : precvStep here s = .next t) : ControlSound t := by
  have e := precvStep_effect hl
  cases here
  case v1 | v8 | v9 =>
    cases hl
    exact h.toLine e rfl rfl rfl h.mask
  case v2 =>
    cases hl
    exact h.toLine e rfl rfl rfl fun _ => BitVec.and_not_self _
  case v3 | v10 =>
    cases hl
    exact h.toCall e rfl rfl rfl rfl rfl h.mask
  case v4 =>
    cases hl
    exact h.toCall e rfl rfl rfl rfl h.indices h.mask
  case v5 =>
    have hz : s.rxlen = 0 := of_decide_eq_true h.indices
    simp only [precvStep, Host.Outcome.next.injEq] at hl
    subst hl
    obtain hv | ⟨h1, hmax, hv⟩ := checkLength_cases s <;> rw [hv] at e ⊢
    · exact h.toLine e rfl rfl rfl h.mask
    · have hle : s.rxlen.toNat + (s.rxb - 1).toNat ≤ 13 := by bv_omega
      exact h.toLine e rfl rfl (decide_eq_true hle) h.mask
  case v6 =>
    have hle : s.rxlen.toNat + s.cnt.toNat ≤ 13 := of_decide_eq_true h.indices
    simp only [precvStep] at hl
    split at hl <;> cases hl
    · exact h.toLine e rfl rfl rfl h.mask
    · rename_i h0
      exact h.toCall e rfl rfl rfl rfl (Bool.and_eq_true_iff.mpr ⟨decide_eq_true hle, decide_eq_true h0⟩) h.mask
  case v7 =>
    obtain ⟨hle, h0⟩ : s.rxlen.toNat + s.cnt.toNat ≤ 13 ∧ s.cnt ≠ 0 := by simpa [indicesBounded, rootOf] using h.indices
    simp only [precvStep, frameByte] at hl
    split at hl
    · split at hl <;> cases hl
      have hnext : (s.rxlen + 1).toNat + (s.cnt - 1).toNat ≤ 13 := by bv_omega
      exact h.toLine e rfl rfl (decide_eq_true hnext) h.mask
    · cases hl
      exact h.toLine e rfl rfl rfl h.mask
  case v11 =>
    cases hl
    exact h.toLine e rfl rfl rfl nofun
  case v12 =>
    cases hl
    exact h.toRest rfl rfl rfl
  all_goals nomatch ho

/-- The own lines of BOOT (43_boot_handshake.md R185 to R191). -/
theorem At.bootLine {s t : State} {here : Label} (h : At here [] s) (ho : here.operation = some 0x08)
    (hl : bootStep here s = .next t) : ControlSound t := by
  have e := bootStep_effect hl
  cases here
  case h1 | h3 | h7 | h9 =>
    cases hl
    exact h.toLine e rfl rfl rfl h.mask
  case h2 =>
    cases hl
    exact h.toLine e rfl rfl rfl fun _ => BitVec.and_not_self _
  case h4 | h6 | h8 | h10 | h13 =>
    cases hl
    exact h.toCall e rfl rfl rfl rfl rfl h.mask
  case h5 | h12 =>
    simp only [bootStep, Host.Outcome.next.injEq] at hl
    split at hl <;> subst hl <;> exact h.toLine e rfl rfl rfl h.mask
  case h11 =>
    simp only [bootStep, countdownCheck, Host.Outcome.next.injEq] at hl
    split at hl
    · subst hl
      exact h.toLine e rfl rfl rfl h.mask
    · split at hl <;> subst hl <;> exact h.toLine e rfl rfl rfl h.mask
  case h14 =>
    cases hl
    exact h.toLine e rfl rfl rfl nofun
  case h15 =>
    cases hl
    exact h.toRest rfl rfl rfl
  all_goals nomatch ho

/-- The latched code is the code of the operation in progress (30_encoding.md R86). -/
theorem opcode_of_decodeFields {opc a b c : Byte} {i : Instr} (h : decodeFields opc a b c = .ok i) : i.opcode = opc := by
  unfold decodeFields at h
  split at h <;> cases h <;> exact (BitVec.eq_of_toNat_eq ‹_›).symm

/-- A line of an operation's own leads to another line of it, to a procedure it calls, or to rest. -/
theorem At.ownLine {i : Instr} {s t : State} {here : Label} (h : At here [] s) (ho : here.operation = some i.opcode)
    (hl : lineStep i here s = .next t) : ControlSound t := by
  have e := lineStep_effect hl
  cases i with
  | sendb b =>
    cases here
    case t1 => cases hl; exact h.toCall e rfl rfl rfl rfl rfl h.mask
    case t2 => cases hl; exact h.toRest rfl rfl rfl
    all_goals nomatch ho
  | enrx =>
    cases here
    case n1 => cases hl; exact h.toCall e rfl rfl rfl rfl rfl h.mask
    case n2 => cases hl; exact h.toRest rfl rfl rfl
    all_goals nomatch ho
  | rdblk =>
    cases here
    case k1 => cases hl; exact h.toCall e rfl rfl rfl rfl rfl h.mask
    case k2 => cases hl; exact h.toRest rfl rfl rfl
    all_goals nomatch ho
  | rdto units =>
    cases here
    case o1 => cases hl; exact h.toCall e rfl rfl rfl rfl rfl h.mask
    case o2 => cases hl; exact h.toRest rfl rfl rfl
    all_goals nomatch ho
  | sndack byte units expected =>
    cases here
    case q1 => cases hl; exact h.toCall e rfl rfl rfl rfl rfl h.mask
    case q2 => cases hl; exact h.toRest rfl rfl rfl
    all_goals nomatch ho
  | psend command => exact h.psendLine ho hl
  | precv command => exact h.precvLine ho hl
  | boot => exact h.bootLine ho hl

/-- Every line of the operation in progress leads to a sound line or to rest. -/
theorem At.line {i : Instr} {s t : State} {here : Label} {rets : List Label} (h : At here rets s) (hi : latchedInstr s = .ok i)
    (hl : lineStep i here s = .next t) : ControlSound t := by
  cases ho : here.operation with
  | none => exact h.procedureLine ho hl
  | some o =>
    obtain ⟨rfl, rfl⟩ := h.own ho
    exact h.ownLine (ho.trans (congrArg some (opcode_of_decodeFields hi).symm)) hl

/-! ### Buffers and masks under a line -/

/-- A line keeps the buffers sound: V7 alone stores, at an index the loop bounds (20_memory.md R72). -/
theorem At.bufferInv {s t : State} {here : Label} {rets : List Label} (h : At here rets s) (e : LineEffect here s t)
    (hb : BufferInv s) : BufferInv t := by
  obtain ⟨htx, -⟩ := e.host
  have htwf : t.txbuf.wf = true := htx ▸ hb.tx_wf
  have htin : t.txbuf.within t.cfg.txCap = true := by rw [htx, e.cfg, hb.tx_within]
  obtain ⟨hrx, hlen⟩ | ⟨rfl, -, hcap, hrx, hlen⟩ := e.rxbuf
  · refine ⟨hrx ▸ hb.rx_wf, hrx ▸ hb.rx_within, htwf, htin, ?_⟩
    obtain hlen | ⟨-, hlen⟩ := hlen
    · exact hlen ▸ hb.rx_length
    · simp [hlen]
  · obtain ⟨rfl, -⟩ := h.own rfl
    obtain ⟨hle, h0⟩ : s.rxlen.toNat + s.cnt.toNat ≤ 13 ∧ s.cnt ≠ 0 := by simpa [indicesBounded, rootOf] using h.indices
    refine ⟨hrx ▸ wf_write _ _ _ hb.rx_wf, hrx ▸ within_write _ _ _ _ hcap hb.rx_within, htwf, htin, ?_⟩
    rw [hlen]
    bv_omega

/-- A line keeps the masks inside their width: what it writes to one is the other, the link's bit alone, or the link's bit set. -/
theorem LineEffect.maskInv {here : Label} {s t : State} (e : LineEffect here s t) (hc : s.cfg.maskOk = true) (hm : MaskInv s) :
    MaskInv t := by
  constructor <;> rw [e.cfg]
  · obtain h | ⟨-, h⟩ | ⟨-, h⟩ | ⟨-, h⟩ := e.iem <;> rw [h]
    · exact hm.iem_width
    · exact width_setLinkBit hc hm.iem_width
    · exact width_linkOnly hc
    · exact hm.saved_width
  · obtain h | ⟨h, -⟩ := e.saved <;> rw [h]
    · exact hm.saved_width
    · exact hm.iem_width

/-! ### Each kind of step -/

/-- A line of the operation in progress keeps the invariant. -/
theorem inv_line {i : Instr} {s t : State} {here : Label} {rets : List Label} (h : Inv s) (hp : InProgress i s)
    (hph : s.ph = .run here rets) (hl : lineStep i here s = .next t) : Inv t := by
  have ha := h.toAt hph
  have e := lineStep_effect hl
  exact .of_controlSound (e.cfg ▸ h.cfg_wf) (ha.line hp.2 hl) (ha.bufferInv e h.buffers) (e.maskInv h.maskOk h.mask)

/-- An accepted issue puts control at the first line of the operation issued. -/
theorem inv_accept {s : State} {opc a b c : Byte} {entry : Label} (h : Inv s) (hr : AtRest s) (hv : validOpcode opc = true)
    (hfit : opc = 0x06 → s.txlen.toNat ≤ s.cfg.txMaxPayload) (hentry : entry.operation = some opc)
    (hi : indicesBounded entry s = true) (hm : restricted entry = false) : Inv (accept opc a b c entry s) := by
  have ha : At entry [] (accept opc a b c entry s) := by
    refine ⟨rfl, rfl, hv, hfit, by simp [positionOf, hentry], fun ht => ?_, ?_, fun ht => ?_⟩
    · simp [hr.mode] at ht
    · rw [← hi]
      exact indicesBounded_congr rfl rfl rfl rfl
    · simp [rootOf, hm] at ht
  obtain ⟨b1, b2, b3, b4, b5⟩ := h.buffers
  obtain ⟨m1, m2⟩ := h.mask
  exact .of_controlSound h.cfg_wf (.inr ⟨_, _, ha⟩) ⟨b1, b2, b3, b4, b5⟩ ⟨m1, m2⟩

/-- A refused issue touches nothing the invariant reads but `BUSY`, which stays 0 (30_encoding.md R88). -/
theorem inv_refuseIssue {s : State} (h : Inv s) (hb : s.busy = false) (opc : Byte) : Inv (refuseIssue opc s) := by
  obtain ⟨b1, b2, b3, b4, b5⟩ := h.buffers
  obtain ⟨m1, m2⟩ := h.mask
  have hr := h.atRest hb
  exact .of_controlSound h.cfg_wf (.inl ⟨hr.ph, rfl, hr.mode⟩) ⟨b1, b2, b3, b4, b5⟩ ⟨m1, m2⟩

/-- The issue of an operation keeps the invariant: PSEND's is refused unless its payload fits (42_packet_protocol.md R157). -/
theorem inv_issueState {s : State} (h : Inv s) (hb : s.busy = false) (i : Instr) : Inv (issueState i s) := by
  have hr := h.atRest hb
  cases i with
  | psend command =>
    simp only [issueState, issuePsend]
    split
    · exact inv_refuseIssue h hb _
    · exact inv_accept h hr rfl (fun _ => Nat.le_of_not_lt ‹_›) rfl rfl rfl
  | _ => exact inv_accept h hr rfl nofun rfl rfl rfl

/-- The IRQ step disarms the link and keeps the invariant (60_exceptions.md R206). -/
theorem inv_irqStep {s : State} (h : Inv s) : Inv (irqStep s) := by
  obtain ⟨hc, ⟨h1, h2, h3, h4⟩, ⟨b1, b2, b3, b4, b5⟩, ⟨l1, l2⟩, ⟨m1, m2⟩⟩ := h
  exact ⟨hc, ⟨h1, h2, h3, h4⟩, ⟨b1, b2, b3, b4, b5⟩, ⟨l1, fun root hroot hrest => mask_clear _ _ (l2 root hroot hrest)⟩,
    ⟨width_clearLinkBit m1, m2⟩⟩

/-- A turn of PEER keeps the invariant. -/
theorem inv_deliver {s : State} (h : Inv s) (b : Byte) : Inv (deliver b s) := by
  obtain ⟨-, hd⟩ | ⟨-, hd⟩ := deliver_cases b s <;> rw [hd]
  · exact h.of_unread ..
  · exact h

/-- An idle store of HOST keeps the invariant. -/
theorem inv_hostStore {s : State} (h : Inv s) (hb : s.busy = false) (off : Offset) (v : Byte) : Inv (hostStore off v s) := by
  have ⟨hph, _, hmode⟩ := h.atRest hb
  have ⟨b1, b2, b3, b4, b5⟩ := h.buffers
  have ⟨m1, m2⟩ := h.mask
  obtain hs | ⟨_, _, _, hs⟩ | ⟨-, hs⟩ | ⟨-, hs⟩ | ⟨-, hs⟩ | ⟨k, hk, -, hs⟩ := hostStore_cases off v s <;> rw [hs]
  · exact h
  · exact h.of_unread ..
  · exact h.of_unread ..
  · exact .of_controlSound h.cfg_wf (.inl ⟨hph, hb, hmode⟩) ⟨b1, b2, b3, b4, b5⟩ ⟨width_written _ _, m2⟩
  · exact .of_controlSound h.cfg_wf (.inl ⟨hph, hb, hmode⟩) ⟨b1, b2, b3, b4, b5⟩ ⟨m1, m2⟩
  · exact .of_controlSound h.cfg_wf (.inl ⟨hph, hb, hmode⟩) ⟨b1, b2, wf_write _ _ _ b3, within_write _ _ _ _ hk b4, b5⟩ ⟨m1, m2⟩

/-- The state after reset meets the invariant, under any well-formed parameters (70_reset_and_hazards.md R235). -/
theorem inv_resetWith {c : Config} (hc : c.wf = true) : Inv (State.resetWith c) :=
  .of_controlSound hc (.inl ⟨rfl, rfl, rfl⟩) ⟨rfl, rfl, rfl, rfl, Nat.zero_le _⟩ ⟨BitVec.zero_and, BitVec.zero_and⟩

/-- So does the state after a reset at a step boundary, which keeps the draws and the turns to come (log 10). -/
theorem inv_resetTurn {s : State} (hc : s.cfg.wf = true) : Inv (resetTurn s) := by
  obtain ⟨hc, ⟨h1, h2, h3, h4⟩, ⟨b1, b2, b3, b4, b5⟩, ⟨l1, l2⟩, ⟨m1, m2⟩⟩ := inv_resetWith hc
  exact ⟨hc, ⟨h1, h2, h3, h4⟩, ⟨b1, b2, b3, b4, b5⟩, ⟨l1, l2⟩, ⟨m1, m2⟩⟩

/-- Settles O44, by what the step was: a reset, the interrupt, or a turn of SEQ, PEER or HOST. -/
theorem stepKeepsInvariant : Obligations.StepKeepsInvariant := by
  unfold Obligations.StepKeepsInvariant
  intro s t h hstep
  obtain ⟨rest, -, rfl⟩ | ⟨-, -, rfl⟩ | ⟨-, rest, -, hturn⟩ := step_next hstep
  · exact inv_resetTurn (s := { s with agenda := rest }) h.cfg_wf
  · exact inv_irqStep h
  · have ha : Inv { s with agenda := rest } := h.of_unread ..
    obtain rfl | ⟨i, here, rets, hp, hph, hl⟩ | ⟨i, hb, rfl⟩ | ⟨v, hb, rfl⟩ | ⟨b, -, rfl⟩ | ⟨off, v, -, hb, -, rfl⟩ := hturn
    · exact ha
    · exact inv_line ha hp hph hl
    · exact inv_issueState ha hb i
    · exact inv_refuseIssue ha hb v
    · exact inv_deliver ha b
    · exact inv_hostStore ha hb off v

end Sys2Proof.Machine
end

section
/-! What a turn of SEQ, PEER or HOST can do to the registers that have one writer (20_memory.md R75, R76), said once for the rules over
every step: the parameters, the mailbox, the two buffers and the host's registers. -/

namespace Sys2Proof.Machine

/-! ### One store into a buffer -/

/-- `m'` is `m`, or `m` after one store at an index below a capacity. -/
def StoredBelow (cap : Nat) (m m' : Memory) : Prop := m' = m ∨ ∃ k v, k < cap ∧ m' = m.write k v

/-- A store below the capacity keeps the canonical form and the capacity. -/
theorem StoredBelow.canonical {cap : Nat} {m m' : Memory} (h : StoredBelow cap m m') (hwf : m.wf = true)
    (hin : m.within cap = true) : m'.wf = true ∧ m'.within cap = true := by
  obtain rfl | ⟨k, v, hk, rfl⟩ := h
  · exact ⟨hwf, hin⟩
  · exact ⟨wf_write m k v hwf, within_write cap m k v hk hin⟩

/-! ### The effect of a turn -/

/-- The registers only the idle host writes are the same in both states (10_state.md R30, R31, R33). -/
def HostRegistersKept (s t : State) : Prop :=
  t.txbuf = s.txbuf ∧ t.txlen = s.txlen ∧ t.argA = s.argA ∧ t.argB = s.argB ∧ t.argC = s.argC

/-- What a turn of SEQ, PEER or HOST that takes `s` to `t` can have done. -/
structure TurnEffect (s t : State) : Prop where
  cfg : t.cfg = s.cfg
  rxb : t.rxb = s.rxb
  rxf : t.rxf = s.rxf ∨ t.rxf = false ∨ s.busy = false ∧ ∃ v rest, s.agenda = .write 0x05 v :: rest
  host : HostRegistersKept s t ∨ s.busy = false ∧ ∃ off v rest, s.agenda = .write off v :: rest
  rxbuf : StoredBelow Config.rxCap s.rxbuf t.rxbuf
  txbuf : StoredBelow s.cfg.txCap s.txbuf t.txbuf

/-- A turn that leaves those registers alone. -/
theorem TurnEffect.of_kept {s t : State} (hc : t.cfg = s.cfg) (hb : t.rxb = s.rxb) (hf : t.rxf = s.rxf) (hr : t.rxbuf = s.rxbuf)
    (hh : HostRegistersKept s t) : TurnEffect s t :=
  ⟨hc, hb, .inl hf, .inl hh, .inl hr, .inl hh.1⟩

/-- A line of the operation in progress stores into the Receive Buffer only, and clears the received-flag at most. -/
theorem LineEffect.turnEffect {here : Label} {s t : State} {rest : List Turn}
    (e : LineEffect here { s with agenda := rest } t) : TurnEffect s t := by
  obtain ⟨htx, hlen, -, hA, hB, hC⟩ := e.host
  have hrx : StoredBelow Config.rxCap s.rxbuf t.rxbuf := by
    obtain ⟨hrx, -⟩ | ⟨-, -, hcap, hrx, -⟩ := e.rxbuf
    · exact .inl hrx
    · exact .inr ⟨_, _, hcap, hrx⟩
  exact ⟨e.cfg, e.rxb, e.rxf.imp_right .inl, .inl ⟨htx, hlen, hA, hB, hC⟩, hrx, .inl htx⟩

theorem issueState_turnEffect (i : Instr) (s : State) (rest : List Turn) :
    TurnEffect s (issueState i { s with agenda := rest }) := by
  obtain ⟨_, _, _, _, _, _, _, _, _, _, h⟩ := issueState_frame i { s with agenda := rest }
  rw [h]
  exact .of_kept rfl rfl rfl rfl ⟨rfl, rfl, rfl, rfl, rfl⟩

theorem deliver_turnEffect (b : Byte) (s : State) (rest : List Turn) : TurnEffect s (deliver b { s with agenda := rest }) := by
  obtain ⟨-, h⟩ | ⟨-, h⟩ := deliver_cases b { s with agenda := rest } <;> rw [h] <;>
    exact .of_kept rfl rfl rfl rfl ⟨rfl, rfl, rfl, rfl, rfl⟩

/-- An idle store of HOST reaches `TXBUF` below its capacity only, and the received-flag through `LSTAT` only (20_memory.md R66). -/
theorem hostStore_turnEffect {s : State} {off : Offset} {v : Byte} {rest : List Turn} (hag : s.agenda = .write off v :: rest)
    (hb : s.busy = false) : TurnEffect s (hostStore off v { s with agenda := rest }) := by
  have hw : s.busy = false ∧ ∃ off v rest, s.agenda = .write off v :: rest := ⟨hb, off, v, rest, hag⟩
  obtain h | ⟨_, _, _, h⟩ | ⟨rfl, h⟩ | ⟨-, h⟩ | ⟨-, h⟩ | ⟨k, hk, -, h⟩ := hostStore_cases off v { s with agenda := rest } <;> rw [h]
  · exact .of_kept rfl rfl rfl rfl ⟨rfl, rfl, rfl, rfl, rfl⟩
  · exact ⟨rfl, rfl, .inl rfl, .inr hw, .inl rfl, .inl rfl⟩
  · exact ⟨rfl, rfl, .inr (.inr ⟨hb, v, rest, hag⟩), .inr hw, .inl rfl, .inl rfl⟩
  · exact .of_kept rfl rfl rfl rfl ⟨rfl, rfl, rfl, rfl, rfl⟩
  · exact ⟨rfl, rfl, .inl rfl, .inr hw, .inl rfl, .inl rfl⟩
  · exact ⟨rfl, rfl, .inl rfl, .inr hw, .inl rfl, .inr ⟨k, v, hk, rfl⟩⟩

/-- A step is a reset, the IRQ step, or a turn of SEQ, PEER or HOST with that turn's effect. -/
theorem step_effect {s t : State} (h : step s = .next t) :
    (∃ rest, s.agenda = .reset :: rest ∧ t = resetTurn { s with agenda := rest }) ∨
    (irqEnabled s = true ∧ t = irqStep s) ∨ TurnEffect s t := by
  obtain hreset | ⟨-, hq, ht⟩ | ⟨-, rest, -, hturn⟩ := step_next h
  · exact .inl hreset
  · exact .inr (.inl ⟨hq, ht⟩)
  · refine .inr (.inr ?_)
    obtain rfl | ⟨i, here, rets, -, -, hl⟩ | ⟨i, -, rfl⟩ | ⟨v, -, rfl⟩ | ⟨b, -, rfl⟩ | ⟨off, v, hag, hb, -, rfl⟩ := hturn
    · exact .of_kept rfl rfl rfl rfl ⟨rfl, rfl, rfl, rfl, rfl⟩
    · exact (lineStep_effect hl).turnEffect
    · exact issueState_turnEffect i s rest
    · exact .of_kept rfl rfl rfl rfl ⟨rfl, rfl, rfl, rfl, rfl⟩
    · exact deliver_turnEffect b s rest
    · exact hostStore_turnEffect hag hb

/-! ### The rules over every step -/

/-- Settles O36, by what the step was: the IRQ step alone writes `RXB`, and a turn sets `RXF` only by an idle write of `LSTAT`. -/
theorem mailboxHasOneProducer : Obligations.MailboxHasOneProducer := by
  unfold Obligations.MailboxHasOneProducer
  intro s t h
  obtain ⟨rest, hag, rfl⟩ | hirq | e := step_effect h
  · exact ⟨fun _ => .inr ⟨rest, hag⟩, nofun⟩
  · exact ⟨fun _ => .inl hirq, fun _ _ => .inl hirq⟩
  · refine ⟨fun hne => absurd e.rxb hne, fun hclear hset => ?_⟩
    obtain hkept | hcleared | hwrite := e.rxf
    · simp [hkept, hclear] at hset
    · simp [hcleared] at hset
    · exact .inr hwrite

/-- Settles O39, by what the step was: the IRQ step keeps the host's registers, and a turn that changes one is an idle write. -/
theorem transmitBufferIsTheHosts : Obligations.TransmitBufferIsTheHosts := by
  unfold Obligations.TransmitBufferIsTheHosts
  intro s t h hreset hblocked
  obtain ⟨rest, hag, -⟩ | ⟨-, rfl⟩ | e := step_effect h
  · exact absurd hag (hreset rest)
  · exact ⟨rfl, rfl, rfl, rfl, rfl⟩
  · obtain hkept | ⟨hidle, off, v, rest, hag⟩ := e.host
    · exact hkept
    · obtain hbusy | hnowrite := hblocked
      · simp [hidle] at hbusy
      · exact absurd hag (hnowrite off v rest)

/-- Settles O40, by what the step was: a reset, the IRQ step and every turn keep the parameters. -/
theorem parametersNeverChange : Obligations.ParametersNeverChange := by
  unfold Obligations.ParametersNeverChange
  intro s t h
  obtain ⟨rest, -, rfl⟩ | ⟨-, rfl⟩ | e := step_effect h
  · rfl
  · rfl
  · exact e.cfg

/-- Settles O42, by what the step was: a reset empties both buffers, the IRQ step keeps them, a turn stores below their capacity. -/
theorem stepKeepsBuffersCanonical : Obligations.StepKeepsBuffersCanonical := by
  unfold Obligations.StepKeepsBuffersCanonical
  intro s t hrxwf hrxin htxwf htxin h
  obtain ⟨rest, -, rfl⟩ | ⟨-, rfl⟩ | e := step_effect h
  · exact ⟨rfl, rfl, rfl, rfl⟩
  · exact ⟨hrxwf, hrxin, htxwf, htxin⟩
  · obtain ⟨hrxwf', hrxin'⟩ := e.rxbuf.canonical hrxwf hrxin
    exact ⟨hrxwf', hrxin', e.txbuf.canonical htxwf htxin⟩

end Sys2Proof.Machine
end

section
/-! What the host reads (20_memory.md R66 to R70): the bits of `STATUS` and `LSTAT`, and what the value of a read depends on. -/

namespace Sys2Proof.Machine

/-! ### The bits of the two assembled bytes -/

/-- A flag in a byte is that bit and no other. -/
theorem getLsbD_flagBit (f : Bool) {n : Nat} (hn : n < 8) (k : Nat) : (flagBit f n).getLsbD k = (f && decide (k = n)) := by
  cases f with
  | false => simp [flagBit]
  | true => exact (BitVec.getLsbD_twoPow (w := 8) n k).trans (by simp [hn, eq_comm])

/-- `MODE` as a bit is 1 in output mode (10_state.md R26). -/
theorem modeBit_eq (m : LinkMode) : modeBit m = decide (m = .txInt) := by
  cases m <;> rfl

/-- The bits of `STATUS` (10_state.md R34). -/
theorem getLsbD_statusByte (s : State) {k : Nat} (hk : k < 8) : (statusByte s).getLsbD k =
    (s.busy && decide (k = 0) || s.done && decide (k = 1) || s.res && decide (k = 2) || s.err && decide (k = 3) ||
     !decide (k < 4) && (hsBits s.hs).getLsbD (k - 4)) := by
  simp only [statusByte, BitVec.getLsbD_or, getLsbD_flagBit, BitVec.getLsbD_shiftLeft, Nat.reduceLT, hk, decide_true, Bool.true_and]

/-- `STATUS` holds the code of `HS` from bit 4 on (10_state.md R34). -/
theorem getLsbD_statusByte_hs (s : State) {k : Nat} (hk : k < 4) : (statusByte s).getLsbD (4 + k) = (hsBits s.hs).getLsbD k := by
  rw [getLsbD_statusByte s (by omega)]
  simp [show 4 + k ≠ 1 by omega, show 4 + k ≠ 2 by omega, show 4 + k ≠ 3 by omega]

theorem extractLsb'_statusByte (s : State) : (statusByte s).extractLsb' 4 2 = (hsBits s.hs).extractLsb' 0 2 := by
  apply BitVec.eq_of_getLsbD_eq
  intro k hk
  rw [BitVec.getLsbD_extractLsb', BitVec.getLsbD_extractLsb', getLsbD_statusByte_hs s (by omega), Nat.zero_add]

/-- The bits of `LSTAT` (10_state.md R35). -/
theorem getLsbD_lstatByte (s : State) (k : Nat) : (lstatByte s).getLsbD k =
    (s.rxf && decide (k = 0) || s.ifl && decide (k = 1) || s.gie && decide (k = 2) || decide (s.mode = .txInt) && decide (k = 3)) := by
  simp only [lstatByte, BitVec.getLsbD_or, getLsbD_flagBit, Nat.reduceLT, modeBit_eq]

/-- The bits 7:4 of `LSTAT` are zero (10_state.md R35). -/
theorem extractLsb'_lstatByte (s : State) : (lstatByte s).extractLsb' 4 4 = 0 := by
  apply BitVec.eq_of_getLsbD_eq
  intro k hk
  rw [BitVec.getLsbD_extractLsb', getLsbD_lstatByte]
  simp [show 4 + k ≠ 1 by omega, show 4 + k ≠ 2 by omega, show 4 + k ≠ 3 by omega]

/-! ### Host reads -/

theorem hostRead_status (s : State) : hostRead 0x04 s = statusByte s := rfl

theorem hostRead_lstat (s : State) : hostRead 0x05 s = lstatByte s := rfl

/-- Settles O30: a read of `STATUS` is the byte `STATUS`, whose bits are the flags in their places and `HS` in 5:4. -/
theorem statusBits : Obligations.StatusBits := by
  unfold Obligations.StatusBits
  intro s
  rw [hostRead_status, extractLsb'_statusByte]
  refine ⟨?busy, ?done, ?res, ?err, ?code, ?bit6, ?bit7⟩
  case code => cases s.hs <;> rfl
  all_goals rw [getLsbD_statusByte s (by decide)]
  case bit6 | bit7 => cases s.hs <;> simp [hsBits]
  all_goals simp

/-- Settles O31: a read of `LSTAT` is the byte `LSTAT`, and an idle write of it is the store `writeLstat`. -/
theorem lstatReadAndWrite : Obligations.LstatReadAndWrite := by
  unfold Obligations.LstatReadAndWrite
  intro s v
  rw [hostRead_lstat, extractLsb'_lstatByte]
  refine ⟨?_, ?_, ?_, ?_, rfl, fun hidle => hostWrite_store hidle (by decide)⟩
  all_goals
    rw [getLsbD_lstatByte]
    simp

/-- Settles O34: `STATUS`, `LSTAT` and every register, buffer and parameter a read can return are the same in the two states. -/
theorem sequencerHiddenFromHost : Obligations.SequencerHiddenFromHost := by
  unfold Obligations.SequencerHiddenFromHost
  intro s t hcfg hiem hrxf hrxb hifl hgie hmode hsdr hrxbuf hrxlen htxbuf htxlen hopc hargA hargB hargC hbusy hdone hres herr hhs off
  have hstatus : statusByte s = statusByte t := by simp only [statusByte, hbusy, hdone, hres, herr, hhs]
  have hlstat : lstatByte s = lstatByte t := by simp only [lstatByte, hrxf, hifl, hgie, hmode]
  simp only [hostRead, hopc, hargA, hargB, hargC, hstatus, hlstat, hiem, hrxb, hsdr, hrxlen, htxlen, hrxbuf, htxbuf, hcfg]

end Sys2Proof.Machine
end

section
/-! The host's register map (20_memory.md R66 to R70) as the host reads and writes it, and the two traces of the wire (R61, R62). -/

namespace Sys2Proof.Machine

/-! ### The offsets of the map -/

/-- The reserved offsets: the gaps after `TXLEN` and after `RXBUF`, and those from the end of `TXBUF` on (20_memory.md R70). -/
def ReservedOffset (c : Config) (off : Offset) : Prop :=
  (0x0B ≤ off.toNat ∧ off.toNat ≤ 0x0F) ∨ off.toNat = 0x1E ∨ off.toNat = 0x1F ∨ 0x20 + c.txCap ≤ off.toNat

/-- The offsets that ignore an idle write: `STATUS`, the registers marked R, `RXBUF` and the reserved ones (20_memory.md R66, R69). -/
def IgnoredOffset (c : Config) (off : Offset) : Prop :=
  off.toNat = 0x04 ∨ (0x07 ≤ off.toNat ∧ off.toNat ≤ 0x09) ∨ (0x0B ≤ off.toNat ∧ off.toNat ≤ 0x1F) ∨ 0x20 + c.txCap ≤ off.toNat

theorem ReservedOffset.ignored {c : Config} {off : Offset} (h : ReservedOffset c off) : IgnoredOffset c off := by
  unfold ReservedOffset at h
  unfold IgnoredOffset
  omega

/-- The elements of the buffers stand at their index from the window's first offset on. -/
theorem toNat_windowOffset {base k : Nat} (h : base + k < 64) : (BitVec.ofNat 6 (base + k)).toNat = base + k :=
  Nat.mod_eq_of_lt h

/-! ### Host reads -/

/-- From 0x0B on a read falls into one of the two windows or returns 0x00. -/
theorem hostRead_above_registers {off : Offset} (s : State) (h : 0x0B ≤ off.toNat) : hostRead off s =
    if 0x10 ≤ off.toNat ∧ off.toNat < 0x10 + Config.rxCap then s.rxbuf.read (off.toNat - 0x10)
    else if 0x20 ≤ off.toNat ∧ off.toNat < 0x20 + s.cfg.txCap then s.txbuf.read (off.toNat - 0x20)
    else 0x00 := by
  unfold hostRead
  split
  case h_12 => rfl
  all_goals omega

theorem hostRead_rxbuf (s : State) {k : Nat} (hk : k < 14) : hostRead (BitVec.ofNat 6 (0x10 + k)) s = s.rxbuf.read k := by
  have hoff := toNat_windowOffset (base := 0x10) (k := k) (by omega)
  rw [hostRead_above_registers s (by omega), hoff, if_pos (by unfold Config.rxCap; omega), Nat.add_sub_cancel_left]

theorem hostRead_txbuf (s : State) {k : Nat} (hk : k < s.cfg.txCap) (h32 : k < 32) :
    hostRead (BitVec.ofNat 6 (0x20 + k)) s = s.txbuf.read k := by
  have hoff := toNat_windowOffset (base := 0x20) (k := k) (by omega)
  rw [hostRead_above_registers s (by omega), hoff, if_neg (by unfold Config.rxCap; omega), if_pos (by omega), Nat.add_sub_cancel_left]

theorem hostRead_reserved {s : State} {off : Offset} (h : ReservedOffset s.cfg off) : hostRead off s = 0x00 := by
  unfold ReservedOffset at h
  rw [hostRead_above_registers s (by omega), if_neg (by unfold Config.rxCap; omega), if_neg (by omega)]

/-- Settles O29: the registers by the map itself, the two windows and the reserved offsets by their lemmas, the read turn by `step_turn`. -/
theorem hostReadMap : Obligations.HostReadMap := by
  unfold Obligations.HostReadMap
  intro s
  exact ⟨rfl, rfl, rfl, rfl, rfl, rfl, rfl, rfl, rfl, hostRead_status s, hostRead_lstat s,
    fun _ hk => hostRead_rxbuf s hk, fun _ hk h32 => hostRead_txbuf s hk h32, fun _ h => hostRead_reserved h,
    fun _ _ hq hag => step_turn hq hag⟩

/-! ### Host writes -/

theorem hostWrite_busy {s : State} (hb : s.busy = true) (off : Offset) (v : Byte) : hostWrite off v s = .next s :=
  if_pos hb

theorem hostWrite_opc {s : State} (hb : s.busy = false) (v : Byte) : hostWrite 0x00 v s = issue v s := by
  simp [hostWrite, hb]

theorem hostStore_txbuf (s : State) (v : Byte) {k : Nat} (hk : k < s.cfg.txCap) (h32 : k < 32) :
    hostStore (BitVec.ofNat 6 (0x20 + k)) v s = { s with txbuf := s.txbuf.write k v } := by
  have hoff := toNat_windowOffset (base := 0x20) (k := k) (by omega)
  unfold hostStore
  rw [hoff]
  split
  case h_7 => rw [if_pos (by omega), Nat.add_sub_cancel_left]
  all_goals omega

theorem hostWrite_txbuf {s : State} (hb : s.busy = false) (v : Byte) {k : Nat} (hk : k < s.cfg.txCap) (h32 : k < 32) :
    hostWrite (BitVec.ofNat 6 (0x20 + k)) v s = .next { s with txbuf := s.txbuf.write k v } := by
  have h0 : BitVec.ofNat 6 (0x20 + k) ≠ 0 := by
    intro h
    have hoff := toNat_windowOffset (base := 0x20) (k := k) (by omega)
    rw [h] at hoff
    change 0 = 0x20 + k at hoff
    omega
  rw [hostWrite_store hb h0, hostStore_txbuf s v hk h32]

theorem hostStore_ignored {s : State} {off : Offset} (v : Byte) (h : IgnoredOffset s.cfg off) : hostStore off v s = s := by
  unfold IgnoredOffset at h
  unfold hostStore
  split
  case h_7 => exact if_neg (by omega)
  all_goals omega

/-- A location that ignores an idle write ignores every write. -/
theorem hostWrite_ignored {s : State} {off : Offset} (v : Byte) (h : IgnoredOffset s.cfg off) : hostWrite off v s = .next s := by
  cases hb : s.busy with
  | true => exact hostWrite_busy hb off v
  | false =>
    have h0 : off ≠ 0 := by
      rintro rfl
      simp [IgnoredOffset] at h
    rw [hostWrite_store hb h0, hostStore_ignored v h]

/-- Settles O32: busy, nothing; idle, each location marked W by its store, the others ignored; and the write turn by `step_turn`. -/
theorem hostWriteRule : Obligations.HostWriteRule := by
  unfold Obligations.HostWriteRule
  intro s v
  refine ⟨fun hb off => hostWrite_busy hb off v, fun hb => ?_, fun off rest hq hag => step_turn hq hag⟩
  have store {off : Offset} (h0 : off ≠ 0) : hostWrite off v s = .next (hostStore off v s) := hostWrite_store hb h0
  refine ⟨hostWrite_opc hb v, store (by decide), store (by decide), store (by decide), store (by decide),
    ⟨v &&& maskBits s.cfg, store (by decide), fun k hk => ?mask⟩, store (by decide),
    fun k hk h32 => ⟨hostWrite_txbuf hb v hk h32, fun hwf => ?readBack⟩,
    fun off h => hostWrite_ignored v h⟩
  case mask => rw [BitVec.getLsbD_and, maskBits_getLsbD s.cfg k hk]
  case readBack =>
    rw [hostRead_txbuf { s with txbuf := s.txbuf.write k v } hk h32]
    exact read_write_same s.txbuf k v hwf

/-- Settles O33: a reserved offset reads 0x00 and is one of those that ignore a write. -/
theorem reservedOffsets : Obligations.ReservedOffsets := by
  unfold Obligations.ReservedOffsets
  intro s off v (h : ReservedOffset s.cfg off)
  exact ⟨hostRead_reserved h, hostWrite_ignored v h.ignored⟩

/-! ### The traces of the wire -/

/-- What a step from `s` to `t` may add to the two traces: the byte of S2 sent, the byte of a delivery received (10_state.md R48). -/
def TracesGrow (s t : State) : Prop :=
  (t.txlog = s.txlog ∨ ∃ b rets, s.ph = .run (.s2 b) rets ∧ t.txlog = s.txlog ++ [b]) ∧
  (t.rxlog = s.rxlog ∨ ∃ b rest, s.agenda = .deliver b :: rest ∧ s.mode = .rxExt ∧ t.rxlog = s.rxlog ++ [b])

theorem TracesGrow.of_kept {s t : State} (htx : t.txlog = s.txlog) (hrx : t.rxlog = s.rxlog) : TracesGrow s t :=
  ⟨.inl htx, .inl hrx⟩

/-- A line of the operation in progress sends its byte at S2 and receives none. -/
theorem LineEffect.tracesGrow {here : Label} {rets : List Label} {s t : State} {rest : List Turn} (hph : s.ph = .run here rets)
    (e : LineEffect here { s with agenda := rest } t) : TracesGrow s t := by
  refine ⟨e.txlog.imp_right ?_, .inl e.rxlog⟩
  rintro ⟨b, rfl, htx⟩
  exact ⟨b, rets, hph, htx⟩

theorem issueState_tracesGrow (i : Instr) (s : State) (rest : List Turn) : TracesGrow s (issueState i { s with agenda := rest }) := by
  obtain ⟨_, _, _, _, _, _, _, _, _, _, h⟩ := issueState_frame i { s with agenda := rest }
  rw [h]
  exact .of_kept rfl rfl

theorem deliver_tracesGrow {s : State} {b : Byte} {rest : List Turn} (hag : s.agenda = .deliver b :: rest) :
    TracesGrow s (deliver b { s with agenda := rest }) := by
  obtain ⟨hmode, h⟩ | ⟨-, h⟩ := deliver_cases b { s with agenda := rest } <;> rw [h]
  · exact ⟨.inl rfl, .inr ⟨b, rest, hag, hmode, rfl⟩⟩
  · exact .of_kept rfl rfl

theorem hostStore_tracesGrow (off : Offset) (v : Byte) (s : State) (rest : List Turn) :
    TracesGrow s (hostStore off v { s with agenda := rest }) := by
  obtain h | ⟨_, _, _, h⟩ | ⟨-, h⟩ | ⟨-, h⟩ | ⟨-, h⟩ | ⟨_, -, -, h⟩ := hostStore_cases off v { s with agenda := rest } <;> rw [h] <;>
    exact .of_kept rfl rfl

/-- Settles O38, by what the step was: a line grows the sent trace at S2 only, a delivery the received one, every other step neither. -/
theorem wireTracesGrowByteByByte : Obligations.WireTracesGrowByteByByte := by
  unfold Obligations.WireTracesGrowByteByByte
  intro s t h hreset
  change TracesGrow s t
  obtain ⟨rest, hag, -⟩ | ⟨-, -, rfl⟩ | ⟨-, rest, -, hturn⟩ := step_next h
  · exact absurd hag (hreset rest)
  · exact .of_kept rfl rfl
  · obtain rfl | ⟨i, here, rets, -, hph, hl⟩ | ⟨i, -, rfl⟩ | ⟨v, -, rfl⟩ | ⟨b, hag, rfl⟩ | ⟨off, v, -, -, -, rfl⟩ := hturn
    · exact .of_kept rfl rfl
    · exact (lineStep_effect hl).tracesGrow hph
    · exact issueState_tracesGrow i s rest
    · exact .of_kept rfl rfl
    · exact deliver_tracesGrow hag
    · exact hostStore_tracesGrow off v s rest

end Sys2Proof.Machine
end

section
/-! The operation word and its decoding (30_encoding.md R85 to R90), and the checksum of a frame (R95). -/

namespace Sys2Proof.Machine

/-! ### Decoding -/

/-- Settles O1: the encoding is a concatenation of four fields, and the decoder on it is the decoder on the fields. -/
theorem encodeThenDecodeGivesInstr : Obligations.EncodeThenDecodeGivesInstr := by
  unfold Obligations.EncodeThenDecodeGivesInstr
  intro i _
  cases i <;> exact Laws.decodeWord_opWord _ _ _ _

/-- The code as the bits 31:24 of the word (30_encoding.md R85). -/
theorem toNat_opcField (w : OpWord) : (opcField w).toNat = (w >>> 24).toNat := by
  have := w.isLt
  simp only [opcField, BitVec.extractLsb'_toNat, BitVec.toNat_ushiftRight, Nat.shiftRight_eq_div_pow]
  omega

/-- Exactly the codes 1 to 8 decode (30_encoding.md R86, R90). -/
theorem decodeWord_ok_iff (w : OpWord) : (∃ i, decodeWord w = .ok i) ↔ 1 ≤ (w >>> 24).toNat ∧ (w >>> 24).toNat ≤ 8 := by
  rw [← toNat_opcField]
  exact Laws.decodeFields_ok_iff _ _ _ _

/-- Settles O2: the eight codes by the decoder on fields, the rest by which codes decode. -/
theorem operationCodesDecode : Obligations.OperationCodesDecode := by
  unfold Obligations.OperationCodesDecode
  refine ⟨fun a b c => ?codes, decodeWord_ok_iff, fun w w' h => ?same⟩
  case codes =>
    simp only [Laws.decodeWord_opWord]
    exact ⟨rfl, rfl, rfl, rfl, rfl, rfl, rfl, rfl⟩
  case same => rw [decodeWord_ok_iff, decodeWord_ok_iff, h]

/-- Settles O3, by evaluating the decoder on the eight words. -/
theorem writtenWordsDecode : Obligations.WrittenWordsDecode := by
  unfold Obligations.WrittenWordsDecode
  exact ⟨rfl, rfl, rfl, rfl, rfl, rfl, rfl, rfl⟩

/-- A reserved code is rejected by name (30_encoding.md R90). -/
theorem decodeFields_reserved {opc : Byte} (h : opc.toNat = 0 ∨ 9 ≤ opc.toNat) (a b c : Byte) :
    decodeFields opc a b c = .error (.reservedCode opc) := by
  unfold decodeFields
  split
  case h_9 => rfl
  all_goals omega

/-! ### Issue -/

/-- An idle write of `OPC` with a reserved code is the refused issue (30_encoding.md R88, R90). -/
theorem hostWrite_reserved {s : State} {v : Byte} (hb : s.busy = false) (h : v.toNat = 0 ∨ 9 ≤ v.toNat) :
    hostWrite 0x00 v s = .next (refuseIssue v s) := by
  rw [hostWrite_opc hb]
  simp only [issue, offeredInstr, decodeFields_reserved h]

/-- PSEND's issue with a payload that leaves no room for length and checksum is refused (42_packet_protocol.md R157). -/
theorem issuePsend_overlength {s : State} (h : s.cfg.txCap - 2 < s.txlen.toNat) (command : Byte) :
    issuePsend command s = refuseIssue 0x06 s :=
  if_pos h

/-- PSEND's issue with a payload that fits is accepted (42_packet_protocol.md R157). -/
theorem issuePsend_fits {s : State} (h : s.txlen.toNat ≤ s.cfg.txCap - 2) (command : Byte) :
    issuePsend command s = accept 0x06 command s.argB s.argC .p1 s :=
  if_neg (Nat.not_lt.mpr h)

/-- The issue of the operation a write of `v` offers, unless it is an overlong PSEND: `v` and the `ARG` registers are latched
(30_encoding.md R88). -/
theorem issueState_offered {s : State} {v : Byte} {i : Instr} (hi : offeredInstr v s = .ok i)
    (hfit : ¬(v = 0x06 ∧ s.cfg.txCap - 2 < s.txlen.toNat)) :
    issueState i s = accept v s.argA s.argB s.argC (firstLabel i) s := by
  obtain rfl := opcode_of_decodeFields hi
  cases i with
  | psend command =>
    cases hi
    exact issuePsend_fits (Nat.not_lt.mp fun h => hfit ⟨rfl, h⟩) _
  | _ => cases hi; rfl

/-- Settles O6: a reserved code and an overlong PSEND by the refused issue, another code by the accepted one, busy by the ignored
write. -/
theorem issueRule : Obligations.IssueRule := by
  unfold Obligations.IssueRule
  intro s v
  refine ⟨fun hb hrefused => ?refused, fun i hb hi hfit => ?accepted, fun hb => hostWrite_busy hb _ _⟩
  case refused =>
    obtain h0 | h9 | ⟨rfl, hlong⟩ := hrefused
    · exact hostWrite_reserved hb (.inl h0)
    · exact hostWrite_reserved hb (.inr h9)
    · rw [hostWrite_issue (i := .psend s.argA) hb rfl]
      exact congrArg _ (issuePsend_overlength hlong _)
  case accepted =>
    rw [Laws.decodeWord_opWord] at hi
    rw [hostWrite_issue hb hi, issueState_offered hi hfit]
    rfl

/-- Settles O4: the step is the write's turn, which issues the operation decoded. -/
theorem stepIssuesDecodedOperation : Obligations.StepIssuesDecodedOperation := by
  unfold Obligations.StepIssuesDecodedOperation
  intro s v rest i hq hb hag hi
  rw [Laws.decodeWord_opWord] at hi
  rw [step_issue hq hb hag hi, exec_idle i { s with agenda := rest } hb]

/-- Settles O8: the decoder by its reserved codes, the step as the turn of a refused write. -/
theorem reservedCodeRefused : Obligations.ReservedCodeRefused := by
  unfold Obligations.ReservedCodeRefused
  intro s opc a b c rest h
  refine ⟨decodeFields_reserved h a b c, fun hq hb hag => ?_⟩
  rw [step_turn hq hag]
  exact hostWrite_reserved (s := { s with agenda := rest }) hb h

/-- Settles O9: while idle an operation is issued, and PSEND's issue is accepted when its payload fits. -/
theorem issueAnswersNext : Obligations.IssueAnswersNext := by
  unfold Obligations.IssueAnswersNext
  intro s x y z hb
  have issued (i : Instr) : exec i s = .next (issueState i s) := exec_idle i s hb
  refine ⟨issued _, issued _, issued _, issued _, issued _, fun hfit => ?_, issued _, issued _⟩
  rw [issued]
  exact congrArg _ (issuePsend_fits hfit x)

/-! ### The checksum -/

/-- The two's complement is the negation (00_scope.md R15). -/
theorem neg8_eq_neg (a : Byte) : neg8 a = -a := (BitVec.neg_eq_not_add a).symm

/-- The running sum takes bytes at the end as well. -/
theorem byteSum_concat (bs : List Byte) (x : Byte) : byteSum (bs ++ [x]) = byteSum bs + x := by
  induction bs with
  | nil => simp [byteSum]
  | cons b bs ih => rw [List.cons_append, byteSum, byteSum, ih, BitVec.add_assoc]

/-- A frame sums to 0 exactly when its last byte is the negated sum of the others (30_encoding.md R95). -/
theorem byteSum_concat_eq_zero_iff (bs : List Byte) (x : Byte) : byteSum (bs ++ [x]) = 0 ↔ x = neg8 (byteSum bs) := by
  rw [byteSum_concat, neg8_eq_neg]
  exact add_eq_zero_iff_neg_eq.trans eq_comm

/-- Settles O46: both clauses are the two directions of `byteSum_concat_eq_zero_iff`. -/
theorem checksumClosesFrame : Obligations.ChecksumClosesFrame := by
  unfold Obligations.ChecksumClosesFrame
  exact fun len payload =>
    ⟨(byteSum_concat_eq_zero_iff (len :: payload) _).mpr rfl, fun x => (byteSum_concat_eq_zero_iff (len :: payload) x).mp⟩

end Sys2Proof.Machine
end

section
/-! Parts of a run in one form: from `s` the machine comes to a `t` that is `s` with the fields named, and with those left open given as
`t`'s own. Such parts are chained by `Reaches.through`, and the form of `t` is put in its place before the run goes on. -/

namespace Sys2Proof.Machine

/-- A run continued from wherever its first part ends. -/
theorem Reaches.through {s : State} {P Q : State → Prop} (h : ∃ t, Reaches s t ∧ Q t)
    (h' : ∀ t, Q t → ∃ u, Reaches t u ∧ P u) : ∃ u, Reaches s u ∧ P u := by
  obtain ⟨t, hrun, ht⟩ := h
  exact hrun.via (h' t ht)

/-- The write of `OPC` that issues an operation, as the first step of a run (30_encoding.md R88). -/
theorem reaches_issue {i : Instr} {s : State} {v : Byte} {rest : List Turn} (hq : irqEnabled s = false) (hb : s.busy = false)
    (hag : s.agenda = .write 0x00 v :: rest) (hi : offeredInstr v s = .ok i)
    (hfit : ¬(v = 0x06 ∧ s.cfg.txCap - 2 < s.txlen.toNat)) :
    Reaches s { accept v s.argA s.argB s.argC (firstLabel i) s with agenda := rest } :=
  Reaches.head ((step_issue hq hb hag hi).trans (congrArg _ (issueState_offered (s := { s with agenda := rest }) hi hfit)))
    (Reaches.refl _)

/-- sendByte from S1 to its return: one byte sent (40_byte_transport.md R116). -/
theorem reaches_sent {i : Instr} {s : State} {b : Byte} {back : Label} {rets : List Label} {rest : List Turn}
    (hc : callsSendByte i = true) (hp : InProgress i s) (hq : irqEnabled s = false) (hph : s.ph = .run (.s1 b) (back :: rets))
    (hag : s.agenda = seqTurns 4 ++ rest) :
    ∃ t, Reaches s t ∧ t = { s with
      agenda := rest, ph := .run back rets, mode := .rxExt, ifl := false, txlog := s.txlog ++ [b]
      sdr := t.sdr, draws := t.draws, iem := t.iem, rxf := t.rxf, rxb := t.rxb } := by
  obtain ⟨m, f, x, -, h⟩ := reaches_sendByte hc hp hq hph hag
  exact ⟨_, h, rfl⟩

/-- A well-timed timed wait from W1 to its return: the byte in `RXB` (41_timeout_receive.md R137). -/
theorem reaches_received {i : Instr} {s : State} {u b : Byte} {back : Label} {rets : List Label} {rest : List Turn}
    (hc : callsReadWithTimeout i = true) (hp : InProgress i s) (hq : s.ifl = false) (hu : u ≠ 0)
    (hph : s.ph = .run (.w1 u) (back :: rets)) (hag : s.agenda = waitTurns 1 b ++ rest) :
    ∃ t, Reaches s t ∧ t = { s with
      agenda := rest, ph := .run back rets, mode := .rxExt, ifl := false, gie := true, rxb := b, wok := true
      rxlog := s.rxlog ++ [b], rxf := t.rxf, sdr := t.sdr, iem := t.iem, tu := t.tu, ts := t.ts } :=
  ⟨_, ⟨10, stepN_readWithTimeout hc hp hq hu hph hag⟩, rfl⟩

/-- A well-timed blocking read from B1 to its return: the byte in `RXB` (41_timeout_receive.md R135). -/
theorem reaches_read {i : Instr} {s : State} {b : Byte} {back : Label} {rets : List Label} {rest : List Turn}
    (hc : callsReadBlocking i = true) (hp : InProgress i s) (hq : s.ifl = false) (hph : s.ph = .run .b1 (back :: rets))
    (hag : s.agenda = waitTurns 0 b ++ rest) :
    ∃ t, Reaches s t ∧ t = { s with
      agenda := rest, ph := .run back rets, mode := .rxExt, ifl := false, gie := true, rxb := b
      rxlog := s.rxlog ++ [b], rxf := t.rxf, sdr := t.sdr, iem := t.iem } :=
  ⟨_, ⟨9, stepN_readBlocking hc hp hq hph hag⟩, rfl⟩

/-- A well-timed sendAndCheckAck from A1 to its return: `WOK` tells whether the reply is the expected byte
(41_timeout_receive.md R139). -/
theorem reaches_answered {i : Instr} {s : State} {b u e r : Byte} {back : Label} {rets : List Label} {rest : List Turn}
    (hc : callsSendAndCheckAck i = true) (hp : InProgress i s) (hq : irqEnabled s = false) (hu : u ≠ 0)
    (hph : s.ph = .run (.a1 b u e) (back :: rets)) (hag : s.agenda = ackTurns r ++ rest) :
    ∃ t, Reaches s t ∧ t = { s with
      agenda := rest, ph := .run back rets, mode := .rxExt, ifl := false, gie := true, rxb := r, wok := r == e
      txlog := s.txlog ++ [b], rxlog := s.rxlog ++ [r]
      rxf := t.rxf, sdr := t.sdr, iem := t.iem, tu := t.tu, ts := t.ts, draws := t.draws, expAck := t.expAck } := by
  obtain ⟨m, d, h⟩ := reaches_sendAndCheckAck hc hp hq hu hph hag
  exact ⟨_, h, rfl⟩

/-- A protocol operation from its issue to its third line: the mask saved and restricted, and the interrupt this may enable taken
(42_packet_protocol.md R155). -/
theorem reaches_restricted {i : Instr} {s : State} {v : Byte} {l2 l3 : Label} {rest : List Turn} (hq : irqEnabled s = false)
    (hb : s.busy = false) (hag : s.agenda = .write 0x00 v :: .seq :: .seq :: rest) (hi : offeredInstr v s = .ok i)
    (hfit : ¬(v = 0x06 ∧ s.cfg.txCap - 2 < s.txlen.toNat)) (hr : ∀ l, rest ≠ .reset :: l)
    (hsave : ∀ u, lineStep i (firstLabel i) u = .next ((saveMask u).goTo l2))
    (hrestrict : ∀ u, lineStep i l2 u = .next ((restrictMask u).goTo l3)) :
    ∃ t, Reaches s t ∧ irqEnabled t = false ∧ t = { accept v s.argA s.argB s.argC l3 s with
      agenda := rest, saved := s.iem, iem := t.iem, ifl := t.ifl, rxf := t.rxf, rxb := t.rxb } := by
  obtain ⟨m, f, x, h, hquiet⟩ := reaches_opened
    (s := { accept v s.argA s.argB s.argC (firstLabel i) s with agenda := .seq :: .seq :: rest })
    ⟨rfl, hi⟩ hq rfl hsave hrestrict rfl hr
  exact ⟨_, (reaches_issue hq hb hag hi hfit).trans h, hquiet, rfl⟩

end Sys2Proof.Machine
end

section
/-! The one round trip of SNDACK (30_encoding.md R97), with a reply in time and with none. -/

namespace Sys2Proof.Machine

/-- The parameter check includes R9: a unit is at least one poll. -/
theorem one_le_subPerUnit {c : Config} (h : c.wf = true) : 1 ≤ c.subPerUnit := by
  simp only [Config.wf, Bool.and_eq_true, decide_eq_true_eq] at h
  obtain ⟨⟨⟨hsub, -⟩, -⟩, -⟩ := h
  exact hsub

/-- A timed wait from W1 to its return in which nothing arrives: `WOK = 0` (41_timeout_receive.md R137). -/
theorem reaches_timedOut {i : Instr} {s : State} {u : Byte} {back : Label} {rets : List Label} {rest : List Turn}
    (hc : callsReadWithTimeout i = true) (hp : InProgress i s) (hq : s.ifl = false) (hsub : 1 ≤ s.cfg.subPerUnit)
    (hph : s.ph = .run (.w1 u) (back :: rets))
    (hag : s.agenda = seqTurns 7 ++ (seqTurns (u.toNat * s.cfg.subPerUnit + 1) ++ rest)) :
    ∃ t, Reaches s t ∧ t = { s with
      agenda := rest, ph := .run back rets, mode := .rxExt, ifl := false, gie := true, wok := false
      rxf := t.rxf, iem := t.iem, tu := t.tu, ts := t.ts } := by
  refine Reaches.via ⟨7, stepN_waitOpened hc hp hq hph hag⟩ ?_
  have hpolls := stepN_pollsRunOut (i := i) (back := back) (rets := rets) (rest := rest) hc (u.toNat * s.cfg.subPerUnit)
    { s with
      agenda := seqTurns (u.toNat * s.cfg.subPerUnit + 1) ++ rest, ph := .run .w4 (back :: rets), mode := .rxExt, ifl := false
      gie := true, rxf := false, iem := setLinkBit s.cfg s.iem, tu := u, ts := s.cfg.subPerUnit }
    hp rfl rfl rfl hsub le_rfl (fun _ => rfl) (fun _ => hsub) rfl rfl
  exact ⟨_, ⟨_, hpolls⟩, rfl⟩

/-- A sendAndCheckAck from A1 to its return with no reply: one byte sent, none received, `WOK = 0` (41_timeout_receive.md R139). -/
theorem reaches_unanswered {i : Instr} {s : State} {b u e : Byte} {back : Label} {rets : List Label} {rest : List Turn}
    (hc : callsSendAndCheckAck i = true) (hp : InProgress i s) (hq : irqEnabled s = false) (hsub : 1 ≤ s.cfg.subPerUnit)
    (hph : s.ph = .run (.a1 b u e) (back :: rets))
    (hag : s.agenda =
      .seq :: (seqTurns 4 ++ .seq :: (seqTurns 7 ++ (seqTurns (u.toNat * s.cfg.subPerUnit + 1) ++ .seq :: rest)))) :
    ∃ t, Reaches s t ∧ t = { s with
      agenda := rest, ph := .run back rets, mode := .rxExt, ifl := false, gie := true, wok := false, txlog := s.txlog ++ [b]
      rxf := t.rxf, rxb := t.rxb, sdr := t.sdr, iem := t.iem, tu := t.tu, ts := t.ts, draws := t.draws, expAck := t.expAck } := by
  obtain ⟨hs, hw⟩ := calls_of_ack hc
  refine Reaches.lineVia hp hq hph hag (line_a1 hc _ _ _ _) ?_
  simp only [State.call, hph, rets_run]
  refine Reaches.through (reaches_sent hs hp hq rfl rfl) fun t ht => ?_
  rw [ht]
  refine Reaches.lineVia (i := i) hp (irqEnabled_of_ifl rfl) rfl rfl (line_a2 hc _ _) ?_
  refine Reaches.through (reaches_timedOut hw hp rfl hsub rfl rfl) fun t' ht' => ?_
  rw [ht']
  refine Reaches.lineVia (i := i) hp (irqEnabled_of_ifl rfl) rfl rfl ((line_a3 hc _).trans (ret_eq (here := .a3) rfl)) ?_
  exact ⟨_, Reaches.refl _, rfl⟩

/-- The turns of a SNDACK with no reply, cut at its lines and at its waits. -/
theorem seqTurns_unanswered (polls : Nat) (rest : List Turn) : seqTurns (17 + polls) ++ rest =
    .seq :: .seq :: (seqTurns 4 ++ .seq :: (seqTurns 7 ++ (seqTurns (polls + 1) ++ .seq :: .seq :: rest))) := by
  rw [show 17 + polls = 2 + (4 + (1 + (7 + (polls + 1 + 2)))) by omega]
  simp only [seqTurns_add, List.append_assoc]
  rfl

/-- Settles O53: issue and Q1, the send with its reply or its timeout, Q2. -/
theorem sndackRoundTrip : Obligations.SndackRoundTrip := by
  unfold Obligations.SndackRoundTrip
  refine ⟨fun s r rest hq _ hb hunits hag => ?reply, fun s rest hq hcfg hb hag => ?none⟩
  case reply =>
    have hag : s.agenda = .write 0x00 0x05 :: .seq :: (ackTurns r ++ .seq :: rest) := by simp [hag]
    refine (reaches_issue hq hb hag rfl nofun).via ?_
    refine Reaches.lineVia (i := .sndack s.argA s.argB s.argC) ⟨rfl, rfl⟩ hq rfl rfl rfl ?_
    refine Reaches.through (reaches_answered (i := .sndack s.argA s.argB s.argC) rfl ⟨rfl, rfl⟩ hq hunits rfl rfl)
      fun t ht => ?_
    rw [ht]
    refine Reaches.lineVia (i := .sndack s.argA s.argB s.argC) ⟨rfl, rfl⟩ (irqEnabled_of_ifl rfl) rfl rfl rfl ?_
    exact ⟨_, Reaches.refl _, rfl, rfl, rfl, rfl, rfl, rfl, rfl, rfl, rfl⟩
  case none =>
    rw [seqTurns_unanswered] at hag
    refine (reaches_issue hq hb hag rfl nofun).via ?_
    refine Reaches.lineVia (i := .sndack s.argA s.argB s.argC) ⟨rfl, rfl⟩ hq rfl rfl rfl ?_
    refine Reaches.through (reaches_unanswered (i := .sndack s.argA s.argB s.argC) rfl ⟨rfl, rfl⟩ hq
      (one_le_subPerUnit hcfg) rfl rfl) fun t ht => ?_
    rw [ht]
    refine Reaches.lineVia (i := .sndack s.argA s.argB s.argC) ⟨rfl, rfl⟩ (irqEnabled_of_ifl rfl) rfl rfl rfl ?_
    exact ⟨_, Reaches.refl _, rfl, rfl, rfl, rfl, rfl, rfl, rfl, rfl⟩

end Sys2Proof.Machine
end

section
/-! The dialogue of PSEND (30_encoding.md R98, 42_packet_protocol.md R156): header, payload and closing, then the whole run. -/

namespace Sys2Proof.Machine

/-- PSEND's header from P3 to the payload loop: the command and the length byte sent, each acknowledged. -/
theorem reaches_psendHeader {c : Byte} {s : State} {rest : List Turn} (hp : InProgress (.psend c) s) (hq : irqEnabled s = false)
    (hph : s.ph = .run .p3 [])
    (hag : s.agenda = .seq :: (ackTurns s.cfg.codes.ok ++ .seq :: (ackTurns s.cfg.codes.ok ++ .seq :: rest))) :
    ∃ t, Reaches s t ∧ t = { s with
      agenda := rest, ph := .run .p6 [], mode := .rxExt, ifl := false, gie := true, idx := 0, resv := false
      acc := frameLength s.txlen, txlog := s.txlog ++ [s.la, frameLength s.txlen]
      rxlog := s.rxlog ++ [s.cfg.codes.ok, s.cfg.codes.ok]
      rxf := t.rxf, rxb := t.rxb, sdr := t.sdr, iem := t.iem, tu := t.tu, ts := t.ts, draws := t.draws, expAck := t.expAck
      wok := t.wok, plen := t.plen } := by
  refine Reaches.lineVia hp hq hph hag rfl ?_
  simp only [State.call, hph, rets_run]
  refine Reaches.through (reaches_answered (i := .psend c) rfl hp hq (by decide) rfl rfl) fun t ht => ?_
  rw [ht]
  refine Reaches.lineVia (i := .psend c) hp (irqEnabled_of_ifl rfl) rfl rfl (if_pos (beq_self_eq_true _)) ?_
  refine Reaches.through (reaches_answered (i := .psend c) rfl hp (irqEnabled_of_ifl rfl) (by decide) rfl rfl)
    fun t' ht' => ?_
  rw [ht']
  refine Reaches.lineVia (i := .psend c) hp (irqEnabled_of_ifl rfl) rfl rfl (if_pos (beq_self_eq_true _)) ?_
  exact ⟨_, Reaches.refl _, by simp [State.call, State.goTo]⟩

/-- PSEND's closing from the end of the payload loop: the checksum sent and acknowledged, the mask restored, completion with
`RES = 1`. -/
theorem reaches_psendClosing {c : Byte} {s : State} {rest : List Turn} (hp : InProgress (.psend c) s) (hq : s.ifl = false)
    (hph : s.ph = .run .p6 []) (hidx : s.idx = s.txlen)
    (hag : s.agenda = .seq :: .seq :: (ackTurns s.cfg.codes.cksumOk ++ .seq :: .seq :: .seq :: rest)) :
    ∃ t, Reaches s t ∧ t = { s with
      agenda := rest, ph := .idle, busy := false, done := true, res := true, mode := .rxExt, gie := true, iem := s.saved
      txlog := s.txlog ++ [neg8 s.acc], rxlog := s.rxlog ++ [s.cfg.codes.cksumOk]
      ifl := t.ifl, rxf := t.rxf, rxb := t.rxb, sdr := t.sdr, tu := t.tu, ts := t.ts, draws := t.draws, expAck := t.expAck
      wok := t.wok, cks := t.cks, resv := t.resv } := by
  refine Reaches.lineVia hp (irqEnabled_of_ifl hq) hph hag (if_pos hidx) ?_
  refine Reaches.lineVia (i := .psend c) hp (irqEnabled_of_ifl hq) rfl rfl rfl ?_
  simp only [State.goTo, State.call, hph, rets_run]
  refine Reaches.through (reaches_answered (i := .psend c) rfl hp (irqEnabled_of_ifl hq) (by decide) rfl rfl) fun t ht => ?_
  rw [ht]
  refine Reaches.lineVia (i := .psend c) hp (irqEnabled_of_ifl rfl) rfl rfl rfl ?_
  refine Reaches.lineVia (i := .psend c) hp (irqEnabled_of_ifl rfl) rfl rfl rfl ?_
  refine Reaches.lineVia (i := .psend c) hp (irqEnabled_of_ifl rfl) rfl rfl rfl ?_
  exact ⟨_, Reaches.refl _, by simp [State.goTo, restoreMask, complete]⟩

/-- The turns of a whole PSEND, cut at P3, the payload loop and its end. -/
theorem psendTurns_append (codes : Codes) (n : Nat) (rest : List Turn) : psendTurns codes n ++ rest =
    .seq :: .seq :: .seq :: (ackTurns codes.ok ++ .seq :: (ackTurns codes.ok ++ .seq ::
      (payloadTurns (List.replicate n codes.ok) ++ .seq :: .seq :: (ackTurns codes.cksumOk ++ .seq :: .seq :: .seq :: rest)))) := by
  simp [psendTurns]

/-- Settles O55: the issue, P1 and P2, the header, the payload loop and the closing, one after the other. -/
theorem psendDialogue : Obligations.PsendDialogue := by
  unfold Obligations.PsendDialogue
  intro s rest hq _ hb hfit hag
  rw [psendTurns_append] at hag
  have hfits : ¬((0x06 : Byte) = 0x06 ∧ s.cfg.txCap - 2 < s.txlen.toNat) := fun h => Nat.not_lt.mpr hfit h.2
  refine Reaches.through (reaches_restricted (i := .psend s.argA) hq hb hag rfl hfits nofun (fun _ => rfl) fun _ => rfl)
    fun t ⟨hquiet, ht⟩ => ?_
  rw [ht] at hquiet ⊢
  refine Reaches.through (reaches_psendHeader (c := s.argA) ⟨rfl, rfl⟩ hquiet rfl rfl) fun t' ht' => ?_
  rw [ht']
  refine Reaches.through (reaches_payload (c := s.argA) s.txlen.toNat _ ⟨rfl, rfl⟩ rfl rfl hfit (Nat.zero_add _) rfl) fun u hu => ?_
  rw [hu]
  refine Reaches.through (reaches_psendClosing (c := s.argA) ⟨rfl, rfl⟩ rfl rfl rfl rfl) fun u' hu' => ?_
  refine ⟨u', Reaches.refl u', ?_⟩
  rw [hu']
  have hpayload : payloadFrom s.txbuf 0 s.txlen.toNat = payloadOf s := payloadFrom_zero s
  refine ⟨rfl, rfl, rfl, rfl, rfl, rfl, ?sent, ?received, rfl, rfl, rfl, rfl, rfl, rfl, rfl⟩
  case sent => simp [← hpayload, frameLength, byteSum]
  case received => simp [List.replicate_succ]

end Sys2Proof.Machine
end

section
/-! The dialogue of PRECV (30_encoding.md R99, 42_packet_protocol.md R159): opening with the length byte, frame and closing, then
the whole run. -/

namespace Sys2Proof.Machine

/-- V5 takes a length byte of 1 to 14 into the loop (42_packet_protocol.md R159). -/
theorem line_v5_accepts {c : Byte} {s : State} (hw : s.wok = true) (h1 : 1 ≤ s.rxb.toNat) (h14 : s.rxb.toNat ≤ 14) :
    lineStep (.precv c) .v5 s = .next ({ s with acc := s.rxb, cnt := s.rxb - 1 }.goTo .v6) := by
  have hmax : ¬Config.maxRxLen.toNat < s.rxb.toNat := Nat.not_lt.mpr h14
  have h0 : s.rxb ≠ 0 := fun h => by simp [h] at h1
  simp only [lineStep, precvStep, checkLength]
  rw [if_neg (by simp [hw]), if_neg hmax, if_neg h0]

/-- PRECV's opening from V3 to the loop: the command sent, an accepted length byte received. -/
theorem reaches_precvOpening {c len : Byte} {s : State} {rest : List Turn} (hp : InProgress (.precv c) s)
    (hq : irqEnabled s = false) (h1 : 1 ≤ len.toNat) (h14 : len.toNat ≤ 14) (hph : s.ph = .run .v3 [])
    (hag : s.agenda = .seq :: (seqTurns 4 ++ .seq :: (waitTurns 1 len ++ .seq :: rest))) :
    ∃ t, Reaches s t ∧ t = { s with
      agenda := rest, ph := .run .v6 [], mode := .rxExt, ifl := false, gie := true, rxlen := 0, resv := false
      acc := len, cnt := len - 1, txlog := s.txlog ++ [s.la], rxlog := s.rxlog ++ [len]
      rxf := t.rxf, rxb := t.rxb, sdr := t.sdr, iem := t.iem, tu := t.tu, ts := t.ts, draws := t.draws, wok := t.wok } := by
  refine Reaches.lineVia hp hq hph hag rfl ?_
  simp only [State.call, hph, rets_run]
  refine Reaches.through (reaches_sent (i := .precv c) rfl hp hq rfl rfl) fun t ht => ?_
  rw [ht]
  refine Reaches.lineVia (i := .precv c) hp (irqEnabled_of_ifl rfl) rfl rfl rfl ?_
  refine Reaches.through (reaches_received (i := .precv c) rfl hp rfl (by decide) rfl rfl) fun t' ht' => ?_
  rw [ht']
  refine Reaches.lineVia (i := .precv c) hp (irqEnabled_of_ifl rfl) rfl rfl (line_v5_accepts rfl h1 h14) ?_
  exact ⟨_, Reaches.refl _, by simp [State.goTo]⟩

/-- PRECV's closing from the end of the loop: the verdict on the sum sent, the mask restored, completion. -/
theorem reaches_precvClosing {c : Byte} {s : State} {rest : List Turn} (hp : InProgress (.precv c) s) (hq : s.ifl = false)
    (hph : s.ph = .run .v6 []) (hcnt : s.cnt = 0) (hresv : s.resv = false) (hag : s.agenda = seqTurns 9 ++ rest) :
    ∃ t, Reaches s t ∧ t = { s with
      agenda := rest, ph := .idle, busy := false, done := true, res := s.acc == 0, mode := .rxExt, iem := s.saved
      txlog := s.txlog ++ [if s.acc = 0 then s.cfg.codes.ok else s.cfg.codes.abort]
      ifl := t.ifl, rxf := t.rxf, rxb := t.rxb, sdr := t.sdr, draws := t.draws, resv := t.resv } := by
  have hag : s.agenda = .seq :: .seq :: .seq :: (seqTurns 4 ++ .seq :: .seq :: rest) := hag
  refine Reaches.lineVia hp (irqEnabled_of_ifl hq) hph hag (if_pos hcnt) ?_
  refine Reaches.lineVia (i := .precv c) hp (irqEnabled_of_ifl hq) rfl rfl rfl ?_
  refine Reaches.lineVia (i := .precv c) hp (irqEnabled_of_ifl hq) rfl rfl rfl ?_
  simp only [State.goTo, State.call, hph, hresv, Bool.false_or, rets_run]
  refine Reaches.through (reaches_sent (i := .precv c) rfl hp (irqEnabled_of_ifl hq) rfl rfl) fun t ht => ?_
  rw [ht]
  refine Reaches.lineVia (i := .precv c) hp (irqEnabled_of_ifl rfl) rfl rfl rfl ?_
  refine Reaches.lineVia (i := .precv c) hp (irqEnabled_of_ifl rfl) rfl rfl rfl ?_
  exact ⟨_, Reaches.refl _, by simp [State.goTo, restoreMask, complete]⟩

/-- The turns of a whole PRECV, cut at V3, the loop and its end. -/
theorem precvTurns_append (len : Byte) (bytes : List Byte) (rest : List Turn) : precvTurns len bytes ++ rest =
    .seq :: .seq :: .seq :: (seqTurns 4 ++ .seq :: (waitTurns 1 len ++ .seq :: (frameTurns bytes ++ (seqTurns 9 ++ rest)))) := by
  simp [precvTurns]

/-- Settles O57: the issue, V1 and V2, the opening, the loop and the closing, one after the other. -/
theorem precvDialogue : Obligations.PrecvDialogue := by
  unfold Obligations.PrecvDialogue
  intro s len bytes rest hq _ hb hwf h1 h14 hlen hag
  rw [precvTurns_append] at hag
  have hcnt : (len - 1).toNat = bytes.length := by bv_omega
  refine Reaches.through (reaches_restricted (i := .precv s.argA) hq hb hag rfl nofun nofun (fun _ => rfl) fun _ => rfl)
    fun t ⟨hquiet, ht⟩ => ?_
  rw [ht] at hquiet ⊢
  refine Reaches.through (reaches_precvOpening (c := s.argA) ⟨rfl, rfl⟩ hquiet h1 h14 rfl rfl) fun t' ht' => ?_
  rw [ht']
  refine Reaches.through (reaches_frame (c := s.argA) bytes _ ⟨rfl, rfl⟩ rfl rfl hcnt (by simp; omega) rfl)
    fun u ⟨hgie, hu⟩ => ?_
  have hgie : u.gie = true := hgie rfl
  rw [hu]
  refine Reaches.through (reaches_precvClosing (c := s.argA) ⟨rfl, rfl⟩ rfl rfl rfl rfl rfl) fun u' hu' => ?_
  refine ⟨u', Reaches.refl u', ?_⟩
  rw [hu']
  refine ⟨rfl, rfl, rfl, rfl, rfl, rfl, ?sent, ?received, ?length, fun k hk => ?stored, fun k hk => ?kept, rfl, hgie, rfl, rfl,
    rfl⟩
  case sent => exact List.append_assoc s.txlog [s.argA] _
  case received => exact List.append_assoc s.rxlog [len] bytes
  case length => simp; omega
  case stored => simpa using appendAll_read bytes s.rxbuf 0 hwf k hk
  case kept => exact appendAll_low bytes s.rxbuf 0 k (by omega)

end Sys2Proof.Machine
end

section
/-! The dialogue of BOOT (30_encoding.md R100, 43_boot_handshake.md R185 to R191): opening, countdown and closing, then the whole
run. -/

namespace Sys2Proof.Machine

/-- BOOT's opening from H3 to the countdown: the count-up sent, the reply received and compared, the request sent. -/
theorem reaches_bootOpening {reply : Byte} {s : State} {rest : List Turn} (hp : InProgress .boot s) (hq : irqEnabled s = false)
    (hph : s.ph = .run .h3 [])
    (hag : s.agenda = .seq :: (seqTurns (6 * (255 + 1)) ++ .seq ::
      (waitTurns 0 reply ++ .seq :: .seq :: (seqTurns 4 ++ .seq :: rest)))) :
    ∃ t, Reaches s t ∧ t = { s with
      agenda := rest, ph := .run .h10 [], mode := .rxExt, ifl := false, gie := true, cnt := 0, expv := 255, hs := .running
      failf := reply != s.cfg.codes.bootOk, txlog := s.txlog ++ countUpBytes ++ [s.cfg.codes.bootReq], rxlog := s.rxlog ++ [reply]
      rxf := t.rxf, rxb := t.rxb, sdr := t.sdr, iem := t.iem, draws := t.draws } := by
  refine Reaches.lineVia hp hq hph hag rfl ?_
  simp only [State.goTo, hph, rets_run]
  refine Reaches.through (reaches_countUp 255 _ hp hq rfl rfl rfl) fun t ht => ?_
  rw [ht]
  refine Reaches.lineVia (i := .boot) hp (irqEnabled_of_ifl rfl) rfl rfl rfl ?_
  refine Reaches.through (reaches_read (i := .boot) rfl hp rfl rfl rfl) fun t' ht' => ?_
  rw [ht']
  refine Reaches.lineVia (i := .boot) hp (irqEnabled_of_ifl rfl) rfl rfl rfl ?_
  refine Reaches.lineVia (i := .boot) hp (irqEnabled_of_ifl rfl) rfl rfl rfl ?_
  refine Reaches.through (reaches_sent (i := .boot) rfl hp (irqEnabled_of_ifl rfl) rfl rfl) fun u hu => ?_
  rw [hu]
  refine Reaches.lineVia (i := .boot) hp (irqEnabled_of_ifl rfl) rfl rfl rfl ?_
  exact ⟨_, Reaches.refl _, by simp [State.goTo, upFrom_all]⟩

/-- BOOT's closing from H13, where `FAILF` is 0 exactly when `success` holds: the verdict sent, the mask restored, completion
(43_boot_handshake.md R191). -/
theorem reaches_bootClosing {success : Prop} [Decidable success] {s : State} {rest : List Turn} (hp : InProgress .boot s)
    (hq : s.ifl = false) (hfailf : s.failf = !decide success) (hph : s.ph = .run .h13 [])
    (hag : s.agenda = .seq :: (seqTurns 4 ++ .seq :: .seq :: rest)) :
    ∃ t, Reaches s t ∧ t = { s with
      agenda := rest, ph := .idle, busy := false, done := true, res := decide success, mode := .rxExt, iem := s.saved
      hs := if success then .success else .failure
      txlog := s.txlog ++ [if success then s.cfg.codes.ok else s.cfg.codes.abort]
      ifl := t.ifl, rxf := t.rxf, rxb := t.rxb, sdr := t.sdr, draws := t.draws, resv := t.resv } := by
  refine Reaches.lineVia hp (irqEnabled_of_ifl hq) hph hag rfl ?_
  simp only [State.call, hph, rets_run]
  refine Reaches.through (reaches_sent (i := .boot) rfl hp (irqEnabled_of_ifl hq) rfl rfl) fun t ht => ?_
  rw [ht]
  refine Reaches.lineVia (i := .boot) hp (irqEnabled_of_ifl rfl) rfl rfl rfl ?_
  refine Reaches.lineVia (i := .boot) hp (irqEnabled_of_ifl rfl) rfl rfl rfl ?_
  exact ⟨_, Reaches.refl _, by simp [State.goTo, restoreMask, verdict, complete, hfailf]⟩

/-- The turns of a whole BOOT, cut at H3, the countdown and its end. -/
theorem bootTurns_append (reply : Byte) (bytes : List Byte) (rest : List Turn) :
    bootOpeningTurns reply ++ countdownTurns bytes ++ bootClosingTurns ++ rest =
      .seq :: .seq :: .seq :: (seqTurns (6 * (255 + 1)) ++ .seq :: (waitTurns 0 reply ++ .seq :: .seq :: (seqTurns 4 ++ .seq ::
        (countdownTurns bytes ++ .seq :: (seqTurns 4 ++ .seq :: .seq :: rest))))) := by
  simp only [bootOpeningTurns, bootClosingTurns, List.append_assoc]
  rfl

/-- The handshake failed exactly when the reply or a countdown byte was wrong (43_boot_handshake.md R187, R189). -/
theorem handshakeFailed_eq (reply bootOk : Byte) (bytes : List Byte) :
    (reply != bootOk || decide (bytes ≠ countdownBytes)) = !decide (reply = bootOk ∧ bytes = countdownBytes) := by
  by_cases hreply : reply = bootOk <;> simp [hreply]

/-- Settles O59: the issue, H1 and H2, the opening, the countdown and the closing, one after the other. -/
theorem bootDialogue : Obligations.BootDialogue := by
  unfold Obligations.BootDialogue
  intro s reply bytes rest hq _ hb hstop hlen hag
  rw [bootTurns_append] at hag
  have hcountdown : downFrom 255 bytes.length = countdownBytes := by rw [hlen, downFrom_all]
  refine Reaches.through (reaches_restricted (i := .boot) hq hb hag rfl nofun nofun (fun _ => rfl) fun _ => rfl)
    fun t ⟨hquiet, ht⟩ => ?_
  rw [ht] at hquiet ⊢
  refine Reaches.through (reaches_bootOpening ⟨rfl, rfl⟩ hquiet rfl rfl) fun t' ht' => ?_
  rw [ht']
  have hstop : s.cfg.hsStopOnMismatch = false ∨ bytes = downFrom 255 bytes.length := by rwa [hcountdown]
  refine Reaches.through (reaches_countdown bytes _ ⟨rfl, rfl⟩ rfl hstop rfl hlen rfl)
    fun u ⟨hgie, hu⟩ => ?_
  rw [hu]
  have hfailf : (reply != s.cfg.codes.bootOk || decide (bytes ≠ downFrom 255 bytes.length)) =
      !decide (reply = s.cfg.codes.bootOk ∧ bytes = countdownBytes) := by
    rw [hcountdown, handshakeFailed_eq]
  refine Reaches.through (reaches_bootClosing ⟨rfl, rfl⟩ rfl hfailf rfl rfl) fun u' hu' => ?_
  refine ⟨u', Reaches.refl u', ?_⟩
  rw [hu']
  refine ⟨rfl, rfl, rfl, rfl, rfl, rfl, rfl, ?sent, ?received, rfl, hgie, rfl, rfl, rfl, rfl, rfl⟩
  case sent => exact List.append_assoc _ [s.cfg.codes.bootReq] _
  case received => exact List.append_assoc s.rxlog [reply] bytes

end Sys2Proof.Machine
end

section
/-! The lines of sendByte and enableReceive, the own lines of the byte operations, and the peer's delivery (40_byte_transport.md R116 to
R121, 41_timeout_receive.md R136 to R141). -/

namespace Sys2Proof.Machine

/-- An operation in progress takes the line control is put at. -/
theorem exec_atLine {i : Instr} {s : State} (hp : InProgress i s) (here : Label) (rets : List Label) :
    exec i (atLine here rets s) = lineStep i here (atLine here rets s) :=
  exec_line (s := atLine here rets s) hp rfl

/-- Settles O10, by the four lines of sendByte and the return from the last. -/
theorem sendByteLines : Obligations.SendByteLines := by
  unfold Obligations.SendByteLines
  intro i s b back rets hc hp
  simp only [exec_atLine hp, line_s1 hc, line_s2 hc, line_s3 hc, line_s4 hc]
  exact ⟨rfl, rfl, rfl, rfl⟩

/-- Settles O11, by the four lines of enableReceive, the mask of the second read bit by bit. -/
theorem enableReceiveLines : Obligations.EnableReceiveLines := by
  unfold Obligations.EnableReceiveLines
  intro i s back rets hc hp
  simp only [exec_atLine hp, line_e1 hc, line_e2 hc, line_e3 hc, line_e4 hc]
  exact ⟨rfl, ⟨setLinkBit s.cfg s.iem, rfl, setLinkBit_getLsbD s.cfg s.iem⟩, rfl, rfl⟩

/-- The latched operands are those of the operation in progress (10_state.md R36). -/
theorem InProgress.operands {i : Instr} {s : State} (hp : InProgress i s) : decodeFields i.opcode s.la s.lb s.lc = .ok i := by
  obtain ⟨-, hi⟩ := hp
  rw [opcode_of_decodeFields hi]
  exact hi

theorem InProgress.sendb_latch {s : State} {x : Byte} (hp : InProgress (.sendb x) s) : s.la = x := by
  cases hp.operands
  rfl

theorem InProgress.rdto_latch {s : State} {x : Byte} (hp : InProgress (.rdto x) s) : s.la = x := by
  cases hp.operands
  rfl

theorem InProgress.sndack_latches {s : State} {x y z : Byte} (hp : InProgress (.sndack x y z) s) :
    s.la = x ∧ s.lb = y ∧ s.lc = z := by
  cases hp.operands
  exact ⟨rfl, rfl, rfl⟩

/-- Settles O15, by the two own lines of each operation, with the latches for the operands of the call. -/
theorem byteOperationLines : Obligations.ByteOperationLines := by
  unfold Obligations.ByteOperationLines
  refine fun s x y z => ⟨fun hp => ?sendb, fun hp => ?enrx, fun hp => ?rdblk, fun hp => ?rdto, fun hp => ?sndack⟩ <;>
    simp only [exec_atLine hp]
  case sendb =>
    obtain rfl := hp.sendb_latch
    exact ⟨rfl, rfl⟩
  case enrx => exact ⟨rfl, rfl⟩
  case rdblk => exact ⟨rfl, rfl⟩
  case rdto =>
    obtain rfl := hp.rdto_latch
    exact ⟨rfl, rfl⟩
  case sndack =>
    obtain ⟨rfl, rfl, rfl⟩ := hp.sndack_latches
    exact ⟨rfl, rfl⟩

/-- Settles O28: the turn is the peer's, which delivers while the link listens and has no step otherwise. -/
theorem deliveryEffect : Obligations.DeliveryEffect := by
  unfold Obligations.DeliveryEffect
  intro s b rest hq hag
  rw [step_turn hq hag]
  constructor <;> intro hmode <;> simp only [turn, deliver, hmode]

end Sys2Proof.Machine
end

section
/-! The frames of SENDB, ENRX, RDBLK and RDTO (40_byte_transport.md R116 to R119, 41_timeout_receive.md R135 to R138): what they may write
is said as the state `s` with those registers taken from `t`, and held of every line and of the issue. -/

namespace Sys2Proof.Machine

/-- A relation between states that an operation's issue and lines have, and that every state has to itself, is one of all its steps. -/
theorem exec_relates {P : State → State → Prop} {i : Instr} {s t : State} (hrefl : P s s) (hissue : P s (issueState i s))
    (hline : ∀ here, lineStep i here s = .next t → P s t) (h : exec i s = .next t) : P s t := by
  obtain ⟨-, rfl⟩ | ⟨-, here, rets, -, hl⟩ | ⟨-, -, rfl⟩ := exec_cases h
  · exact hissue
  · exact hline here hl
  · exact hrefl

/-! ### SENDB -/

/-- `s` with the registers SENDB may write taken from `t`. -/
def sendbWrites (s t : State) : State :=
  { s with opc := t.opc, opl := t.opl, la := t.la, lb := t.lb, lc := t.lc, busy := t.busy, done := t.done, res := t.res
           err := t.err, ph := t.ph, mode := t.mode, sdr := t.sdr, ifl := t.ifl, txlog := t.txlog, draws := t.draws }

theorem sendByteStep_writes {here : Label} {s t : State} (h : sendByteStep here s = .next t) : t = sendbWrites s t := by
  cases here <;> simp only [sendByteStep, Host.Outcome.next.injEq, reduceCtorEq] at h
  case s1 | s2 | s3 => subst h; rfl
  case s4 =>
    obtain ⟨_, _, _, -, rfl⟩ := ret_cases h
    rfl

theorem sendbStep_writes {here : Label} {s t : State} (h : sendbStep here s = .next t) : t = sendbWrites s t := by
  unfold sendbStep at h
  split at h
  case h_3 => exact sendByteStep_writes h
  all_goals cases h; rfl

/-- Settles O19: the issue and every line write at most these registers, and neither buffer is among them. -/
theorem sendbFrame : Obligations.SendbFrame := by
  unfold Obligations.SendbFrame
  intro b s t h
  have hw : t = sendbWrites s t := exec_relates (P := fun s t => t = sendbWrites s t) (i := .sendb b) rfl rfl (fun _ => sendbStep_writes) h
  refine ⟨hw, fun k => ?_⟩
  rw [hw]
  exact ⟨rfl, rfl⟩

/-! ### ENRX, RDBLK and RDTO -/

/-- `s` with the registers ENRX may write taken from `t`. -/
def enrxWrites (s t : State) : State :=
  { s with opc := t.opc, opl := t.opl, la := t.la, lb := t.lb, lc := t.lc, busy := t.busy, done := t.done, res := t.res
           err := t.err, ph := t.ph, mode := t.mode, iem := t.iem, ifl := t.ifl, gie := t.gie }

/-- RDBLK may also write the received-flag. -/
def rdblkWrites (s t : State) : State := { enrxWrites s t with rxf := t.rxf }

/-- RDTO may also write the counters and the outcome of its wait. -/
def rdtoWrites (s t : State) : State := { rdblkWrites s t with tu := t.tu, ts := t.ts, wok := t.wok }

/-- The mask is kept or armed. -/
def ArmedAtMost (s t : State) : Prop := t.iem = s.iem ∨ t.iem = setLinkBit s.cfg s.iem

/-- Arming the link writes no bit of the mask but the link's (92_eei_decisions.md D20). -/
theorem ArmedAtMost.other_bits {s t : State} (h : ArmedAtMost s t) {k : Nat} (hk : k ≠ s.cfg.linkBit.val) :
    t.iem.getLsbD k = s.iem.getLsbD k := by
  obtain h | h := h <;> rw [h]
  obtain hlt | hge := Nat.lt_or_ge k 8
  · simp [setLinkBit_getLsbD s.cfg s.iem k hlt, hk]
  · rw [BitVec.getLsbD_of_ge _ _ hge, BitVec.getLsbD_of_ge _ _ hge]

/-- What ENRX may do to the registers and to the mask (R118, R119). -/
def EnrxFrame (s t : State) : Prop := t = enrxWrites s t ∧ ArmedAtMost s t

/-- What RDBLK may do to the registers and to the mask (41_timeout_receive.md R135, R136). -/
def RdblkFrame (s t : State) : Prop := t = rdblkWrites s t ∧ ArmedAtMost s t

/-- What RDTO may do to the registers and to the mask (41_timeout_receive.md R137, R138). -/
def RdtoFrame (s t : State) : Prop := t = rdtoWrites s t ∧ ArmedAtMost s t

theorem EnrxFrame.toRdblk {s t : State} (h : EnrxFrame s t) : RdblkFrame s t := by
  obtain ⟨hw, harm⟩ := h
  exact ⟨by rw [hw]; rfl, harm⟩

theorem RdblkFrame.toRdto {s t : State} (h : RdblkFrame s t) : RdtoFrame s t := by
  obtain ⟨hw, harm⟩ := h
  exact ⟨by rw [hw]; rfl, harm⟩

/-- All three keep both buffers and every bit of the mask but the link's. -/
theorem RdtoFrame.mask_and_buffers {s t : State} (h : RdtoFrame s t) :
    (∀ k : Nat, k ≠ s.cfg.linkBit.val → t.iem.getLsbD k = s.iem.getLsbD k) ∧
    (∀ k : Nat, t.rxbuf.read k = s.rxbuf.read k ∧ t.txbuf.read k = s.txbuf.read k) := by
  obtain ⟨hw, harm⟩ := h
  refine ⟨fun _ => harm.other_bits, fun k => ?_⟩
  rw [hw]
  exact ⟨rfl, rfl⟩

theorem enableReceiveStep_frame {here : Label} {s t : State} (h : enableReceiveStep here s = .next t) : EnrxFrame s t := by
  cases here <;> simp only [enableReceiveStep, Host.Outcome.next.injEq, reduceCtorEq] at h
  case e1 | e3 => subst h; exact ⟨rfl, .inl rfl⟩
  case e2 => subst h; exact ⟨rfl, .inr rfl⟩
  case e4 =>
    obtain ⟨_, _, _, -, rfl⟩ := ret_cases h
    exact ⟨rfl, .inl rfl⟩

theorem enrxStep_frame {here : Label} {s t : State} (h : enrxStep here s = .next t) : EnrxFrame s t := by
  unfold enrxStep at h
  split at h
  case h_3 => exact enableReceiveStep_frame h
  all_goals cases h; exact ⟨rfl, .inl rfl⟩

theorem readBlockingStep_frame {here : Label} {s t : State} (h : readBlockingStep here s = .next t) : RdblkFrame s t := by
  unfold readBlockingStep at h
  split at h
  case h_3 =>
    split at h
    · obtain ⟨_, _, _, -, rfl⟩ := ret_cases h
      exact ⟨rfl, .inl rfl⟩
    · cases h; exact ⟨rfl, .inl rfl⟩
  case h_4 => exact (enableReceiveStep_frame h).toRdblk
  all_goals cases h; exact ⟨rfl, .inl rfl⟩

theorem rdblkStep_frame {here : Label} {s t : State} (h : rdblkStep here s = .next t) : RdblkFrame s t := by
  unfold rdblkStep at h
  split at h
  case h_3 => exact readBlockingStep_frame h
  all_goals cases h; exact ⟨rfl, .inl rfl⟩

/-- The poll returns, with `WOK` written, or spends a sub-iteration. -/
theorem pollStep_frame {s t : State} (h : pollStep s = .next t) : RdtoFrame s t := by
  unfold pollStep at h
  split at h
  · obtain ⟨_, _, _, -, rfl⟩ := ret_cases h
    exact ⟨rfl, .inl rfl⟩
  · split at h
    · obtain ⟨_, _, _, -, rfl⟩ := ret_cases h
      exact ⟨rfl, .inl rfl⟩
    · split at h <;> cases h <;> exact ⟨rfl, .inl rfl⟩

theorem readWithTimeoutStep_frame {here : Label} {s t : State} (h : readWithTimeoutStep here s = .next t) : RdtoFrame s t := by
  unfold readWithTimeoutStep at h
  split at h
  case h_4 => exact pollStep_frame h
  case h_5 => exact (enableReceiveStep_frame h).toRdblk.toRdto
  all_goals cases h; exact ⟨rfl, .inl rfl⟩

theorem rdtoStep_frame {here : Label} {s t : State} (h : rdtoStep here s = .next t) : RdtoFrame s t := by
  unfold rdtoStep at h
  split at h
  case h_3 => exact readWithTimeoutStep_frame h
  all_goals cases h; exact ⟨rfl, .inl rfl⟩

theorem exec_enrx_frame {s t : State} (h : exec .enrx s = .next t) : EnrxFrame s t :=
  exec_relates (P := EnrxFrame) (i := .enrx) ⟨rfl, .inl rfl⟩ ⟨rfl, .inl rfl⟩ (fun _ => enrxStep_frame) h

theorem exec_rdblk_frame {s t : State} (h : exec .rdblk s = .next t) : RdblkFrame s t :=
  exec_relates (P := RdblkFrame) (i := .rdblk) ⟨rfl, .inl rfl⟩ ⟨rfl, .inl rfl⟩ (fun _ => rdblkStep_frame) h

theorem exec_rdto_frame {units : Byte} {s t : State} (h : exec (.rdto units) s = .next t) : RdtoFrame s t :=
  exec_relates (P := RdtoFrame) (i := .rdto units) ⟨rfl, .inl rfl⟩ ⟨rfl, .inl rfl⟩ (fun _ => rdtoStep_frame) h

/-- Settles O20, by the frames of the three operations, each within the next one's. -/
theorem receiveFrame : Obligations.ReceiveFrame := by
  unfold Obligations.ReceiveFrame
  refine fun units s t => ⟨?_, fun h => (exec_enrx_frame h).1, fun h => (exec_rdblk_frame h).1, fun h => (exec_rdto_frame h).1⟩
  rintro (h | h | h)
  · exact (exec_enrx_frame h).toRdblk.toRdto.mask_and_buffers
  · exact (exec_rdblk_frame h).toRdto.mask_and_buffers
  · exact (exec_rdto_frame h).mask_and_buffers

end Sys2Proof.Machine
end

section
/-! SENDB and ENRX from issue to completion (40_byte_transport.md R116 to R119), with and without an interrupt on the way
(70_reset_and_hazards.md R241, R242). -/

namespace Sys2Proof.Machine

/-- An operation whose first line calls a procedure, from its issue to that procedure's first line: two steps. -/
theorem stepN_called {i : Instr} {s : State} {v : Byte} {entry back : Label} {rest : List Turn} (hq : irqEnabled s = false)
    (hb : s.busy = false) (hag : s.agenda = .write 0x00 v :: .seq :: rest) (hi : offeredInstr v s = .ok i) (hv : v ≠ 0x06)
    (hcall : ∀ u, u.la = s.argA → lineStep i (firstLabel i) u = .next (u.call entry back)) :
    stepN 2 s = .next { accept v s.argA s.argB s.argC (firstLabel i) s with agenda := rest, ph := .run entry [back] } := by
  have hissue := step_issue hq hb hag hi
  rw [issueState_offered (s := { s with agenda := .seq :: rest }) hi fun h => hv h.1] at hissue
  refine (stepN_succ hissue).trans ?_
  exact stepN_line (n := 0) (inProgress_accept hi) hq rfl rfl (hcall _ rfl) rfl

/-- The last line of an operation after `n` steps: until it is taken the block is busy. -/
theorem stepN_completes {i : Instr} {n : Nat} {s u t : State} {here : Label} {rets : List Label} {rest : List Turn}
    (h : stepN n s = .next u) (hp : InProgress i u) (hq : irqEnabled u = false) (hph : u.ph = .run here rets)
    (hag : u.agenda = .seq :: rest) (hl : lineStep i here { u with agenda := rest } = .next t) :
    (∃ u, stepN n s = .next u ∧ u.busy = true) ∧ stepN (n + 1) s = .next t :=
  ⟨⟨u, h, hp.1⟩, stepN_trans h (stepN_line (n := 0) hp hq hph hag hl rfl)⟩

/-- Settles O47: the issue and T1, sendByte in either case, T2. -/
theorem sendbRun : Obligations.SendbRun := by
  unfold Obligations.SendbRun
  intro s rest hq hb hag
  have hag : s.agenda = .write 0x00 0x01 :: .seq :: (seqTurns 4 ++ .seq :: rest) := hag
  have hcalled := stepN_called (i := .sendb s.argA) (entry := .s1 s.argA) (back := .t2) hq hb hag rfl (by decide)
    fun u hu => by rw [← hu]; rfl
  refine ⟨fun hx => ?quiet, fun ⟨harmed, hgie, hpending⟩ => ?spurious⟩
  case quiet =>
    have hsent := stepN_trans hcalled (stepN_sendByte_quiet (i := .sendb s.argA) rfl ⟨rfl, rfl⟩ hq hx rfl rfl)
    exact stepN_completes (i := .sendb s.argA) hsent ⟨rfl, rfl⟩ (irqEnabled_of_ifl rfl) rfl rfl rfl
  case spurious =>
    have hsent := stepN_trans hcalled
      (stepN_sendByte_spurious (i := .sendb s.argA) rfl ⟨rfl, rfl⟩ hq harmed hgie hpending rfl rfl)
    exact stepN_completes (i := .sendb s.argA) hsent ⟨rfl, rfl⟩ (irqEnabled_of_ifl rfl) rfl rfl rfl

/-- With no byte pending, or with interrupts off, no interrupt is enabled whatever the mask. -/
theorem irqEnabled_of_ifl_or_gie {s : State} (h : s.ifl = false ∨ s.gie = false) : irqEnabled s = false := by
  obtain h | h := h <;> simp [irqEnabled, h]

section enableReceive

variable {i : Instr} {s : State} {back : Label} {rets : List Label} {rest : List Turn}

/-- enableReceive from E1 to its return where no interrupt can come of arming: four steps, a pending byte lost at E3
(40_byte_transport.md R118 (b)). -/
theorem stepN_enableReceive_quiet (hc : callsEnableReceive i = true) (hp : InProgress i s) (hx : s.ifl = false ∨ s.gie = false)
    (hph : s.ph = .run .e1 (back :: rets)) (hag : s.agenda = seqTurns 4 ++ rest) :
    stepN 4 s = .next { s with agenda := rest, ph := .run back rets, mode := .rxExt, ifl := false, gie := true
                               iem := setLinkBit s.cfg s.iem } := by
  refine stepN_line hp (irqEnabled_of_ifl_or_gie hx) hph hag (line_e1 hc _) ?_
  refine stepN_line (inProgress_congr hp rfl rfl rfl rfl rfl) (irqEnabled_of_ifl_or_gie hx) rfl rfl (line_e2 hc _) ?_
  refine stepN_line (inProgress_congr hp rfl rfl rfl rfl rfl) (irqEnabled_of_ifl_or_gie hx) rfl rfl (line_e3 hc _) ?_
  refine stepN_line (inProgress_congr hp rfl rfl rfl rfl rfl) (irqEnabled_of_ifl rfl) rfl rfl
    ((line_e4 hc _).trans (ret_eq (here := .e4) (back := back) (rets := rets) (by simp [hph]))) ?_
  rfl

/-- enableReceive from E1 to its return with a byte pending and interrupts on: five steps, the interrupt right after E2 latching the
byte and disarming the link (40_byte_transport.md R118 (a)). -/
theorem stepN_enableReceive_early (hc : callsEnableReceive i = true) (hp : InProgress i s) (hq : irqEnabled s = false)
    (hifl : s.ifl = true) (hgie : s.gie = true) (hph : s.ph = .run .e1 (back :: rets)) (hag : s.agenda = seqTurns 4 ++ rest) :
    stepN 5 s = .next { s with agenda := rest, ph := .run back rets, mode := .rxExt, ifl := false, gie := true, rxb := s.sdr
                               rxf := true, iem := clearLinkBit s.cfg (setLinkBit s.cfg s.iem) } := by
  refine stepN_line hp hq hph hag (line_e1 hc _) ?_
  refine stepN_line (inProgress_congr hp rfl rfl rfl rfl rfl) (irqEnabled_congr hq rfl rfl rfl rfl) rfl rfl (line_e2 hc _) ?_
  refine (stepN_succ (step_irq (by simp [irqEnabled, armed, hifl, hgie, armed_setLinkBit]) (by simp))).trans ?_
  refine stepN_line (inProgress_congr hp rfl rfl rfl rfl rfl) (irqEnabled_of_ifl rfl) rfl rfl (line_e3 hc _) ?_
  refine stepN_line (inProgress_congr hp rfl rfl rfl rfl rfl) (irqEnabled_of_ifl rfl) rfl rfl
    ((line_e4 hc _).trans (ret_eq (here := .e4) (back := back) (rets := rets) (by simp [hph]))) ?_
  rfl

end enableReceive

/-- Settles O48: the issue and N1, enableReceive in either case, N2. -/
theorem enrxRun : Obligations.EnrxRun := by
  unfold Obligations.EnrxRun
  intro s rest hq hb hag
  have hag : s.agenda = .write 0x00 0x02 :: .seq :: (seqTurns 4 ++ .seq :: rest) := hag
  have hcalled := stepN_called (i := .enrx) (entry := .e1) (back := .n2) hq hb hag rfl (by decide) fun _ _ => rfl
  refine ⟨fun hx => ?quiet, fun ⟨hifl, hgie⟩ => ?early⟩
  case quiet =>
    have harmed := stepN_trans hcalled (stepN_enableReceive_quiet (i := .enrx) rfl ⟨rfl, rfl⟩ hx rfl rfl)
    exact stepN_completes (i := .enrx) harmed ⟨rfl, rfl⟩ (irqEnabled_of_ifl rfl) rfl rfl rfl
  case early =>
    have hlatched := stepN_trans hcalled (stepN_enableReceive_early (i := .enrx) rfl ⟨rfl, rfl⟩ hq hifl hgie rfl rfl)
    exact stepN_completes (i := .enrx) hlatched ⟨rfl, rfl⟩ (irqEnabled_of_ifl rfl) rfl rfl rfl

end Sys2Proof.Machine
end

section
/-! The lines of readBlocking, readWithTimeout and sendAndCheckAck (41_timeout_receive.md R135, R137, R139). -/

namespace Sys2Proof.Machine

/-! ### The poll of readWithTimeout, an equation per case -/

/-- With the budget spent the poll returns false, whether or not a byte has come. -/
theorem pollStep_exhausted {s : State} {here back : Label} {rets : List Label} (hph : s.ph = .run here (back :: rets))
    (htu : s.tu = 0) : pollStep s = .next { s with wok := false, ph := .run back rets } := by
  rw [pollStep, if_pos htu]
  exact ret_eq hph

theorem pollStep_arrived {s : State} {here back : Label} {rets : List Label} (hph : s.ph = .run here (back :: rets))
    (htu : s.tu ≠ 0) (hrxf : s.rxf = true) : pollStep s = .next { s with wok := true, ph := .run back rets } := by
  rw [pollStep, if_neg htu, if_pos hrxf]
  exact ret_eq hph

theorem pollStep_spends_sub {s : State} {here : Label} {rets : List Label} (hph : s.ph = .run here rets) (htu : s.tu ≠ 0)
    (hrxf : s.rxf = false) (hts : 2 ≤ s.ts) : pollStep s = .next { s with ts := s.ts - 1, ph := .run .w4 rets } := by
  rw [pollStep, if_neg htu, if_neg (by simp [hrxf]), if_neg (by omega), State.goTo, hph, rets_run]

theorem pollStep_spends_unit {s : State} {here : Label} {rets : List Label} (hph : s.ph = .run here rets) (htu : s.tu ≠ 0)
    (hrxf : s.rxf = false) (hts : s.ts = 1) :
    pollStep s = .next { s with tu := s.tu - 1, ts := s.cfg.subPerUnit, ph := .run .w4 rets } := by
  rw [pollStep, if_neg htu, if_neg (by simp [hrxf]), if_pos (by omega), State.goTo, hph, rets_run]

/-! ### The poll of readBlocking -/

theorem line_b3_arrived {i : Instr} {s : State} {here back : Label} {rets : List Label} (hc : callsReadBlocking i = true)
    (hph : s.ph = .run here (back :: rets)) (hrxf : s.rxf = true) :
    lineStep i .b3 s = .next { s with ph := .run back rets } := by
  rw [line_b3 hc, if_pos hrxf]
  exact ret_eq hph

/-- A blocking poll that sees no byte leaves the whole state as it is. -/
theorem line_b3_unheard {i : Instr} {s : State} {rets : List Label} (hc : callsReadBlocking i = true)
    (hph : s.ph = .run .b3 rets) (hrxf : s.rxf = false) : lineStep i .b3 s = .next s := by
  rw [line_b3 hc, if_neg (by simp [hrxf]), State.goTo, hph, rets_run, ← hph]

/-! ### The lines, in every operation that calls the procedure -/

/-- Settles O12, by the three lines of readBlocking, the poll in both its cases. -/
theorem readBlockingLines : Obligations.ReadBlockingLines := by
  unfold Obligations.ReadBlockingLines
  intro i s back rets hc hp
  simp only [exec_atLine hp, line_b1 hc, line_b2 hc]
  have hph : (atLine .b3 (back :: rets) s).ph = .run .b3 (back :: rets) := rfl
  exact ⟨rfl, rfl, line_b3_arrived hc hph, line_b3_unheard hc hph⟩

/-- Settles O13, by the four lines of readWithTimeout, the poll in each of its cases. -/
theorem readWithTimeoutLines : Obligations.ReadWithTimeoutLines := by
  unfold Obligations.ReadWithTimeoutLines
  intro i s units back rets hc hp
  simp only [exec_atLine hp, line_w1 hc, line_w2 hc, line_w3 hc, line_w4 hc]
  have hph : (atLine .w4 (back :: rets) s).ph = .run .w4 (back :: rets) := rfl
  exact ⟨rfl, rfl, rfl, pollStep_exhausted hph, pollStep_arrived hph, pollStep_spends_sub hph, pollStep_spends_unit hph⟩

/-- Settles O14, by the three lines of sendAndCheckAck; A3 returns the conjunction it tests. -/
theorem sendAndCheckAckLines : Obligations.SendAndCheckAckLines := by
  unfold Obligations.SendAndCheckAckLines
  intro i s byte units expected back rets hc hp
  have ha3 : lineStep i .a3 (atLine .a3 (back :: rets) s) = .next { s with wok := s.wok && s.rxb == s.expAck, ph := .run back rets } :=
    (line_a3 hc _).trans (ret_eq (here := .a3) rfl)
  simp only [exec_atLine hp, line_a1 hc, line_a2 hc, ha3]
  refine ⟨rfl, rfl, fun hok => ?acknowledged, fun hbad => ?failed⟩
  case acknowledged => simp [hok]
  case failed =>
    have hbad : (s.wok && s.rxb == s.expAck) = false := by simpa using hbad
    rw [hbad]

end Sys2Proof.Machine
end

section
/-! The frame of SNDACK (41_timeout_receive.md R139, R141): what sendByte and readWithTimeout may write, and `EXP`. -/

namespace Sys2Proof.Machine

/-- `s` with the registers SNDACK may write taken from `t`. -/
def sndackWrites (s t : State) : State :=
  { s with opc := t.opc, opl := t.opl, la := t.la, lb := t.lb, lc := t.lc, busy := t.busy, done := t.done, res := t.res
           err := t.err, ph := t.ph, mode := t.mode, sdr := t.sdr, ifl := t.ifl, txlog := t.txlog, draws := t.draws
           iem := t.iem, gie := t.gie, rxf := t.rxf, tu := t.tu, ts := t.ts, wok := t.wok, expAck := t.expAck }

/-- What SNDACK may do to the registers and to the mask. -/
def SndackFrame (s t : State) : Prop := t = sndackWrites s t ∧ ArmedAtMost s t

theorem RdtoFrame.toSndack {s t : State} (h : RdtoFrame s t) : SndackFrame s t := by
  obtain ⟨hw, harm⟩ := h
  exact ⟨by rw [hw]; rfl, harm⟩

theorem sendByteStep_frame {here : Label} {s t : State} (h : sendByteStep here s = .next t) : SndackFrame s t := by
  have hw := sendByteStep_writes h
  exact ⟨by rw [hw]; rfl, .inl (by rw [hw]; rfl)⟩

theorem checkAckStep_frame {here : Label} {s t : State} (h : checkAckStep here s = .next t) : SndackFrame s t := by
  unfold checkAckStep at h
  split at h
  case h_1 =>
    obtain ⟨_, _, _, -, rfl⟩ := ret_cases h
    exact ⟨rfl, .inl rfl⟩
  case h_6 => exact (readWithTimeoutStep_frame h).toSndack
  all_goals exact sendByteStep_frame h

theorem sendAndCheckAckStep_frame {here : Label} {s t : State} (h : sendAndCheckAckStep here s = .next t) :
    SndackFrame s t := by
  unfold sendAndCheckAckStep at h
  split at h
  case h_3 => exact checkAckStep_frame h
  all_goals cases h; exact ⟨rfl, .inl rfl⟩

theorem sndackStep_frame {here : Label} {s t : State} (h : sndackStep here s = .next t) : SndackFrame s t := by
  unfold sndackStep at h
  split at h
  case h_3 => exact sendAndCheckAckStep_frame h
  all_goals cases h; exact ⟨rfl, .inl rfl⟩

/-- Settles O21: the issue and every line write at most these registers, the mask is kept or armed, and neither buffer is written. -/
theorem sndackFrame : Obligations.SndackFrame := by
  unfold Obligations.SndackFrame
  intro byte units expected s t h
  obtain ⟨hw, harm⟩ := exec_relates (P := SndackFrame) (i := .sndack byte units expected) ⟨rfl, .inl rfl⟩ ⟨rfl, .inl rfl⟩
    (fun _ => sndackStep_frame) h
  refine ⟨hw, fun _ => harm.other_bits, fun k => ?_⟩
  rw [hw]
  exact ⟨rfl, rfl⟩

end Sys2Proof.Machine
end

section
/-! RDBLK and RDTO from issue to completion (41_timeout_receive.md R135 to R140), and the blocking read that gets no byte
(70_reset_and_hazards.md R243, R244). -/

namespace Sys2Proof.Machine

/-! ### The blocking read -/

/-- Settles O49: the issue and K1, the well-timed blocking read, K2. -/
theorem rdblkReturnsByte : Obligations.RdblkReturnsByte := by
  unfold Obligations.RdblkReturnsByte
  intro s b rest hb hifl hag
  have hag : s.agenda = .write 0x00 0x03 :: .seq :: (waitTurns 0 b ++ .seq :: rest) := by simp [hag]
  have hcalled := stepN_called (i := .rdblk) (entry := .b1) (back := .k2) (irqEnabled_of_ifl hifl) hb hag rfl (by decide)
    fun _ _ => rfl
  have hread := stepN_trans hcalled (stepN_readBlocking (i := .rdblk) rfl ⟨rfl, rfl⟩ hifl rfl rfl)
  exact stepN_completes (i := .rdblk) hread ⟨rfl, rfl⟩ (irqEnabled_of_ifl rfl) rfl rfl rfl

section unheard

variable {i : Instr} {s : State} {rets : List Label}

/-- A step of SEQ or HOST while a blocking read polls and no byte has come: the turn is consumed and nothing else changes. -/
theorem step_unheard (hc : callsReadBlocking i = true) (hp : InProgress i s) (hph : s.ph = .run .b3 rets) (hrxf : s.rxf = false)
    (hifl : s.ifl = false) (hag : ∀ e ∈ s.agenda, e.disturbs = false) :
    step s = .next { s with agenda := s.agenda.tail } := by
  have hq := irqEnabled_of_ifl hifl
  rcases hs : s.agenda with _ | ⟨e, rest⟩
  case nil =>
    rw [step_alone hp hq hph hs, line_b3_unheard hc hph hrxf, List.tail_nil, ← hs]
  case cons =>
    have he : e.disturbs = false := hag e (by simp [hs])
    cases e with
    | seq => exact (step_line hp hq hph hs).trans (line_b3_unheard hc hph hrxf)
    | read off => exact step_turn hq hs
    | write off v => exact (step_turn hq hs).trans (hostWrite_busy (s := { s with agenda := rest }) hp.1 off v)
    | deliver b => cases he
    | reset => cases he

/-- Any number of such steps consumes as many turns and changes nothing else. -/
theorem stepN_unheard (hc : callsReadBlocking i = true) (hp : InProgress i s) (hph : s.ph = .run .b3 rets) (hrxf : s.rxf = false)
    (hifl : s.ifl = false) (hag : ∀ e ∈ s.agenda, e.disturbs = false) (n : Nat) :
    stepN n s = .next { s with agenda := s.agenda.drop n } := by
  induction n generalizing s with
  | zero => rfl
  | succ n ih =>
    rw [stepN_succ (step_unheard hc hp hph hrxf hifl hag),
      ih (s := { s with agenda := s.agenda.tail }) hp hph hrxf hifl fun e he => hag e (List.mem_of_mem_tail he)]
    simp only [List.drop_tail]

end unheard

/-- Settles O50: whatever SEQ and HOST do, only the agenda gets shorter. -/
theorem blockingReadNeverEndsAlone : Obligations.BlockingReadNeverEndsAlone := by
  unfold Obligations.BlockingReadNeverEndsAlone
  intro i s rets hc hp hph hrxf hifl hag n
  exact ⟨_, stepN_unheard hc hp hph hrxf hifl hag n, rfl, hp.1, hrxf, rfl⟩

/-! ### The timed read -/

section timed

variable {i : Instr} {s : State} {u : Byte} {back : Label} {rets : List Label} {rest : List Turn}

/-- readWithTimeout from W1 to its return with nothing delivered: seven lines to the poll, `units × SUB_PER_UNIT` polls and the one that
returns false, the link left armed (41_timeout_receive.md R137, R140). -/
theorem stepN_timedOut (hc : callsReadWithTimeout i = true) (hp : InProgress i s) (hq : s.ifl = false)
    (hsub : 1 ≤ s.cfg.subPerUnit) (hph : s.ph = .run (.w1 u) (back :: rets))
    (hag : s.agenda = seqTurns 7 ++ (seqTurns (u.toNat * s.cfg.subPerUnit + 1) ++ rest)) :
    stepN (7 + (u.toNat * s.cfg.subPerUnit + 1)) s = .next { s with
      agenda := rest, ph := .run back rets, mode := .rxExt, ifl := false, gie := true, rxf := false, wok := false
      iem := setLinkBit s.cfg s.iem, tu := 0, ts := s.cfg.subPerUnit } :=
  stepN_trans (stepN_waitOpened hc hp hq hph hag)
    (stepN_pollsRunOut hc _ _ hp rfl rfl rfl hsub le_rfl (fun _ => rfl) (fun _ => hsub) rfl rfl)

/-- readWithTimeout from W1 to its return with a byte delivered after `d` polls, within the budget: the poll after the delivery returns
true, the byte in `RXB` and the link disarmed (41_timeout_receive.md R140, 60_exceptions.md R206). -/
theorem stepN_arrivedAfter {d : Nat} {b : Byte} (hc : callsReadWithTimeout i = true) (hp : InProgress i s) (hq : s.ifl = false)
    (hsub : 1 ≤ s.cfg.subPerUnit) (hd : d < u.toNat * s.cfg.subPerUnit) (hph : s.ph = .run (.w1 u) (back :: rets))
    (hag : s.agenda = seqTurns 7 ++ (seqTurns d ++ .deliver b :: .seq :: rest)) :
    ∃ tu ts, stepN (7 + (d + 3)) s = .next { s with
      agenda := rest, ph := .run back rets, mode := .rxExt, ifl := false, gie := true, rxf := true, wok := true
      rxb := b, sdr := b, rxlog := s.rxlog ++ [b], iem := clearLinkBit s.cfg (setLinkBit s.cfg s.iem), tu := tu, ts := ts } := by
  obtain ⟨tu, ts, hpolls, htu⟩ := stepN_pollsGoOn (i := i) (rets := back :: rets) (rest := .deliver b :: .seq :: rest) hc d
    { s with
      agenda := seqTurns d ++ .deliver b :: .seq :: rest, ph := .run .w4 (back :: rets), mode := .rxExt, ifl := false
      gie := true, rxf := false, iem := setLinkBit s.cfg s.iem, tu := u, ts := s.cfg.subPerUnit }
    hp rfl rfl rfl hsub hsub le_rfl (Nat.add_lt_add_right hd _) rfl
  refine ⟨tu, ts, stepN_trans (stepN_waitOpened hc hp hq hph hag) (stepN_trans hpolls ?_)⟩
  refine stepN_trans (m := 2) (n := 1) (stepN_delivered rfl rfl (armed_setLinkBit _ _) rfl rfl nofun) ?_
  exact stepN_line (n := 0) hp (irqEnabled_of_ifl rfl) rfl rfl
    ((line_w4 hc _).trans (pollStep_arrived (here := .w4) rfl htu rfl)) rfl

/-- RDTO from its issue through O1 to the first line of the wait. -/
theorem stepN_rdtoCalled (hb : s.busy = false) (hifl : s.ifl = false) (hag : s.agenda = .write 0x00 0x04 :: .seq :: rest) :
    stepN 2 s = .next
      { accept 0x04 s.argA s.argB s.argC .o1 s with agenda := rest, ph := .run (.w1 s.argA) [.o2] } :=
  stepN_called (i := .rdto s.argA) (irqEnabled_of_ifl hifl) hb hag rfl (by decide) fun u hu => by rw [← hu]; rfl

end timed

/-- Settles O51: the issue and O1, the wait that runs out, O2. -/
theorem rdtoTimesOut : Obligations.RdtoTimesOut := by
  unfold Obligations.RdtoTimesOut
  intro s rest hcfg hb hifl hag
  have hag : s.agenda = .write 0x00 0x04 :: .seq ::
      (seqTurns 7 ++ (seqTurns (s.argA.toNat * s.cfg.subPerUnit + 1) ++ .seq :: rest)) := by
    rw [hag, show 10 + s.argA.toNat * s.cfg.subPerUnit = 1 + (7 + (s.argA.toNat * s.cfg.subPerUnit + 1 + 1)) by omega]
    simp only [seqTurns_add, List.append_assoc, List.cons_append]
    rfl
  have hwaited := stepN_trans (stepN_rdtoCalled hb hifl hag)
    (stepN_timedOut (i := .rdto s.argA) rfl ⟨rfl, rfl⟩ hifl (one_le_subPerUnit hcfg) rfl rfl)
  rw [show 10 + s.argA.toNat * s.cfg.subPerUnit = 2 + (7 + (s.argA.toNat * s.cfg.subPerUnit + 1)) by omega,
    show 11 + s.argA.toNat * s.cfg.subPerUnit = 2 + (7 + (s.argA.toNat * s.cfg.subPerUnit + 1)) + 1 by omega]
  exact stepN_completes (i := .rdto s.argA) hwaited ⟨rfl, rfl⟩ (irqEnabled_of_ifl rfl) rfl rfl (by rw [hifl]; rfl)

/-- Settles O52: the issue and O1, the wait that ends at the poll after the delivery, O2. -/
theorem rdtoReturnsAtArrival : Obligations.RdtoReturnsAtArrival := by
  unfold Obligations.RdtoReturnsAtArrival
  intro s b d rest hcfg hb hifl hd hag
  have hag : s.agenda = .write 0x00 0x04 :: .seq :: (seqTurns 7 ++ (seqTurns d ++ .deliver b :: .seq :: .seq :: rest)) := by
    rw [hag, show 8 + d = 1 + (7 + d) by omega]
    simp only [seqTurns_add, List.append_assoc, List.cons_append]
    rfl
  obtain ⟨tu, ts, hwait⟩ := stepN_arrivedAfter (i := .rdto s.argA) (back := .o2) (rets := []) (b := b) (rest := .seq :: rest)
    (s := { accept 0x04 s.argA s.argB s.argC .o1 s with
      agenda := seqTurns 7 ++ (seqTurns d ++ .deliver b :: .seq :: .seq :: rest), ph := .run (.w1 s.argA) [.o2] })
    rfl ⟨rfl, rfl⟩ hifl (one_le_subPerUnit hcfg) hd rfl rfl
  obtain ⟨hbusy, hdone⟩ := stepN_completes (i := .rdto s.argA) (stepN_trans (stepN_rdtoCalled hb hifl hag) hwait) ⟨rfl, rfl⟩
    (irqEnabled_of_ifl rfl) rfl rfl rfl
  rw [show 12 + d = 2 + (7 + (d + 3)) by omega, show 13 + d = 2 + (7 + (d + 3)) + 1 by omega]
  exact ⟨hbusy, _, hdone, rfl, rfl, rfl, rfl, rfl, rfl, rfl, rfl, disarmed_clearLinkBit _ _, rfl, rfl, rfl, rfl, rfl⟩

end Sys2Proof.Machine
end

section
/-! The lines of PSEND and PRECV (42_packet_protocol.md R155 to R160), PSEND's refused issue, and the runs in which one of the two
ends early: a failed acknowledgement (R158), a rejected length or a timeout inside the frame (R159, R160). -/

namespace Sys2Proof.Machine

/-- Settles O7: while idle PSEND is issued, and with a payload that leaves no room for length and checksum the issue is refused. -/
theorem psendOverlengthRefused : Obligations.PsendOverlengthRefused := by
  unfold Obligations.PsendOverlengthRefused
  intro s command hb hlong
  rw [exec_idle _ s hb]
  exact congrArg _ (issuePsend_overlength hlong command)

/-! ### PSEND -/

theorem InProgress.psend_latch {s : State} {x : Byte} (hp : InProgress (.psend x) s) : s.la = x := by
  cases hp.operands
  rfl

/-- The lines that test an acknowledgement (42_packet_protocol.md R156). -/
def AckTest (l : Label) : Prop := l = .p4 ∨ l = .p5 ∨ l = .p8 ∨ l = .p10

/-- A failed acknowledgement goes to the restore of the mask and writes nothing (42_packet_protocol.md R156). -/
theorem line_ackTest_failed {c : Byte} {l : Label} {s : State} (hl : AckTest l) (hw : s.wok = false) :
    lineStep (.psend c) l s = .next (s.goTo .p11) := by
  have hne : ¬s.wok = true := by simp [hw]
  obtain rfl | rfl | rfl | rfl := hl
  case inr.inr.inr =>
    have hresv : (s.resv || s.wok) = s.resv := by rw [hw, Bool.or_false]
    exact congrArg (fun r => Host.Outcome.next ({ s with resv := r }.goTo .p11)) hresv
  all_goals exact if_neg hne

/-- Settles O16: the latch for the command, the failed acknowledgements by their lemma, the other lines by the pseudocode. -/
theorem psendLines : Obligations.PsendLines := by
  unfold Obligations.PsendLines
  intro s command hp run ok
  obtain rfl := hp.psend_latch
  have hrun (l : Label) : run l = lineStep (.psend s.la) l (atLine l [] s) := exec_atLine hp l []
  simp only [hrun]
  refine ⟨rfl, rfl, rfl, fun hw => if_pos hw, fun hw => line_ackTest_failed (.inl rfl) hw, ?p5, ?p6, fun hi => if_pos hi,
    fun hw => if_pos hw, fun hw => line_ackTest_failed (.inr (.inr (.inl rfl))) hw, rfl, ?p10, rfl, rfl⟩
  case p5 => exact (apply_ite (fun l => Host.Outcome.next ((atLine .p5 [] s).goTo l)) _ _ _).symm
  case p6 => exact (apply_ite (fun l => Host.Outcome.next ((atLine .p6 [] s).goTo l)) _ _ _).symm
  case p10 => rw [Bool.or_comm]; rfl

/-- Settles O56: the test that failed goes to P11, which restores the mask, and P12 completes with the verdict `RESV`. -/
theorem psendStopsAtFailure : Obligations.PsendStopsAtFailure := by
  unfold Obligations.PsendStopsAtFailure
  intro s command test rest hp htest hph hwok hresv hifl hag
  have hq := irqEnabled_of_ifl hifl
  have hag : s.agenda = .seq :: .seq :: .seq :: rest := hag
  have hrestored : stepN 2 s = .next { s with agenda := .seq :: rest, iem := s.saved, ph := .run .p12 s.ph.rets } :=
    stepN_line hp hq hph hag (line_ackTest_failed htest hwok) (stepN_line (i := .psend command) (n := 0) hp hq rfl rfl rfl rfl)
  exact stepN_completes (i := .psend command) hrestored hp (irqEnabled_of_ifl hifl) rfl rfl
    (by simp [lineStep, psendStep, complete, hresv])

/-! ### PRECV -/

theorem InProgress.precv_latch {s : State} {x : Byte} (hp : InProgress (.precv x) s) : s.la = x := by
  cases hp.operands
  rfl

/-- V5 goes to the verdict where no byte came in time, or one that is no length (42_packet_protocol.md R159, R160). -/
theorem line_v5_rejects {c : Byte} {s : State} (h : s.wok = false ∨ 14 < s.rxb.toNat ∨ s.rxb = 0) :
    lineStep (.precv c) .v5 s = .next (s.goTo .v10) := by
  simp only [lineStep, precvStep, checkLength]
  by_cases hw : s.wok = false
  · rw [if_pos hw]
  · by_cases hmax : Config.maxRxLen.toNat < s.rxb.toNat
    · rw [if_neg hw, if_pos hmax]
    · have h0 : s.rxb = 0 := (h.resolve_left hw).resolve_left hmax
      rw [if_neg hw, if_neg hmax, if_pos h0]

/-- V7 appends a byte that came in time (42_packet_protocol.md R159, 20_memory.md R72). -/
theorem line_v7_appends {c : Byte} {s : State} (hw : s.wok = true) (hlen : s.rxlen.toNat < 14) :
    lineStep (.precv c) .v7 s = .next ((appendByte s).goTo .v6) :=
  (if_pos hw).trans (if_pos hlen)

/-- V7 goes to the forced sentinel after a timeout inside the frame (42_packet_protocol.md R159). -/
theorem line_v7_timedOut {c : Byte} {s : State} (hw : s.wok = false) : lineStep (.precv c) .v7 s = .next (s.goTo .v8) :=
  if_neg (by simp [hw])

/-- Settles O17: the latch for the command, V5 and V7 by their lemmas, the other lines by the pseudocode. -/
theorem precvLines : Obligations.PrecvLines := by
  unfold Obligations.PrecvLines
  intro s command hp run
  obtain rfl := hp.precv_latch
  have hrun (l : Label) : run l = lineStep (.precv s.la) l (atLine l [] s) := exec_atLine hp l []
  simp only [hrun]
  refine ⟨rfl, rfl, rfl, rfl, fun h => line_v5_rejects h, fun hw h1 h14 => line_v5_accepts hw h1 h14, fun h0 => if_pos h0,
    fun hne => if_neg hne, fun hw hlen => line_v7_appends hw hlen, fun hw => line_v7_timedOut hw, rfl, ?v9, fun hr => ?ok,
    fun hr => ?abort, rfl, rfl⟩
  case v9 => rw [Bool.or_comm]; rfl
  case ok => simp [lineStep, precvStep, atLine, State.call, hr]
  case abort => simp [lineStep, precvStep, atLine, State.call, hr]

/-- PRECV from V10 to its completion: the byte of the verdict sent, the mask restored (42_packet_protocol.md R155, R159). -/
theorem reaches_precvVerdict {c : Byte} {s : State} {rest : List Turn} (hp : InProgress (.precv c) s) (hq : irqEnabled s = false)
    (hph : s.ph = .run .v10 []) (hag : s.agenda = seqTurns 7 ++ rest) :
    ∃ t, Reaches s t ∧ t = { s with
      agenda := rest, ph := .idle, busy := false, done := true, res := s.resv, mode := .rxExt, iem := s.saved
      txlog := s.txlog ++ [if s.resv then s.cfg.codes.ok else s.cfg.codes.abort]
      ifl := t.ifl, rxf := t.rxf, rxb := t.rxb, sdr := t.sdr, draws := t.draws } := by
  have hag : s.agenda = .seq :: (seqTurns 4 ++ .seq :: .seq :: rest) := hag
  refine Reaches.lineVia hp hq hph hag rfl ?_
  simp only [State.call, hph, rets_run]
  refine Reaches.through (reaches_sent (i := .precv c) rfl hp hq rfl rfl) fun t ht => ?_
  rw [ht]
  refine Reaches.lineVia (i := .precv c) hp (irqEnabled_of_ifl rfl) rfl rfl rfl ?_
  refine Reaches.lineVia (i := .precv c) hp (irqEnabled_of_ifl rfl) rfl rfl rfl ?_
  exact ⟨_, Reaches.refl _, rfl⟩

/-- Settles O58: a rejected length goes straight to the verdict, a timeout inside the frame through the sentinel, whose sum is not 0. -/
theorem precvRejectsLength : Obligations.PrecvRejectsLength := by
  unfold Obligations.PrecvRejectsLength
  intro s command rest hp hq hresv hcase
  obtain ⟨hph, hreject, hag⟩ | ⟨hph, hwok, hag⟩ := hcase
  case inl =>
    refine Reaches.lineVia hp hq hph hag (line_v5_rejects hreject) ?_
    refine Reaches.through (reaches_precvVerdict (c := command) hp hq (by simp [hph]) rfl) fun t ht => ?_
    refine ⟨t, Reaches.refl t, ?_⟩
    rw [ht]
    exact ⟨rfl, rfl, rfl, rfl, hresv, by simp [hresv], rfl, rfl, rfl⟩
  case inr =>
    have hag : s.agenda = .seq :: .seq :: .seq :: (seqTurns 7 ++ rest) := hag
    refine Reaches.lineVia hp hq hph hag (line_v7_timedOut hwok) ?_
    refine Reaches.lineVia (i := .precv command) hp hq rfl rfl rfl ?_
    refine Reaches.lineVia (i := .precv command) hp hq rfl rfl rfl ?_
    refine Reaches.through (reaches_precvVerdict (c := command) hp hq (by simp [hph]) rfl) fun t ht => ?_
    refine ⟨t, Reaches.refl t, ?_⟩
    rw [ht]
    exact ⟨rfl, rfl, rfl, rfl, by simp [hresv, Config.sentinel], by simp [hresv, Config.sentinel], rfl, rfl, rfl⟩

end Sys2Proof.Machine
end

section
/-! The frames of PSEND and PRECV (42_packet_protocol.md R156, R159), and the one writer of `SAVED` (R155). -/

namespace Sys2Proof.Machine

/-! ### PSEND -/

/-- `s` with the registers PSEND may write taken from `t`. -/
def psendWrites (s t : State) : State :=
  { sndackWrites s t with saved := t.saved, plen := t.plen, acc := t.acc, idx := t.idx, cks := t.cks, resv := t.resv }

theorem psendStep_writes {here : Label} {s t : State} (h : psendStep here s = .next t) : t = psendWrites s t := by
  unfold psendStep at h
  split at h
  case h_4 | h_5 | h_6 | h_8 => split at h <;> cases h <;> rfl
  case h_7 =>
    unfold sendPayloadByte at h
    split at h <;> cases h
    rfl
  case h_13 =>
    obtain ⟨hw, -⟩ := sendAndCheckAckStep_frame h
    rw [hw]
    rfl
  all_goals cases h; rfl

theorem issueState_psend_writes (c : Byte) (s : State) : issueState (.psend c) s = psendWrites s (issueState (.psend c) s) := by
  obtain ⟨_, _, _, _, _, _, _, _, _, _, h⟩ := issueState_frame (.psend c) s
  rw [h]
  rfl

/-- Settles O22: the issue and every line write at most these registers, and neither buffer is among them. -/
theorem psendFrame : Obligations.PsendFrame := by
  unfold Obligations.PsendFrame
  intro command s t h
  have hw : t = psendWrites s t := exec_relates (P := fun s t => t = psendWrites s t) (i := .psend command) rfl
    (issueState_psend_writes command s) (fun _ => psendStep_writes) h
  refine ⟨hw, fun k => ?_⟩
  rw [hw]
  exact ⟨rfl, rfl⟩

/-! ### PRECV -/

/-- `s` with the registers PRECV may write taken from `t`. -/
def precvWrites (s t : State) : State :=
  { s with opc := t.opc, opl := t.opl, la := t.la, lb := t.lb, lc := t.lc, busy := t.busy, done := t.done, res := t.res
           err := t.err, ph := t.ph, mode := t.mode, sdr := t.sdr, ifl := t.ifl, txlog := t.txlog, draws := t.draws
           iem := t.iem, gie := t.gie, rxf := t.rxf, tu := t.tu, ts := t.ts, wok := t.wok
           saved := t.saved, acc := t.acc, cnt := t.cnt, resv := t.resv, rxbuf := t.rxbuf, rxlen := t.rxlen }

theorem precvStep_writes {here : Label} {s t : State} (h : precvStep here s = .next t) : t = precvWrites s t := by
  unfold precvStep at h
  split at h
  case h_5 => obtain hv | ⟨-, -, hv⟩ := checkLength_cases s <;> rw [hv] at h <;> cases h <;> rfl
  case h_6 => split at h <;> cases h <;> rfl
  case h_7 =>
    unfold frameByte at h
    split at h
    · split at h <;> cases h
      rfl
    · cases h; rfl
  case h_13 | h_14 | h_15 | h_16 =>
    rw [sendByteStep_writes h]
    rfl
  case h_17 =>
    obtain ⟨hw, -⟩ := readWithTimeoutStep_frame h
    rw [hw]
    rfl
  all_goals cases h; rfl

/-- A step of an operation stores into the Receive Buffer only at V7 after a wait that succeeded, and then the mailbox byte at the index
`RXLEN` (20_memory.md R72). -/
theorem exec_rxbuf {i : Instr} {s t : State} (h : exec i s = .next t) :
    t.rxbuf = s.rxbuf ∨
    (s.busy = true ∧ s.wok = true ∧ ∃ rets, s.ph = .run .v7 rets) ∧ t.rxbuf = s.rxbuf.write s.rxlen.toNat s.rxb := by
  obtain ⟨-, rfl⟩ | ⟨hp, here, rets, hph, hl⟩ | ⟨-, -, rfl⟩ := exec_cases h
  · obtain ⟨_, _, _, _, _, _, _, _, _, _, hissue⟩ := issueState_frame i s
    exact .inl (by rw [hissue])
  · obtain ⟨hkept, -⟩ | ⟨rfl, hw, -, hstored, -⟩ := (lineStep_effect hl).rxbuf
    · exact .inl hkept
    · exact .inr ⟨⟨hp.1, hw, rets, hph⟩, hstored⟩
  · exact .inl rfl

/-- Settles O23: the issue and every line write at most these registers, and the one store into the Receive Buffer is V7's. -/
theorem precvFrame : Obligations.PrecvFrame := by
  unfold Obligations.PrecvFrame
  intro command s t h
  have hw : t = precvWrites s t := exec_relates (P := fun s t => t = precvWrites s t) (i := .precv command) rfl rfl
    (fun _ => precvStep_writes) h
  have htx : t.txbuf = s.txbuf := by rw [hw]; rfl
  refine ⟨hw, fun k hk => ?others, (exec_rxbuf h).imp_right And.left, fun k => by rw [htx]⟩
  case others =>
    obtain hkept | ⟨-, hstored⟩ := exec_rxbuf h
    · rw [hkept]
    · rw [hstored, read_write_other _ _ _ _ hk]

/-! ### The saved mask -/

theorem issueState_saved (i : Instr) (s : State) : (issueState i s).saved = s.saved := by
  obtain ⟨_, _, _, _, _, _, _, _, _, _, h⟩ := issueState_frame i s
  rw [h]

theorem deliver_saved (b : Byte) (s : State) : (deliver b s).saved = s.saved := by
  obtain ⟨-, h⟩ | ⟨-, h⟩ := deliver_cases b s <;> rw [h]

theorem hostStore_saved (off : Offset) (v : Byte) (s : State) : (hostStore off v s).saved = s.saved := by
  obtain h | ⟨_, _, _, h⟩ | ⟨-, h⟩ | ⟨-, h⟩ | ⟨-, h⟩ | ⟨_, -, -, h⟩ := hostStore_cases off v s <;> rw [h]

/-- Settles O41, by what the step was: a line writes `SAVED` at P1, V1 and H1 only, and no other step but a reset writes it. -/
theorem savedMaskIsKept : Obligations.SavedMaskIsKept := by
  unfold Obligations.SavedMaskIsKept
  intro s t h hreset hne
  obtain ⟨rest, hag, -⟩ | ⟨-, -, rfl⟩ | ⟨-, rest, -, hturn⟩ := step_next h
  · exact absurd hag (hreset rest)
  · exact absurd rfl hne
  · obtain rfl | ⟨i, here, rets, -, hph, hl⟩ | ⟨i, -, rfl⟩ | ⟨v, -, rfl⟩ | ⟨b, -, rfl⟩ | ⟨off, v, -, -, -, rfl⟩ := hturn
    · exact absurd rfl hne
    · obtain hkept | ⟨hsaved, hhere⟩ := (lineStep_effect hl).saved
      · exact absurd hkept hne
      · refine ⟨hsaved, rets, ?_⟩
        obtain rfl | rfl | rfl := hhere
        · exact .inl hph
        · exact .inr (.inl hph)
        · exact .inr (.inr hph)
    · exact absurd (issueState_saved i _) hne
    · exact absurd rfl hne
    · exact absurd (deliver_saved b _) hne
    · exact absurd (hostStore_saved off v _) hne

end Sys2Proof.Machine
end

section
/-! The lines and the frame of BOOT (43_boot_handshake.md R185 to R191), and the run in which the first wrong countdown byte ends the
loop (R190). -/

namespace Sys2Proof.Machine

/-! ### The lines -/

/-- H5 leaves the loop when the counter wraps (30_encoding.md R107). -/
theorem byte_add_one_eq_zero_iff (x : Byte) : x + 1 = 0 ↔ x = 255 := by
  constructor <;> intro h <;> bv_omega

/-- H12 leaves the loop when the expected byte wraps (30_encoding.md R107). -/
theorem byte_sub_one_eq_255_iff (x : Byte) : x - 1 = 255 ↔ x = 0 := by
  constructor <;> intro h <;> bv_omega

/-- H11 goes on after the expected byte (43_boot_handshake.md R189). -/
theorem line_h11_matches {s : State} (h : s.rxb = s.expv) : lineStep .boot .h11 s = .next (s.goTo .h12) :=
  congrArg Host.Outcome.next (if_pos h)

/-- Under the default reading H11 records a wrong byte and goes on (43_boot_handshake.md R189). -/
theorem line_h11_records {s : State} (h : s.rxb ≠ s.expv) (hstop : s.cfg.hsStopOnMismatch = false) :
    lineStep .boot .h11 s = .next ({ s with failf := true }.goTo .h12) :=
  congrArg Host.Outcome.next ((if_neg h).trans (if_neg (by simp [hstop])))

/-- With `HS_STOP_ON_MISMATCH` H11 records a wrong byte and ends the loop (43_boot_handshake.md R190). -/
theorem line_h11_stops {s : State} (h : s.rxb ≠ s.expv) (hstop : s.cfg.hsStopOnMismatch = true) :
    lineStep .boot .h11 s = .next ({ s with failf := true }.goTo .h13) :=
  congrArg Host.Outcome.next ((if_neg h).trans (if_pos hstop))

/-- Settles O18: H11 by its three cases, the wraps of H5 and H12 by their counters, the tests of H7, H13 and H15 by the bit they read,
the other lines by the pseudocode. -/
theorem bootLines : Obligations.BootLines := by
  unfold Obligations.BootLines
  intro s hp run
  have hrun (l : Label) : run l = lineStep .boot l (atLine l [] s) := exec_atLine hp l []
  simp only [hrun]
  refine ⟨rfl, rfl, rfl, rfl, ?h5, rfl, fun h => ?right, fun h => ?wrong, rfl, rfl, rfl, fun h => line_h11_matches h,
    fun h hstop => line_h11_records h hstop, fun h hstop => line_h11_stops h hstop, ?h12, fun hf => ?ok, fun hf => ?abort, rfl,
    fun hf => ?success, fun hf => ?failure⟩
  case h5 => simp only [← byte_add_one_eq_zero_iff]; rfl
  case h12 => simp only [← byte_sub_one_eq_255_iff]; rfl
  case right | wrong => simp [lineStep, bootStep, atLine, State.goTo, h]
  case ok | abort => simp [lineStep, bootStep, atLine, State.call, hf]
  case success | failure => simp [lineStep, bootStep, atLine, verdict, complete, hf]

/-! ### The frame -/

/-- `s` with the registers BOOT may write taken from `t`. -/
def bootWrites (s t : State) : State :=
  { sendbWrites s t with
    iem := t.iem, gie := t.gie, rxf := t.rxf, saved := t.saved, failf := t.failf, cnt := t.cnt, expv := t.expv, hs := t.hs
    resv := t.resv }

theorem countdownCheck_writes (s : State) : countdownCheck s = bootWrites s (countdownCheck s) := by
  unfold countdownCheck
  split
  · rfl
  · split <;> rfl

theorem bootStep_writes {here : Label} {s t : State} (h : bootStep here s = .next t) : t = bootWrites s t := by
  unfold bootStep at h
  split at h
  case h_11 => cases h; exact countdownCheck_writes s
  case h_16 | h_17 | h_18 | h_19 =>
    rw [sendByteStep_writes h]
    rfl
  case h_20 =>
    obtain ⟨hw, -⟩ := readBlockingStep_frame h
    rw [hw]
    rfl
  all_goals cases h; rfl

/-- Settles O24: the issue and every line write at most these registers, and neither buffer is among them. -/
theorem bootFrame : Obligations.BootFrame := by
  unfold Obligations.BootFrame
  intro s t h
  have hw : t = bootWrites s t := exec_relates (P := fun s t => t = bootWrites s t) (i := .boot) rfl rfl (fun _ => bootStep_writes) h
  refine ⟨hw, fun k => ?_⟩
  rw [hw]
  exact ⟨rfl, rfl⟩

/-! ### The early stop -/

/-- With `HS_STOP_ON_MISMATCH` a wrong countdown byte leads from H10 to the verdict (43_boot_handshake.md R190). -/
theorem reaches_mismatch {s : State} {b : Byte} {rest : List Turn} (hp : InProgress .boot s) (hq : s.ifl = false)
    (hstop : s.cfg.hsStopOnMismatch = true) (hb : b ≠ s.expv) (hph : s.ph = .run .h10 [])
    (hag : s.agenda = seqTurns 1 ++ (waitTurns 0 b ++ .seq :: rest)) :
    ∃ t, Reaches s t ∧ t = { s with
      agenda := rest, ph := .run .h13 [], mode := .rxExt, ifl := false, gie := true, rxb := b, rxlog := s.rxlog ++ [b], failf := true
      rxf := t.rxf, sdr := t.sdr, iem := t.iem } := by
  refine (reaches_countdownByte hp hq hph hag).via ?_
  refine Reaches.lineVia (i := .boot) hp (irqEnabled_of_ifl rfl) rfl rfl (line_h11_stops hb hstop) ?_
  exact ⟨_, Reaches.refl _, rfl⟩

/-- The expected byte at position `k` of the countdown is `255 - k` (30_encoding.md R107). -/
theorem countdownBytes_take {k : Nat} (hk : k < 256) : countdownBytes.take k = downFrom 255 k := by
  rw [← downFrom_all, downFrom, downFrom, ← List.map_take, List.take_range, Nat.min_eq_left hk.le]

/-- The turns of a BOOT that a wrong byte ends, cut at H3, the countdown, the wrong byte and the end. -/
theorem bootTurns_mismatch_append (reply wrong : Byte) (bytes : List Byte) (rest : List Turn) :
    bootOpeningTurns reply ++ countdownTurns bytes ++ (seqTurns 1 ++ waitTurns 0 wrong ++ seqTurns 1) ++ bootClosingTurns ++ rest =
      .seq :: .seq :: .seq :: (seqTurns (6 * (255 + 1)) ++ .seq :: (waitTurns 0 reply ++ .seq :: .seq :: (seqTurns 4 ++ .seq ::
        (countdownTurns bytes ++ (seqTurns 1 ++ (waitTurns 0 wrong ++ .seq ::
          (.seq :: (seqTurns 4 ++ .seq :: .seq :: rest)))))))) := by
  simp only [bootOpeningTurns, bootClosingTurns, List.append_assoc]
  rfl

/-- Settles O60: the issue, H1 and H2, the opening, the `k` right bytes, the wrong one and the closing, one after the other. -/
theorem bootStopsAtMismatch : Obligations.BootStopsAtMismatch := by
  unfold Obligations.BootStopsAtMismatch
  intro s reply wrong k rest hq _ hb hstop hk hwrong hag
  rw [bootTurns_mismatch_append, countdownBytes_take hk] at hag
  rw [countdownBytes_take hk]
  have hne : wrong ≠ BitVec.ofNat 8 (255 - k) := by
    rintro rfl
    exact hwrong (Nat.mod_eq_of_lt (by omega))
  refine Reaches.through (reaches_restricted (i := .boot) hq hb hag rfl nofun nofun (fun _ => rfl) fun _ => rfl)
    fun t ⟨hquiet, ht⟩ => ?_
  rw [ht] at hquiet ⊢
  refine Reaches.through (reaches_bootOpening ⟨rfl, rfl⟩ hquiet rfl rfl) fun t' ht' => ?_
  rw [ht']
  refine Reaches.through (reaches_prefix k _ ⟨rfl, rfl⟩ rfl rfl (Nat.le_of_lt_succ hk) rfl) fun u hu => ?_
  rw [hu]
  refine Reaches.through (reaches_mismatch ⟨rfl, rfl⟩ rfl hstop hne rfl rfl) fun u' hu' => ?_
  rw [hu']
  refine Reaches.through (reaches_bootClosing (success := False) ⟨rfl, rfl⟩ rfl rfl rfl rfl) fun v hv => ?_
  refine ⟨v, Reaches.refl v, ?_⟩
  rw [hv]
  refine ⟨rfl, rfl, rfl, rfl, rfl, rfl, ?sent, ?received, rfl⟩
  case sent => exact List.append_assoc _ [s.cfg.codes.bootReq] _
  case received => simp

end Sys2Proof.Machine
end

section
/-! The byte-received interrupt (60_exceptions.md R205 to R210): when it is enabled, all it does, and what arms the link again after it. -/

namespace Sys2Proof.Machine

/-- The enabling condition of the IRQ step (60_exceptions.md R206). -/
theorem irqEnabled_iff (s : State) :
    irqEnabled s = true ↔ s.ifl = true ∧ s.iem.getLsbD s.cfg.linkBit.val = true ∧ s.gie = true := by
  simp only [irqEnabled, armed, Bool.and_eq_true]
  tauto

/-- Settles O25: the condition is `irqEnabled`'s, and the new mask is the old one with the link's bit clear. -/
theorem interruptStepEffect : Obligations.InterruptStepEffect := by
  unfold Obligations.InterruptStepEffect
  exact fun s => ⟨irqEnabled_iff s, clearLinkBit s.cfg s.iem, rfl, clearLinkBit_getLsbD s.cfg s.iem⟩

/-- Settles O26: the three bits enable the interrupt, and an enabled interrupt goes before every turn but a reset. -/
theorem interruptGoesFirst : Obligations.InterruptGoesFirst := by
  unfold Obligations.InterruptGoesFirst
  intro s hifl hlink hgie hreset
  exact step_irq ((irqEnabled_iff s).mpr ⟨hifl, hlink, hgie⟩) hreset

/-! ### What arms the link -/

/-- The step from `s` is one of those that may arm the link: E2, a mask restrict, a mask restore whose saved value has the link's bit, an
idle host write to `IEM` (60_exceptions.md R205). -/
def MayArm (s : State) : Prop :=
  (∃ rets, s.ph = .run .e2 rets ∨ s.ph = .run .p2 rets ∨ s.ph = .run .v2 rets ∨ s.ph = .run .h2 rets) ∨
  (s.saved.getLsbD s.cfg.linkBit.val = true ∧
    ∃ rets, s.ph = .run .p11 rets ∨ s.ph = .run .v11 rets ∨ s.ph = .run .h14 rets) ∨
  (s.busy = false ∧ ∃ v rest, s.agenda = .write 0x06 v :: rest)

theorem armed_congr {s t : State} (hi : t.iem = s.iem) (hc : t.cfg = s.cfg) : armed t = armed s := by
  rw [armed, armed, hi, hc]

theorem armed_irqStep (s : State) : armed (irqStep s) = false := disarmed_clearLinkBit s.cfg s.iem

theorem armed_resetTurn (s : State) : armed (resetTurn s) = false := BitVec.getLsbD_zero

theorem armed_issueState (i : Instr) (s : State) : armed (issueState i s) = armed s := by
  obtain ⟨_, _, _, _, _, _, _, _, _, _, h⟩ := issueState_frame i s
  exact armed_congr (by rw [h]) (by rw [h])

theorem armed_deliver (b : Byte) (s : State) : armed (deliver b s) = armed s := by
  obtain ⟨-, h⟩ | ⟨-, h⟩ := deliver_cases b s
  · exact armed_congr (by rw [h]) (by rw [h])
  · rw [h]

/-- An idle store of HOST reaches the mask through `IEM` only (20_memory.md R66). -/
theorem armed_hostStore (off : Offset) (v : Byte) (s : State) : off = 0x06 ∨ armed (hostStore off v s) = armed s := by
  obtain h | ⟨_, _, _, h⟩ | ⟨-, h⟩ | ⟨h6, -⟩ | ⟨-, h⟩ | ⟨_, -, -, h⟩ := hostStore_cases off v s
  case inr.inr.inr.inl => exact .inl h6
  all_goals
    rw [h]
    exact .inr rfl

/-- A line that arms the link writes the mask, at E2, a restrict or a restore. -/
theorem LineEffect.mayArm {here : Label} {rets : List Label} {s t : State} {rest : List Turn} (hph : s.ph = .run here rets)
    (e : LineEffect here { s with agenda := rest } t) (hdis : armed s = false) (harm : armed t = true) : MayArm s := by
  obtain hkept | ⟨rfl, -⟩ | ⟨hhere, -⟩ | ⟨hhere, hsaved⟩ := e.iem
  · simp [(armed_congr hkept e.cfg).trans hdis] at harm
  · exact .inl ⟨rets, .inl hph⟩
  · refine .inl ⟨rets, .inr ?_⟩
    obtain rfl | rfl | rfl := hhere <;> simp [hph]
  · rw [armed, hsaved, e.cfg] at harm
    refine .inr (.inl ⟨harm, rets, ?_⟩)
    obtain rfl | rfl | rfl := hhere <;> simp [hph]

/-- Settles O27: the IRQ step clears the link's bit and `IFL`; by what a later step was, only a line that writes the mask and an idle
write of `IEM` set the bit. -/
theorem onlyTheseStepsArm : Obligations.OnlyTheseStepsArm := by
  unfold Obligations.OnlyTheseStepsArm
  refine ⟨fun s => ⟨armed_irqStep s, irqEnabled_of_ifl rfl⟩, fun s t h hdis harm => ?_⟩
  have same {u : State} (harm : armed u = true) (hu : armed u = armed s) : MayArm s := by simp [hu, hdis] at harm
  obtain ⟨rest, -, rfl⟩ | ⟨-, -, rfl⟩ | ⟨-, rest, -, hturn⟩ := step_next h
  · simp [armed_resetTurn] at harm
  · simp [armed_irqStep] at harm
  · obtain rfl | ⟨i, here, rets, -, hph, hl⟩ | ⟨i, -, rfl⟩ | ⟨v, -, rfl⟩ | ⟨b, -, rfl⟩ | ⟨off, v, hag, hb, -, rfl⟩ := hturn
    · exact same harm rfl
    · exact (lineStep_effect hl).mayArm hph hdis harm
    · exact same harm (armed_issueState i _)
    · exact same harm rfl
    · exact same harm (armed_deliver b _)
    · obtain rfl | hsame := armed_hostStore off v { s with agenda := rest }
      · exact .inr (.inr ⟨hb, v, rest, hag⟩)
      · exact same harm hsame

end Sys2Proof.Machine
end

section
/-! The machine never stops (60_exceptions.md R215): under the invariant every turn has an answer. A line of a procedure answers because
the operation in progress calls that procedure and there is a return point; the lines of P7 and V7 answer because the indices are inside
the buffers. -/

namespace Sys2Proof.Machine

/-! ### The procedures an operation calls -/

/-- The pseudocode of the operation calls the procedure. -/
def Procedure.calledBy (i : Instr) : Procedure → Bool
  | .sendByte => callsSendByte i
  | .enableReceive => callsEnableReceive i
  | .readBlocking => callsReadBlocking i
  | .readWithTimeout => callsReadWithTimeout i
  | .sendAndCheckAck => callsSendAndCheckAck i

/-- An operation calls the procedures that return to its own lines. -/
theorem calledBy_of_operation {i : Instr} {p : Procedure} {back : Label} (hr : returnsTo p back = true)
    (ho : back.operation = some i.opcode) : p.calledBy i = true := by
  unfold returnsTo at hr
  -- each line that follows a call fixes the code of its operation, and so the operation
  split at hr <;> cases i <;> simp [Label.operation, Instr.opcode] at ho hr
  all_goals rfl

/-- An operation calls the procedures that return to a line of a procedure it calls. -/
theorem calledBy_of_procedure {i : Instr} {p q : Procedure} {back : Label} (hr : returnsTo p back = true)
    (hq : back.procedure = some q) (hc : q.calledBy i = true) : p.calledBy i = true := by
  cases back
  case a2 =>
    cases hq
    cases p
    case sendByte => exact (calls_of_ack hc).1
    all_goals nomatch hr
  case a3 =>
    cases hq
    cases p
    case readWithTimeout => exact (calls_of_ack hc).2
    all_goals nomatch hr
  case b3 =>
    cases hq
    cases p
    case enableReceive => exact calls_of_blocking hc
    all_goals nomatch hr
  case w3 =>
    cases hq
    cases p
    case enableReceive => exact calls_of_timeout hc
    all_goals nomatch hr
  case s1 | s2 | s3 | s4 | e1 | e2 | e3 | e4 | b1 | b2 | w1 | w2 | w4 | a1 => cases p <;> nomatch hr
  all_goals nomatch hq

/-- Control in a procedure is in one the operation calls (10_state.md R40). -/
theorem calledBy_of_position {i : Instr} {p : Procedure} {here : Label} {rets : List Label}
    (hpos : positionOf i.opcode here rets = true) (hp : here.procedure = some p) : p.calledBy i = true := by
  induction rets generalizing here p with
  | nil =>
    have ho : here.operation = some i.opcode := by simpa [positionOf] using hpos
    simp [procedure_of_operation ho] at hp
  | cons back rets ih =>
    obtain ⟨hr, hback⟩ : returnsTo p back = true ∧ positionOf i.opcode back rets = true := by simpa [positionOf, hp] using hpos
    cases hq : back.procedure with
    | some q => exact calledBy_of_procedure hr hq (ih hback hq)
    | none =>
      cases rets with
      | nil => exact calledBy_of_operation hr (by simpa [positionOf] using hback)
      | cons _ _ => simp [positionOf, hq] at hback

/-! ### Each line answers -/

theorem pollStep_answers {s : State} {here back : Label} {rets : List Label} (hph : s.ph = .run here (back :: rets)) :
    ∃ t, pollStep s = .next t := by
  unfold pollStep
  split
  · exact ⟨_, ret_eq hph⟩
  · split
    · exact ⟨_, ret_eq hph⟩
    · split <;> exact ⟨_, rfl⟩

/-- A line of a procedure the operation calls answers, the last line by the return point. -/
theorem lineStep_answers_of_calledBy {i : Instr} {s : State} {p : Procedure} {here back : Label} {rets : List Label}
    (hc : p.calledBy i = true) (hp : here.procedure = some p) (hph : s.ph = .run here (back :: rets)) :
    ∃ t, lineStep i here s = .next t := by
  cases here
  case s1 b => cases hp; exact ⟨_, line_s1 hc b s⟩
  case s2 b => cases hp; exact ⟨_, line_s2 hc b s⟩
  case s3 => cases hp; exact ⟨_, line_s3 hc s⟩
  case s4 => cases hp; exact ⟨_, (line_s4 hc s).trans (ret_eq (here := .s4) hph)⟩
  case e1 => cases hp; exact ⟨_, line_e1 hc s⟩
  case e2 => cases hp; exact ⟨_, line_e2 hc s⟩
  case e3 => cases hp; exact ⟨_, line_e3 hc s⟩
  case e4 => cases hp; exact ⟨_, (line_e4 hc s).trans (ret_eq (here := .e4) hph)⟩
  case b1 => cases hp; exact ⟨_, line_b1 hc s⟩
  case b2 => cases hp; exact ⟨_, line_b2 hc s⟩
  case b3 =>
    cases hp
    rw [line_b3 hc]
    split
    · exact ⟨_, ret_eq hph⟩
    · exact ⟨_, rfl⟩
  case w1 u => cases hp; exact ⟨_, line_w1 hc u s⟩
  case w2 u => cases hp; exact ⟨_, line_w2 hc u s⟩
  case w3 u => cases hp; exact ⟨_, line_w3 hc u s⟩
  case w4 => cases hp; rw [line_w4 hc]; exact pollStep_answers hph
  case a1 b u x => cases hp; exact ⟨_, line_a1 hc b u x s⟩
  case a2 u => cases hp; exact ⟨_, line_a2 hc u s⟩
  case a3 => cases hp; exact ⟨_, (line_a3 hc s).trans (ret_eq (here := .a3) hph)⟩
  all_goals nomatch hp

/-- The own lines of PSEND answer: P7 loads below `TXLEN`, which leaves room for length and checksum (20_memory.md R73). -/
theorem At.psendLine_answers {c : Byte} {s : State} {here : Label} (h : At here [] s) (ho : here.operation = some 0x06) :
    ∃ t, lineStep (.psend c) here s = .next t := by
  cases here
  case p4 | p5 | p6 | p8 =>
    simp only [lineStep, psendStep]
    split <;> exact ⟨_, rfl⟩
  case p7 =>
    obtain ⟨-, hopl⟩ := h.own ho
    have hlt : s.idx.toNat < s.txlen.toNat := of_decide_eq_true h.indices
    have hfit : s.txlen.toNat ≤ s.cfg.txCap - 2 := h.fits hopl.symm
    exact ⟨_, if_pos (show s.idx.toNat < s.cfg.txCap by omega)⟩
  case p1 | p2 | p3 | p9 | p10 | p11 | p12 => exact ⟨_, rfl⟩
  all_goals nomatch ho

/-- The own lines of PRECV answer: V7 appends at an index of at most 13 (20_memory.md R72). -/
theorem At.precvLine_answers {c : Byte} {s : State} {here : Label} (h : At here [] s) (ho : here.operation = some 0x07) :
    ∃ t, lineStep (.precv c) here s = .next t := by
  cases here
  case v6 =>
    simp only [lineStep, precvStep]
    split <;> exact ⟨_, rfl⟩
  case v7 =>
    obtain ⟨hle, -⟩ : s.rxlen.toNat + s.cnt.toNat ≤ 13 ∧ s.cnt ≠ 0 := by simpa [indicesBounded, rootOf] using h.indices
    cases hw : s.wok with
    | true => exact ⟨_, line_v7_appends hw (by omega)⟩
    | false => exact ⟨_, line_v7_timedOut hw⟩
  case v1 | v2 | v3 | v4 | v5 | v8 | v9 | v10 | v11 | v12 => exact ⟨_, rfl⟩
  all_goals nomatch ho

/-- The own lines of every operation answer. -/
theorem At.ownLine_answers {i : Instr} {s : State} {here : Label} (h : At here [] s) (ho : here.operation = some i.opcode) :
    ∃ t, lineStep i here s = .next t := by
  cases i with
  | sendb b =>
    cases here
    case t1 | t2 => exact ⟨_, rfl⟩
    all_goals nomatch ho
  | enrx =>
    cases here
    case n1 | n2 => exact ⟨_, rfl⟩
    all_goals nomatch ho
  | rdblk =>
    cases here
    case k1 | k2 => exact ⟨_, rfl⟩
    all_goals nomatch ho
  | rdto units =>
    cases here
    case o1 | o2 => exact ⟨_, rfl⟩
    all_goals nomatch ho
  | sndack byte units expected =>
    cases here
    case q1 | q2 => exact ⟨_, rfl⟩
    all_goals nomatch ho
  | psend command => exact h.psendLine_answers ho
  | precv command => exact h.precvLine_answers ho
  | boot =>
    cases here
    case h1 | h2 | h3 | h4 | h5 | h6 | h7 | h8 | h9 | h10 | h11 | h12 | h13 | h14 | h15 => exact ⟨_, rfl⟩
    all_goals nomatch ho

/-- A line at which control soundly stands answers. -/
theorem At.line_answers {i : Instr} {s : State} {here : Label} {rets : List Label} (h : At here rets s)
    (hi : latchedInstr s = .ok i) : ∃ t, lineStep i here s = .next t := by
  have hopl : i.opcode = s.opl := opcode_of_decodeFields hi
  have hpos : positionOf i.opcode here rets = true := hopl ▸ h.position
  cases rets with
  | nil => exact h.ownLine_answers (by simpa [positionOf] using hpos)
  | cons back rets =>
    cases hp : here.procedure with
    | none => simp [positionOf, hp] at hpos
    | some p => exact lineStep_answers_of_calledBy (calledBy_of_position hpos hp) hp h.ph

/-! ### Each turn answers -/

/-- At a line some operation is latched (30_encoding.md R88, R90). -/
theorem At.latched {s : State} {here : Label} {rets : List Label} (h : At here rets s) : ∃ i, latchedInstr s = .ok i := by
  have hcode : 1 ≤ s.opl.toNat ∧ s.opl.toNat ≤ 8 := by simpa [validOpcode] using h.code
  exact (Laws.decodeFields_ok_iff _ _ _ _).mpr hcode

theorem seqTurn_answers {s : State} (h : Inv s) : ∃ t, seqTurn s = .next t := by
  cases hph : s.ph with
  | idle => exact ⟨s, by simp only [seqTurn, hph]⟩
  | run here rets =>
    have ha := h.toAt hph
    obtain ⟨i, hi⟩ := ha.latched
    rw [seqTurn_latched hph hi, exec_line ⟨ha.busy, hi⟩ hph]
    exact ha.line_answers hi

/-- A host write answers in every state: it is ignored, an issue, a refused issue, or a store (20_memory.md R68, R69). -/
theorem hostWrite_answers (off : Offset) (v : Byte) (s : State) : ∃ t, hostWrite off v s = .next t := by
  cases hb : s.busy with
  | true => exact ⟨_, hostWrite_busy hb off v⟩
  | false =>
    by_cases h0 : off = 0
    · subst h0
      cases hi : offeredInstr v s with
      | ok i => exact ⟨_, hostWrite_issue hb hi⟩
      | error e => exact ⟨refuseIssue v s, by rw [hostWrite_opc hb, issue, hi]⟩
    · exact ⟨_, hostWrite_store hb h0⟩

theorem turn_answers {s : State} (h : Inv s) (e : Turn) : ∃ t, turn e s = .next t := by
  cases e with
  | seq => exact seqTurn_answers h
  | write off v => exact hostWrite_answers off v s
  | deliver b => exact ⟨_, rfl⟩
  | read off => exact ⟨_, rfl⟩
  | reset => exact ⟨_, rfl⟩

/-- Settles O45, by how the agent is chosen: a reset and the interrupt always answer, and every turn does under the invariant. -/
theorem machineNeverStops : Obligations.MachineNeverStops := by
  unfold Obligations.MachineNeverStops
  intro s h
  obtain ⟨rest, -, hs⟩ | ⟨-, -, hs⟩ | ⟨-, -, hs⟩ | ⟨-, e, rest, -, -, hs⟩ := step_cases s
  · exact ⟨_, hs⟩
  · exact ⟨_, hs⟩
  · rw [hs]
    exact seqTurn_answers h
  · rw [hs]
    exact turn_answers (h.of_unread ..) e

end Sys2Proof.Machine
end

section
/-! Reset and `GIE` (70_reset_and_hazards.md R235, R255): what a reset leaves, and that no step of the block clears the
interrupt-enable flag once it is set. -/

namespace Sys2Proof.Machine

/-! ### Reset -/

/-- A reset goes before every other agent (70_reset_and_hazards.md R235). -/
theorem step_reset {s : State} {rest : List Turn} (hag : s.agenda = .reset :: rest) :
    step s = .next (resetTurn { s with agenda := rest }) := by
  obtain ⟨rest', hag', hs⟩ | ⟨hr, -, -⟩ | ⟨-, hag', -⟩ | ⟨-, e, rest', hag', he, -⟩ := step_cases s
  · obtain ⟨-, rfl⟩ := List.cons.inj (hag'.symm.trans hag)
    exact hs
  · exact absurd hag (hr rest)
  · cases hag'.symm.trans hag
  · exact absurd (List.cons.inj (hag'.symm.trans hag)).1 he

theorem statusByte_resetWith (c : Config) : statusByte (State.resetWith c) = 0 := by
  simp [statusByte, State.resetWith, flagBit, hsBits]

theorem lstatByte_resetWith (c : Config) : lstatByte (State.resetWith c) = 0 := by
  simp [lstatByte, State.resetWith, flagBit, modeBit]

/-- Settles O35: a reset turn gives `State.resetWith` at the parameters at hand, and its fields are the values the spec states. -/
theorem resetValues : Obligations.ResetValues := by
  unfold Obligations.ResetValues
  refine ⟨fun s rest hag => step_reset hag, fun c s hs => ?_⟩
  obtain ⟨c, rfl⟩ : ∃ c, s = State.resetWith c := hs.elim (fun h => ⟨c, h⟩) fun h => ⟨Config.installed, h⟩
  exact ⟨rfl, rfl, rfl, rfl, rfl, rfl, rfl, rfl, rfl, rfl, rfl, statusByte_resetWith c, lstatByte_resetWith c, rfl, rfl, rfl⟩

/-- The codes of the block at hand meet R10, whatever they are. -/
theorem installed_codes_wf : Config.installed.codes.wf = true := by
  unfold Config.installed
  dsimp only
  split
  · assumption
  · rfl

/-- The parameters of the block at hand are well formed (00_scope.md R9 to R12). -/
theorem installed_wf : Config.installed.wf = true := by
  have hsub : 1 ≤ Config.installed.subPerUnit := Nat.le_add_left ..
  rw [Config.wf, installed_codes_wf, decide_eq_true hsub]
  rfl

/-- Settles O43: the state after reset meets the invariant under well-formed parameters, and the block's own are. -/
theorem resetMeetsInvariant : Obligations.ResetMeetsInvariant := by
  unfold Obligations.ResetMeetsInvariant
  exact ⟨inv_resetWith installed_wf, fun _ hc => inv_resetWith hc⟩

/-! ### The interrupt-enable flag -/

theorem issueState_gie (i : Instr) (s : State) : (issueState i s).gie = s.gie := by
  obtain ⟨_, _, _, _, _, _, _, _, _, _, h⟩ := issueState_frame i s
  rw [h]

theorem deliver_gie (b : Byte) (s : State) : (deliver b s).gie = s.gie := by
  obtain ⟨-, h⟩ | ⟨-, h⟩ := deliver_cases b s <;> rw [h]

/-- An idle store of HOST reaches `GIE` through bit 2 of `LSTAT` only (20_memory.md R66, R76). -/
theorem hostStore_gie (off : Offset) (v : Byte) (s : State) :
    (hostStore off v s).gie = s.gie ∨ off = 0x05 ∧ (hostStore off v s).gie = v.getLsbD 2 := by
  obtain h | ⟨_, _, _, h⟩ | ⟨hoff, h⟩ | ⟨-, h⟩ | ⟨-, h⟩ | ⟨_, -, -, h⟩ := hostStore_cases off v s
  case inr.inr.inl => exact .inr ⟨hoff, by rw [h]⟩
  all_goals exact .inl (by rw [h])

/-- Settles O37, by what the step was: a line sets `GIE` at most, and of the other steps only a reset and an idle write of `LSTAT`
reach it. -/
theorem gieNeverClearedByBlock : Obligations.GieNeverClearedByBlock := by
  unfold Obligations.GieNeverClearedByBlock
  intro s t h hset hclear
  have hne : t.gie ≠ s.gie := by simp [hset, hclear]
  obtain ⟨rest, hag, -⟩ | ⟨-, -, rfl⟩ | ⟨-, rest, -, hturn⟩ := step_next h
  · exact .inl ⟨rest, hag⟩
  · exact absurd rfl hne
  · obtain rfl | ⟨i, here, rets, -, -, hl⟩ | ⟨i, -, rfl⟩ | ⟨v, -, rfl⟩ | ⟨b, -, rfl⟩ | ⟨off, v, hag, hb, -, rfl⟩ := hturn
    · exact absurd rfl hne
    · obtain hkept | hraised := (lineStep_effect hl).gie
      · exact absurd hkept hne
      · simp [hraised] at hclear
    · exact absurd (issueState_gie i _) hne
    · exact absurd rfl hne
    · exact absurd (deliver_gie b _) hne
    · obtain hkept | ⟨rfl, hbit⟩ := hostStore_gie off v { s with agenda := rest }
      · exact absurd hkept hne
      · exact .inr ⟨hb, v, rest, hag, hbit.symm.trans hclear⟩

end Sys2Proof.Machine
end

section
/-! SNDACK with a reply delivered between S3 and S4 of its send (70_reset_and_hazards.md R241 (b)): sendByte in three parts, with the
interrupt in neither gap, in the first (R242) or in the second, then the wait that runs out (R243). -/

namespace Sys2Proof.Machine

/-! ### sendByte with a delivery before its last line -/

section sendByte

variable {i : Instr} {s : State} {a b : Byte} {back : Label} {rets : List Label} {rest : List Turn}

/-- S1 and S2: one byte on the wire, the link in output mode (40_byte_transport.md R116). -/
theorem stepN_transmitted (hc : callsSendByte i = true) (hp : InProgress i s) (hq : irqEnabled s = false)
    (hph : s.ph = .run (.s1 a) rets) (hag : s.agenda = .seq :: .seq :: rest) :
    stepN 2 s = .next { s with
      agenda := rest, ph := .run .s3 rets, mode := .txInt, ifl := s.ifl || s.cfg.txSetsPending
      sdr := Config.freeByte s.draws, draws := s.draws + 1, txlog := s.txlog ++ [a] } := by
  refine stepN_line hp hq hph hag (line_s1 hc a _) ?_
  refine stepN_line (n := 0) (inProgress_congr hp rfl rfl rfl rfl rfl) (irqEnabled_congr hq rfl rfl rfl rfl) rfl rfl
    (line_s2 hc a _) ?_
  simp [stepN, transmit, State.goTo, hph]

/-- S3 and a delivery: the link listens again and the byte is pending in `SDR` (R116, R121). -/
theorem stepN_heard (hc : callsSendByte i = true) (hp : InProgress i s) (hq : irqEnabled s = false)
    (hph : s.ph = .run .s3 rets) (hag : s.agenda = .seq :: .deliver b :: rest) :
    stepN 2 s = .next { s with
      agenda := rest, ph := .run .s4 rets, mode := .rxExt, ifl := true, sdr := b, rxlog := s.rxlog ++ [b] } := by
  have hlisten : step s = .next { s with agenda := .deliver b :: rest, ph := .run .s4 rets, mode := .rxExt } := by
    rw [step_line hp hq hph hag, line_s3 hc, State.goTo, hph, rets_run]
  refine (stepN_succ hlisten).trans (stepN_succ (n := 0) ?_)
  exact step_turn (e := .deliver b) (rest := rest) (irqEnabled_congr hq rfl rfl rfl rfl) rfl

/-- S4: whatever is pending is dropped (R116). -/
theorem stepN_dropped (hc : callsSendByte i = true) (hp : InProgress i s) (hq : irqEnabled s = false)
    (hph : s.ph = .run .s4 (back :: rets)) (hag : s.agenda = .seq :: rest) :
    stepN 1 s = .next { s with agenda := rest, ph := .run back rets, ifl := false } :=
  stepN_line (n := 0) hp hq hph hag ((line_s4 hc _).trans (ret_eq (here := .s4) hph)) rfl

/-- On a link that is not armed, or with `GIE = 0`, no interrupt is enabled even with a byte pending (60_exceptions.md R206). -/
theorem irqEnabled_of_not_listening (h : armed s = false ∨ s.gie = false) : irqEnabled s = false := by
  obtain h | h := h <;> simp [irqEnabled, h]

/-- An enabled interrupt, then `n` steps (60_exceptions.md R207). -/
theorem stepN_interrupted {n : Nat} {t : State} (hq : irqEnabled s = true) (hr : ∀ rest, s.agenda ≠ .reset :: rest)
    (h : stepN n (irqStep s) = .next t) : stepN (n + 1) s = .next t :=
  (stepN_succ (step_irq hq hr)).trans h

/-- S3, a delivery and S4 with no interrupt between: the byte is lost to the mailbox (70_reset_and_hazards.md R241 (b)). -/
theorem stepN_heardAndDropped (hc : callsSendByte i = true) (hp : InProgress i s) (hoff : armed s = false ∨ s.gie = false)
    (hph : s.ph = .run .s3 (back :: rets)) (hag : s.agenda = .seq :: .deliver b :: .seq :: rest) :
    stepN 3 s = .next { s with
      agenda := rest, ph := .run back rets, mode := .rxExt, ifl := false, sdr := b, rxlog := s.rxlog ++ [b] } :=
  stepN_trans (m := 2) (n := 1) (stepN_heard hc hp (irqEnabled_of_not_listening hoff) hph hag)
    (stepN_dropped hc hp (irqEnabled_of_not_listening hoff) rfl rfl)

/-- sendByte from S1 to its return with a byte delivered between S3 and S4: the byte is dropped, after an interrupt exactly where the
link is armed and `GIE = 1`. That interrupt latches the byte itself unless a transmit sets the pending flag
(70_reset_and_hazards.md R241, R242). -/
theorem stepN_sendByte_early (hc : callsSendByte i = true) (hp : InProgress i s) (hq : irqEnabled s = false)
    (hph : s.ph = .run (.s1 a) (back :: rets)) (hag : s.agenda = .seq :: .seq :: .seq :: .deliver b :: .seq :: rest) :
    ∃ m f x, stepN (5 + if armed s && s.gie then 1 else 0) s = .next { s with
        agenda := rest, ph := .run back rets, mode := .rxExt, ifl := false, sdr := b, draws := s.draws + 1
        txlog := s.txlog ++ [a], rxlog := s.rxlog ++ [b], iem := m, rxf := f, rxb := x } ∧
      (armed s = false ∨ s.gie = false → x = s.rxb) ∧
      (armed s = true → s.gie = true → s.cfg.txSetsPending = false → x = b) := by
  have hsent := stepN_transmitted hc hp hq hph hag
  by_cases hoff : armed s = false ∨ s.gie = false
  case pos =>
    refine ⟨s.iem, s.rxf, s.rxb, ?_, fun _ => rfl, fun ha hg => by simp [ha, hg] at hoff⟩
    rw [if_neg (by obtain h | h := hoff <;> simp [h])]
    exact stepN_trans (m := 2) (n := 3) hsent (stepN_heardAndDropped hc hp hoff rfl rfl)
  case neg =>
    obtain ⟨ha, hg⟩ : armed s = true ∧ s.gie = true := by simpa using hoff
    have hifl : s.ifl = false := by simpa [irqEnabled, ha, hg] using hq
    rw [if_pos (by simp [ha, hg])]
    cases ht : s.cfg.txSetsPending with
    | true =>
      refine ⟨clearLinkBit s.cfg s.iem, true, Config.freeByte s.draws, ?_, (absurd · hoff), nofun⟩
      refine stepN_trans (m := 2) (n := 4) hsent (stepN_interrupted (n := 3) ?_ nofun ?_)
      · exact (irqEnabled_iff _).mpr ⟨by simp [ht], ha, hg⟩
      · exact stepN_heardAndDropped hc hp (.inl (armed_irqStep _)) rfl rfl
    | false =>
      rw [ht, hifl] at hsent
      refine ⟨clearLinkBit s.cfg s.iem, true, b, ?_, (absurd · hoff), fun _ _ _ => rfl⟩
      refine stepN_trans (m := 2) (n := 4) hsent ?_
      refine stepN_trans (m := 2) (n := 2) (stepN_heard hc hp (irqEnabled_of_ifl rfl) rfl rfl) ?_
      refine stepN_interrupted (n := 1) ?_ nofun ?_
      · exact (irqEnabled_iff _).mpr ⟨rfl, ha, hg⟩
      · exact stepN_dropped hc hp (irqEnabled_of_ifl rfl) rfl rfl

end sendByte

/-! ### SNDACK -/

/-- SNDACK from its issue through Q1 and A1 to the first line of the send (41_timeout_receive.md R139, R141). -/
theorem stepN_sndackCalled {s : State} {rest : List Turn} (hq : irqEnabled s = false) (hb : s.busy = false)
    (hag : s.agenda = .write 0x00 0x05 :: .seq :: .seq :: rest) :
    stepN 3 s = .next { accept 0x05 s.argA s.argB s.argC .q1 s with
      agenda := rest, ph := .run (.s1 s.argA) [.a2 s.argB, .q2], expAck := s.argC } := by
  refine (stepN_succ (step_issue (i := .sndack s.argA s.argB s.argC) hq hb hag rfl)).trans ?_
  refine stepN_line (i := .sndack s.argA s.argB s.argC) ⟨rfl, rfl⟩ hq rfl rfl rfl ?_
  exact stepN_line (i := .sndack s.argA s.argB s.argC) (n := 0) ⟨rfl, rfl⟩ hq rfl rfl rfl rfl

/-- A sendAndCheckAck from the return of its send to its own with nothing delivered: A2, the wait that runs out, A3
(41_timeout_receive.md R139). -/
theorem stepN_ackTimedOut {i : Instr} {s : State} {u : Byte} {back : Label} {rets : List Label} {rest : List Turn}
    (hc : callsSendAndCheckAck i = true) (hp : InProgress i s) (hq : s.ifl = false) (hsub : 1 ≤ s.cfg.subPerUnit)
    (hph : s.ph = .run (.a2 u) (back :: rets))
    (hag : s.agenda = .seq :: (seqTurns 7 ++ (seqTurns (u.toNat * s.cfg.subPerUnit + 1) ++ .seq :: rest))) :
    stepN (7 + (u.toNat * s.cfg.subPerUnit + 1) + 1 + 1) s = .next { s with
      agenda := rest, ph := .run back rets, mode := .rxExt, ifl := false, gie := true, rxf := false, wok := false
      iem := setLinkBit s.cfg s.iem, tu := 0, ts := s.cfg.subPerUnit } := by
  obtain ⟨-, hw⟩ := calls_of_ack hc
  refine stepN_line hp (irqEnabled_of_ifl hq) hph hag (line_a2 hc u _) ?_
  simp only [State.call, hph, rets_run]
  refine stepN_trans (stepN_timedOut hw hp hq hsub rfl rfl) ?_
  exact stepN_line (n := 0) hp (irqEnabled_of_ifl rfl) rfl rfl ((line_a3 hc _).trans (ret_eq (here := .a3) rfl)) rfl

/-- Settles O54: the issue to A1, the send that drops the reply, the wait that runs out, Q2. -/
theorem sndackLosesEarlyReply : Obligations.SndackLosesEarlyReply := by
  unfold Obligations.SndackLosesEarlyReply
  intro s b rest hq hcfg hb hag
  have hag : s.agenda = .write 0x00 0x05 :: .seq :: .seq :: .seq :: .seq :: .seq :: .deliver b :: .seq :: .seq ::
      (seqTurns 7 ++ (seqTurns (s.argB.toNat * s.cfg.subPerUnit + 1) ++ .seq :: .seq :: rest)) := by
    rw [hag, show 12 + s.argB.toNat * s.cfg.subPerUnit = 2 + (7 + (s.argB.toNat * s.cfg.subPerUnit + 1 + 2)) by omega]
    simp only [seqTurns_add, List.append_assoc]
    rfl
  have hcalled := stepN_sndackCalled hq hb hag
  obtain ⟨m, f, x, hsent, hkept, hlatched⟩ := stepN_sendByte_early (i := .sndack s.argA s.argB s.argC) (b := b)
    (s := { accept 0x05 s.argA s.argB s.argC .q1 s with
      agenda := .seq :: .seq :: .seq :: .deliver b :: .seq :: .seq ::
        (seqTurns 7 ++ (seqTurns (s.argB.toNat * s.cfg.subPerUnit + 1) ++ .seq :: .seq :: rest))
      ph := .run (.s1 s.argA) [.a2 s.argB, .q2], expAck := s.argC })
    rfl ⟨rfl, rfl⟩ hq rfl rfl
  have hwaited := stepN_trans (stepN_trans hcalled hsent)
    (stepN_ackTimedOut (i := .sndack s.argA s.argB s.argC) rfl ⟨rfl, rfl⟩ rfl (one_le_subPerUnit hcfg) rfl rfl)
  obtain ⟨-, hdone⟩ := stepN_completes (i := .sndack s.argA s.argB s.argC) hwaited ⟨rfl, rfl⟩ (irqEnabled_of_ifl rfl) rfl rfl rfl
  rw [show 19 + s.argB.toNat * s.cfg.subPerUnit + (if armed s && s.gie then 1 else 0) =
    3 + (5 + if armed s && s.gie then 1 else 0) + (7 + (s.argB.toNat * s.cfg.subPerUnit + 1) + 1 + 1) + 1 by omega]
  exact ⟨_, hdone, rfl, rfl, rfl, rfl, rfl, rfl, rfl, armed_setLinkBit _ _, rfl, rfl, hkept, hlatched⟩

end Sys2Proof.Machine
end
